-- ==== Sys2Proof/Word.lean ====
section
/-! DEFINITION. The word types of LSBC: bytes, bits and bit sequences (spec 00_scope.md R6, R11). -/

namespace Sys2Proof

/-- A byte of a buffer or an 8-bit sample of the grid (R6: SAMPLE_W = CHAR_W = 8). -/
abbrev Byte := BitVec 8

/-- A Bit, "a value in {0,1}" (00_scope.md section 7): `true` is 1. -/
abbrev Bit := Bool

/-- A bit sequence; the head of the list is sequence position 0, the first bit (R11 (b)). -/
abbrev Bits := List Bit

/-- The buffer select of ENCTXT and DECTXT: sel = 0 is PBUF with PLEN, sel = 1 is MBUF with MLEN (R12, R98). -/
inductive BufSel where
  | pass
  | msg
  deriving DecidableEq, Repr

end Sys2Proof
end

