-- ==== Sys2Proof/Config.lean ====
section
/-! DEFINITION. What is fixed for the life of the hardware: the parameters the spec fixes (R6, R7), the two OPEN
parameters the model takes as arguments (R7), and the free contents of memory that nothing has written (R40). -/

namespace Sys2Proof

/-- The three addressable memories (20_memory.md R61). They are disjoint. -/
inductive Space where
  | pbuf
  | mbuf
  | grid
  deriving DecidableEq, Repr

/-- The OPEN parameters of R7 that some rule depends on. They are an argument of the model: State carries one value of
them that no step changes, and a statement about every state holds for every value of them (log entry 1).
HOST_BUS, the third, is "not a value; a mapping" on which "nothing in this spec" depends. -/
structure Params where
  /-- GRID_CAP, the number of samples the grid store holds. -/
  gridCap : Nat
  /-- BQ_CAP, the capacity of the bit queue in bits. -/
  bqCap : Nat
  deriving DecidableEq, Repr

/-- The constraints of R7: GRID_CAP ≤ 2^40 and BQ_CAP ≥ 32. -/
def Params.wf (p : Params) : Bool := decide (p.gridCap ≤ 2 ^ 40) && decide (32 ≤ p.bqCap)

namespace Config

/-- PLEN_W, the width of the `passcode_length` field (R6). -/
def plenW : Nat := 16

/-- MLEN_W, the width of the `message_length` field (R6). -/
def mlenW : Nat := 32

/-- CHAR_W, the bits of one character (R6). -/
def charW : Nat := 8

/-- HEADER_BITS, the two length fields together (R6). -/
def headerBits : Nat := 48

/-- PBUF_SIZE in bytes (R7, R30). -/
def pbufSize : Nat := 65535

/-- MBUF_SIZE in bytes (R7, R31). -/
def mbufSize : Nat := 4294967295

/-- CMD_W, the width of a command word (R7). -/
def cmdW : Nat := 32

/-- The byte found at an address that neither the host nor a command has written since the last reset event. The spec
calls it "unspecified" ("any bytes, and no rule may depend on them; it does not mean zero", R40, U10), so it is a FREE
VALUE: nothing in Lean can evaluate it. The first argument counts the reset events, so that the contents after one
reset tell nothing of the contents after another (log entry 2). -/
opaque unwritten : Nat → Space → Nat → Byte

end Config

end Sys2Proof
end

