-- ==== Sys2Proof/Syntax.lean ====
section
/-! DEFINITION. The eight commands of LSBC, one constructor per row of spec/opcode_table.json (30_encoding.md R96). -/

namespace Sys2Proof

/-- A command. `w` is the operand byte ARG of ENCINT and DECINT as it stands in the word, "not scaled, not biased"
(R98); which values are legal is `Instr.wf`. The buffer select is already a name. -/
inductive Instr where
  | nop
  | encint (w : BitVec 8)
  | decint (w : BitVec 8)
  | enctxt (sel : BufSel)
  | dectxt (sel : BufSel)
  | bqclr
  | embed
  | extract
  deriving DecidableEq, Repr

end Sys2Proof
end

