-- ==== Sys2Proof/WellFormed.lean ====
section
/-! DEFINITION. Which commands are legal: the operand ranges of 30_encoding.md R96 and R97. -/

namespace Sys2Proof

/-- The widths ENCINT and DECINT accept: 1 ≤ w ≤ 32 (R97, D10). -/
def widthOk (w : BitVec 8) : Bool := decide (1 ≤ w.toNat) && decide (w.toNat ≤ 32)

/-- A command a legal word stands for. Only the width has a check: a buffer select outside 0 and 1 cannot be written
down as an `Instr`, and the other commands have no operand. -/
def Instr.wf : Instr → Bool
  | .nop => true
  | .encint w => widthOk w
  | .decint w => widthOk w
  | .enctxt _ => true
  | .dectxt _ => true
  | .bqclr => true
  | .embed => true
  | .extract => true

end Sys2Proof
end

