-- ==== Sys2Proof/Decode.lean ====
section
/-! DEFINITION. Decoding a 32-bit command word, total on all words and rejecting by name (30_encoding.md R96 to R100),
and the encoder written from the same table. -/

namespace Sys2Proof

/-- Why a word is illegal: the sub-causes of IllegalCommand (R97, 60_exceptions.md R211). -/
inductive IllegalCause where
  | reservedOpcode
  | reservedBits
  | badOperand
  deriving DecidableEq, Repr

/-- What a word decodes to: a command, or the name of the first test it fails. -/
inductive Decoded where
  | cmd (i : Instr)
  | illegal (c : IllegalCause)
  deriving DecidableEq, Repr

/-- Field OP, bits 7:0 (R96). -/
def opOf (x : BitVec 32) : BitVec 8 := x.extractLsb' 0 8

/-- Field ARG, bits 15:8 (R96). -/
def argOf (x : BitVec 32) : BitVec 8 := x.extractLsb' 8 8

/-- Field RSV, bits 31:16 (R96). -/
def rsvOf (x : BitVec 32) : BitVec 16 := x.extractLsb' 16 16

def opNop : BitVec 8 := 0x00#8
def opEncint : BitVec 8 := 0x01#8
def opDecint : BitVec 8 := 0x02#8
def opEnctxt : BitVec 8 := 0x03#8
def opDectxt : BitVec 8 := 0x04#8
def opBqclr : BitVec 8 := 0x05#8
def opEmbed : BitVec 8 := 0x10#8
def opExtract : BitVec 8 := 0x11#8

/-- The eight opcodes; every other value is reserved (R97, R99). -/
def knownOps : List (BitVec 8) := [opNop, opEncint, opDecint, opEnctxt, opDectxt, opBqclr, opEmbed, opExtract]

/-- The buffer select an operand byte names: 0 selects PBUF and PLEN, 1 selects MBUF and MLEN (R98). -/
def decodeSel (arg : BitVec 8) : Option BufSel :=
  if arg = 0#8 then some .pass else if arg = 1#8 then some .msg else none

/-- The command of a known opcode and its operand byte; `none` where the operand is out of range (R97). -/
def decodeForm (op arg : BitVec 8) : Option Instr :=
  if op = opNop then (if arg = 0#8 then some .nop else none)
  else if op = opEncint then (if widthOk arg then some (.encint arg) else none)
  else if op = opDecint then (if widthOk arg then some (.decint arg) else none)
  else if op = opEnctxt then (decodeSel arg).map .enctxt
  else if op = opDectxt then (decodeSel arg).map .dectxt
  else if op = opBqclr then (if arg = 0#8 then some .bqclr else none)
  else if op = opEmbed then (if arg = 0#8 then some .embed else none)
  else if op = opExtract then (if arg = 0#8 then some .extract else none)
  else none

/-- The decoder of R97: the three tests in the order the rule gives them. -/
def decode (x : BitVec 32) : Decoded :=
  if opOf x ∉ knownOps then .illegal .reservedOpcode
  else if rsvOf x ≠ 0#16 then .illegal .reservedBits
  else
    match decodeForm (opOf x) (argOf x) with
    | some i => .cmd i
    | none => .illegal .badOperand

/-- Field OP of a command (R96). -/
def Instr.op : Instr → BitVec 8
  | .nop => opNop
  | .encint _ => opEncint
  | .decint _ => opDecint
  | .enctxt _ => opEnctxt
  | .dectxt _ => opDectxt
  | .bqclr => opBqclr
  | .embed => opEmbed
  | .extract => opExtract

/-- The operand byte of a buffer select (R98). -/
def encodeSel : BufSel → BitVec 8
  | .pass => 0#8
  | .msg => 1#8

/-- Field ARG of a command (R96). -/
def Instr.arg : Instr → BitVec 8
  | .nop => 0#8
  | .encint w => w
  | .decint w => w
  | .enctxt sel => encodeSel sel
  | .dectxt sel => encodeSel sel
  | .bqclr => 0#8
  | .embed => 0#8
  | .extract => 0#8

/-- The word of a command: RSV = 0, then ARG, then OP (R96). -/
def encode (i : Instr) : BitVec 32 := 0#16 ++ (i.arg ++ i.op)

/-- The decoder at the host's numbering. A command is one 32-bit word (R100) whose bit 0 is the word's bit 0, so the
`nbits` low bits of `w` are the word; bits above 32 belong to no command word. -/
def decodeTableWord (nbits w : Nat) : Option Instr :=
  let x := w % 2 ^ nbits
  if x < 2 ^ Config.cmdW then
    match decode (BitVec.ofNat 32 x) with
    | .cmd i => some i
    | .illegal _ => none
  else none

end Sys2Proof
end

