-- ==== Sys2Proof/Machine/State.lean ====
section
/-! DEFINITION. The state of LSBC (10_state.md R20), the host's transactions waiting to be performed
(44_control_and_host.md), the reasons a transaction has no meaning, and the state after reset (R40). -/

namespace Sys2Proof.Machine

/-- A byte memory: the bytes written since the last reset event, as (address, byte) pairs with strictly rising
addresses. An address that is not listed has not been written. -/
abbrev Memory := List Host.Cell

/-- The thirteen registers of R37. -/
inductive Reg where
  | cmd
  | status
  | rows
  | cols
  | chans
  | plen
  | mlen
  | ival
  | bqlen
  | bcur
  | scurR
  | scurC
  | scurCh
  deriving DecidableEq, Repr

/-- A host transaction (R190 to R194), a host move on its own grid store (R193), or the reset event (R240). -/
inductive HostOp where
  /-- `RegRead(n)` (R190). -/
  | regRead (n : BitVec 4)
  /-- `RegWrite(n, v)` (R191); on register number 0 it issues a command (R194). -/
  | regWrite (n : BitVec 4) (v : Nat)
  /-- `BufRead(P, i)`, `BufRead(M, i)` (R192). -/
  | bufRead (sel : BufSel) (i : Nat)
  /-- `BufWrite(P, i, b)`, `BufWrite(M, i, b)` (R192). -/
  | bufWrite (sel : BufSel) (i : Nat) (b : Byte)
  /-- `GridRead(k)` (R193). -/
  | gridRead (k : Nat)
  /-- `GridWrite(k, s)` (R193). -/
  | gridWrite (k : Nat) (b : Byte)
  /-- The reset event, between two transactions (R240). -/
  | reset
  deriving DecidableEq, Repr

/-- The state of LSBC. CMD (R28) has no storage and BQLEN (R33) is a view of `bq`, so neither is a field. -/
structure State where
  /-- The OPEN parameters (R7), fixed for the life of the hardware. -/
  params : Params
  /-- STATUS, the outcome of the last command (R29). -/
  status : BitVec 32
  /-- ROWS (R21). -/
  rows : BitVec 16
  /-- COLS (R22). -/
  cols : BitVec 16
  /-- CHANS (R23). -/
  chans : BitVec 8
  /-- PLEN, the passcode's length in bytes (R25). -/
  plen : BitVec 16
  /-- MLEN, the message's length in bytes (R26). -/
  mlen : BitVec 32
  /-- IVAL, the operand of ENCINT and the result of DECINT (R27). -/
  ival : BitVec 32
  /-- BCUR, the bit cursor (R34). -/
  bcur : BitVec 40
  /-- SCUR_R, the row of the sample cursor (R35). -/
  scurR : BitVec 16
  /-- SCUR_C, the column of the sample cursor (R35). -/
  scurC : BitVec 16
  /-- SCUR_CH, the channel of the sample cursor (R35). -/
  scurCh : BitVec 8
  /-- BQ, the bit queue, oldest bit first (R32). -/
  bq : Bits
  /-- PBUF, the passcode buffer (R30). -/
  pbuf : Memory
  /-- MBUF, the message buffer (R31). -/
  mbuf : Memory
  /-- GRID, the samples by linear index (20_memory.md R60). -/
  grid : Memory
  /-- The model's own: how many reset events there have been, the argument of the free contents of unwritten memory. -/
  epoch : Nat
  /-- The model's own: the host script still to be performed, next transaction first (R199). -/
  pending : List HostOp
  /-- The model's own: the values the script's reads have returned, oldest first (R199). -/
  reads : List Nat
  deriving DecidableEq, Repr

/-- The machine stops with a fault. There is no such case: "A command never faults the engine: an error outcome is a
value in STATUS, and the next command runs normally" (R199, R210), and 93_implementation_defined.md says that `stuck`
"is not used". So the type has no constructor. -/
inductive Fault where
  deriving DecidableEq, Repr

/-- Why the model refuses: the cases to which the spec gives the treatment `refuse`, "the model has no move for the
case" (93_implementation_defined.md). -/
inductive Refusal where
  /-- Raised by an arm of `exec` whose command has no meaning yet. No arm does. Safe. -/
  | notModelled (mnemonic : String)
  /-- Raised by EMBED and EXTRACT issued with N > GRID_CAP: "the command would address samples that do not exist"
  (U14, R60, R246). Safe. -/
  | gridBeyondStore
  /-- Raised by a read or write of register numbers 13, 14 and 15, which name no register (U7, R196). Safe. -/
  | reservedRegister (n : BitVec 4)
  /-- Raised by a register write of a value the register's width cannot hold; a register transfer "carries a value of
  exactly the register's width" (R37, R66, R191). Safe. -/
  | valueTooWide (r : Reg) (v : Nat)
  /-- Raised by a buffer access above index 65534 of PBUF or 4294967294 of MBUF (U8, R192). Safe. -/
  | bufferIndex (sel : BufSel) (i : Nat)
  /-- Raised by a host grid access at an index that is not below GRID_CAP (R193). Safe. -/
  | gridIndex (k : Nat)
  deriving DecidableEq, Repr

/-- The parameters of the machine `State.reset` describes: BQ_CAP as in the spec's test vectors, GRID_CAP the largest
the spec allows (log entry 1). -/
def defaultParams : Params := { gridCap := 2 ^ 40, bqCap := 128 }

/-- The state right after reset (R40): every register 0, BQ empty, no byte of any memory written, no script. -/
def State.reset : State :=
  { params := defaultParams
    status := 0#32
    rows := 0#16
    cols := 0#16
    chans := 0#8
    plen := 0#16
    mlen := 0#32
    ival := 0#32
    bcur := 0#40
    scurR := 0#16
    scurC := 0#16
    scurCh := 0#8
    bq := []
    pbuf := []
    mbuf := []
    grid := []
    epoch := 0
    pending := []
    reads := [] }

end Sys2Proof.Machine
end

