-- ==== Sys2Proof/Machine/Operands.lean ====
section
/-! DEFINITION. The pure functions of the Bit Codec (41_bit_codec.md R120 to R123), the container bitstream
(30_encoding.md R91) and the grid's index arithmetic (20_memory.md R62, R63). -/

namespace Sys2Proof.Machine

/-- The bits of a word, most significant first: sequence position i holds register bit w-1-i (R11 (b)). -/
def bitsOf {w : Nat} (v : BitVec w) : Bits := (List.range w).map v.getMsbD

/-- `encode_int(value, width)` (R120). It has no value where `value` does not fit: "a model must not return a truncated
or widened sequence". -/
def encodeInt (value width : Nat) : Option Bits :=
  if value < 2 ^ width then some (bitsOf (BitVec.ofNat width value)) else none

/-- `decode_int(bits)`: "start from v = 0 and for each bit in order do v <- 2·v + b" (R121). -/
def decodeInt (bits : Bits) : Nat := bits.foldl (fun v b => 2 * v + b.toNat) 0

/-- `encode_text(s)`: the characters in order, each as its 8 bits (R122). -/
def encodeText (s : List Byte) : Bits := s.flatMap bitsOf

/-- The first `n` characters of a bit sequence: "each consecutive 8-bit group becomes one character via
`decode_int`" (R123). -/
def chars : Nat → Bits → List Byte
  | 0, _ => []
  | n + 1, bits => BitVec.ofNat 8 (decodeInt (bits.take Config.charW)) :: chars n (bits.drop Config.charW)

/-- `decode_text(bits)`. "A sequence whose length is not a multiple of 8 is not well-formed input" (R123). -/
def decodeText (bits : Bits) : Option (List Byte) :=
  if bits.length % Config.charW = 0 then some (chars (bits.length / Config.charW) bits) else none

/-- The container bitstream of a passcode and a message, built from the two length registers: their widths make
`encode_int`'s precondition hold (R91, R25, R26). -/
def containerBits (pl : BitVec 16) (p : List Byte) (ml : BitVec 32) (m : List Byte) : Bits :=
  bitsOf pl ++ encodeText p ++ bitsOf ml ++ encodeText m

/-- `CB(P, M)` as R91 writes it, on any two byte strings; no value where a length does not fit its field. -/
def containerOf (p m : List Byte) : Option Bits :=
  match encodeInt p.length Config.plenW, encodeInt m.length Config.mlenW with
  | some pl, some ml => some (pl ++ encodeText p ++ ml ++ encodeText m)
  | _, _ => none

/-- `CB[k]` on demand, the case formula of R91, for characters given by their index. -/
def containerBit (pl : BitVec 16) (p : Nat → Byte) (ml : BitVec 32) (m : Nat → Byte) (k : Nat) : Bit :=
  if k < 16 then pl.getLsbD (15 - k)
  else if k < 16 + 8 * pl.toNat then (p ((k - 16) / 8)).getLsbD (7 - (k - 16) % 8)
  else if k < 48 + 8 * pl.toNat then ml.getLsbD (31 - (k - 16 - 8 * pl.toNat))
  else (m ((k - 48 - 8 * pl.toNat) / 8)).getLsbD (7 - (k - 48 - 8 * pl.toNat) % 8)

/-- The linear index of a sample, `(r · COLS + c) · CHANS + ch` (R62). -/
def linearIndex (cols chans r c ch : Nat) : Nat := (r * cols + c) * chans + ch

/-- `coords(k)` (R63). -/
def coords (cols chans k : Nat) : Nat × Nat × Nat :=
  (k / (cols * chans), k / chans % cols, k % chans)

/-- The samples in traversal order, the nested loops of R63: rows outer, columns middle, channels inner. -/
def traversal (rows cols chans : Nat) : List (Nat × Nat × Nat) :=
  (List.range rows).flatMap fun r =>
    (List.range cols).flatMap fun c => (List.range chans).map fun ch => (r, c, ch)

/-- The write rule of one sample: `(s & 0xFE) | b` (R68 (b), R153). -/
def setLsb (x : Byte) (b : Bit) : Byte := (x &&& 0xFE#8) ||| (if b then 1#8 else 0#8)

/-- The register a number names; 13 to 15 name none (R37, R196). -/
def Reg.ofNumber (n : BitVec 4) : Option Reg :=
  match n.toNat with
  | 0 => some .cmd
  | 1 => some .status
  | 2 => some .rows
  | 3 => some .cols
  | 4 => some .chans
  | 5 => some .plen
  | 6 => some .mlen
  | 7 => some .ival
  | 8 => some .bqlen
  | 9 => some .bcur
  | 10 => some .scurR
  | 11 => some .scurC
  | 12 => some .scurCh
  | _ => none

/-- The number of a register (R37). -/
def Reg.number : Reg → BitVec 4
  | .cmd => 0#4
  | .status => 1#4
  | .rows => 2#4
  | .cols => 3#4
  | .chans => 4#4
  | .plen => 5#4
  | .mlen => 6#4
  | .ival => 7#4
  | .bqlen => 8#4
  | .bcur => 9#4
  | .scurR => 10#4
  | .scurC => 11#4
  | .scurCh => 12#4

/-- A register's width in bits (R37). BQLEN's is only bounded from below ("≥ 6, holds BQ_CAP"), so it has none here. -/
def Reg.width? : Reg → Option Nat
  | .cmd => some 32
  | .status => some 32
  | .rows => some 16
  | .cols => some 16
  | .chans => some 8
  | .plen => some 16
  | .mlen => some 32
  | .ival => some 32
  | .bqlen => none
  | .bcur => some 40
  | .scurR => some 16
  | .scurC => some 16
  | .scurCh => some 8

/-- The value can be carried by a transfer of the register, "exactly the register's width" (R66, R191; for BQLEN, whose
width has no upper bound and whose writes are ignored, every value can: log entry 5). -/
def Reg.carries (r : Reg) (v : Nat) : Bool :=
  match r.width? with
  | some w => decide (v < 2 ^ w)
  | none => true

/-- The size of a buffer in bytes (R30, R31). -/
def bufSize : BufSel → Nat
  | .pass => Config.pbufSize
  | .msg => Config.mbufSize

/-- The memory a buffer select names. -/
def bufSpace : BufSel → Space
  | .pass => .pbuf
  | .msg => .mbuf

end Sys2Proof.Machine
end

