-- ==== Sys2Proof/Machine/Flags.lean ====
section
/-! DEFINITION. STATUS, LSBC's "only flag-like state" (10_state.md R29): the outcomes of a command, their codes
(60_exceptions.md R211) and the status word. -/

namespace Sys2Proof.Machine

/-- The four fields of the container (30_encoding.md R90). -/
inductive Field where
  | passlen
  | pass
  | msglen
  | msg
  deriving DecidableEq, Repr

/-- The outcome of a command: OK, or an error kind with its sub-cause (R210, R211). -/
inductive CmdOutcome where
  | ok
  | emptyPasscode
  | emptyMessage
  | capacityError
  | truncated (f : Field)
  | rangeError
  | overflow
  | underflow
  | illegal (c : IllegalCause)
  deriving DecidableEq, Repr

/-- CODE, the outcome's kind (R211): 0 OK, 1 InputError, 2 CapacityError, 3 TruncatedDataError, 4 RangeError,
5 QueueError, 6 IllegalCommand. -/
def CmdOutcome.code : CmdOutcome → BitVec 4
  | .ok => 0#4
  | .emptyPasscode => 1#4
  | .emptyMessage => 1#4
  | .capacityError => 2#4
  | .truncated _ => 3#4
  | .rangeError => 4#4
  | .overflow => 5#4
  | .underflow => 5#4
  | .illegal _ => 6#4

/-- SUB, the sub-cause within the kind (R211; the order of the IllegalCommand sub-causes is 90_conflicts.md C10's). -/
def CmdOutcome.sub : CmdOutcome → BitVec 4
  | .ok => 0#4
  | .emptyPasscode => 1#4
  | .emptyMessage => 2#4
  | .capacityError => 0#4
  | .truncated .passlen => 1#4
  | .truncated .pass => 2#4
  | .truncated .msglen => 3#4
  | .truncated .msg => 4#4
  | .rangeError => 0#4
  | .overflow => 1#4
  | .underflow => 2#4
  | .illegal .reservedOpcode => 1#4
  | .illegal .reservedBits => 2#4
  | .illegal .badOperand => 3#4

/-- The status word `(LASTOP << 8) | (SUB << 4) | CODE`, bits 31:16 zero (R211, R29). -/
def statusWord (lastop : BitVec 8) (o : CmdOutcome) : BitVec 32 := 0#16 ++ (lastop ++ (o.sub ++ o.code))

/-- STATUS bits 3:0 (R29). -/
def statusCode (st : BitVec 32) : BitVec 4 := st.extractLsb' 0 4

/-- STATUS bits 7:4 (R29). -/
def statusSub (st : BitVec 32) : BitVec 4 := st.extractLsb' 4 4

/-- STATUS bits 15:8 (R29). -/
def statusLastop (st : BitVec 32) : BitVec 8 := st.extractLsb' 8 8

/-- STATUS bits 31:16, "always read as 0" (R29). -/
def statusZero (st : BitVec 32) : BitVec 16 := st.extractLsb' 16 16

end Sys2Proof.Machine
end

