-- ==== Sys2Proof/Machine/Ops.lean ====
section
/-! DEFINITION. The named operations over registers, buffers, grid and bit queue that the meanings share, and the one
way a command ends (60_exceptions.md R210: LSBC's counterpart of taking an exception and of returning from one). -/

namespace Sys2Proof.Machine

/-- What performing a command or a transaction answers. -/
abbrev Result := Host.Outcome State Fault Refusal

namespace State

/-- N = ROWS · COLS · CHANS on natural numbers (R24, R70). -/
def numSamples (s : State) : Nat := s.rows.toNat * s.cols.toNat * s.chans.toNat

/-- L = 16 + 8·PLEN + 32 + 8·MLEN on natural numbers (R90, R151). -/
def containerLength (s : State) : Nat := 16 + 8 * s.plen.toNat + 32 + 8 * s.mlen.toNat

/-- `BUF(sel)` (R12). -/
def buf (s : State) : BufSel → Memory
  | .pass => s.pbuf
  | .msg => s.mbuf

/-- `LEN(sel)` (R12). -/
def len (s : State) : BufSel → Nat
  | .pass => s.plen.toNat
  | .msg => s.mlen.toNat

/-- The state with the selected buffer replaced. -/
def setBuf (s : State) (sel : BufSel) (m : Memory) : State :=
  match sel with
  | .pass => { s with pbuf := m }
  | .msg => { s with mbuf := m }

/-- Byte i of the selected buffer; a byte never written is free (R30, R31, R40). -/
def bufByte (s : State) (sel : BufSel) (i : Nat) : Byte :=
  ((s.buf sel).get? i).getD (Config.unwritten s.epoch (bufSpace sel) i)

/-- `⟨BUF(sel)[0], ..., BUF(sel)[n-1]⟩` with n = LEN(sel): the passcode or the message (R126, R150). -/
def text (s : State) (sel : BufSel) : List Byte := (List.range (s.len sel)).map (s.bufByte sel)

/-- The state with consecutive bytes of the selected buffer written from index 0 on. -/
def storeText (s : State) (sel : BufSel) (t : List Byte) : State := s.setBuf sel ((s.buf sel).store 0 t)

/-- `GRID[k]`; a sample never written is free (R60, R40). -/
def sample (s : State) (k : Nat) : Byte := (s.grid.get? k).getD (Config.unwritten s.epoch .grid k)

/-- `GRID[k] <- x` (R62). -/
def setSample (s : State) (k : Nat) (x : Byte) : State := { s with grid := s.grid.set k x }

/-- `lsb(k)`, bit 0 of sample k (R12, R68 (a)). -/
def lsb (s : State) (k : Nat) : Bit := (s.sample k).getLsbD 0

/-- `bitsfrom(start, n)` (R171). -/
def bitsFrom (s : State) (start n : Nat) : Bits := (List.range n).map fun i => s.lsb (start + i)

/-- Put consecutive bits into the LSBs of samples k, k+1, ...: the loop of R151, each sample read once and written
once (R68 (d)). -/
def putBits : Bits → Nat → State → State
  | [], _, s => s
  | b :: bs, k, s => putBits bs (k + 1) (s.setSample k (setLsb (s.sample k) b))

/-- The container of the passcode and message the registers and buffers hold (R91). -/
def container (s : State) : Bits := containerBits s.plen (s.text .pass) s.mlen (s.text .msg)

/-- The coordinates of a cursor position: coords(k), and (0, 0, 0) where the grid is empty (R63, R171). -/
def cursorCoords (s : State) (k : Nat) : Nat × Nat × Nat :=
  if s.numSamples = 0 then (0, 0, 0) else coords s.cols.toNat s.chans.toNat k

/-- `BCUR <- k; (SCUR_R, SCUR_C, SCUR_CH) <- coords(k)` (R34, R35). -/
def setCursor (s : State) (k : Nat) : State :=
  { s with
    bcur := BitVec.ofNat 40 k
    scurR := BitVec.ofNat 16 (s.cursorCoords k).1
    scurC := BitVec.ofNat 16 (s.cursorCoords k).2.1
    scurCh := BitVec.ofNat 8 (s.cursorCoords k).2.2 }

/-- There is room for n more bits in BQ: not |BQ| + n > BQ_CAP (R124, R126). -/
def hasRoom (s : State) (n : Nat) : Bool := decide (s.bq.length + n ≤ s.params.bqCap)

/-- `push(BQ, bits)` (R12). -/
def push (s : State) (bits : Bits) : State := { s with bq := s.bq ++ bits }

/-- The state part of `pop(BQ, n)` (R12). -/
def pop (s : State) (n : Nat) : State := { s with bq := s.bq.drop n }

/-- THE END OF A COMMAND, the one shared operation by which an outcome is reported: STATUS takes LASTOP, SUB and CODE
and "nothing else happens: no vector is fetched, no handler runs, no mode changes, no state is saved anywhere" (R210).
There is nothing to return from: the next command "runs exactly as it would have after an OK" (R218). -/
def finish (s : State) (lastop : BitVec 8) (o : CmdOutcome) : State := { s with status := statusWord lastop o }

/-- The state with a value returned to the host by a read (R199). -/
def record (s : State) (v : Nat) : State := { s with reads := s.reads ++ [v] }

/-- The reset event (R240): every register takes its value of R40, BQ is emptied, the contents of PBUF, MBUF and GRID
become unspecified (a new epoch of the free contents); the parameters, the rest of the script and what the host has
already read are not LSBC's to change. -/
def applyReset (s : State) : State :=
  { State.reset with
    params := s.params
    epoch := s.epoch + 1
    pending := s.pending
    reads := s.reads }

end State

/-- `done` or `fail` of R12: the command ends with an outcome in STATUS. -/
def endWith (s : State) (lastop : BitVec 8) (o : CmdOutcome) : Result := .next (s.finish lastop o)

end Sys2Proof.Machine
end

