-- ==== Sys2Proof/Machine/Control.lean ====
section
/-! DEFINITION. NOP, and what an illegal word does (44_control_and_host.md R197, 60_exceptions.md R221). -/

namespace Sys2Proof.Machine

/-- NOP (R197): the outcome is OK and nothing else changes. -/
def execNop (s : State) : Result := endWith s opNop .ok

/-- An illegal word (R221): LASTOP takes the low byte of the word, "nothing but STATUS changes". -/
def endIllegal (s : State) (low : BitVec 8) (c : IllegalCause) : Result := endWith s low (.illegal c)

end Sys2Proof.Machine
end

