-- ==== Sys2Proof/Machine/Codec.lean ====
section
/-! DEFINITION. The Bit Codec's five commands over the bit queue (41_bit_codec.md R124 to R128). -/

namespace Sys2Proof.Machine

/-- The pseudocode of R124 for a legal width: the range test first, then the room test. -/
def encintLegal (w : Nat) (s : State) : Result :=
  match encodeInt s.ival.toNat w with
  | none => endWith s opEncint .rangeError
  | some bits =>
    if s.hasRoom w then endWith (s.push bits) opEncint .ok
    else endWith s opEncint .overflow

/-- ENCINT w (R124). A word whose ARG is out of range is illegal (R97). -/
def execEncint (w : BitVec 8) (s : State) : Result :=
  if widthOk w then encintLegal w.toNat s else endIllegal s opEncint .badOperand

/-- The pseudocode of R125 for a legal width. -/
def decintLegal (w : Nat) (s : State) : Result :=
  if s.bq.length < w then endWith s opDecint .underflow
  else endWith { s.pop w with ival := BitVec.ofNat 32 (decodeInt (s.bq.take w)) } opDecint .ok

/-- DECINT w (R125). A word whose ARG is out of range is illegal (R97). -/
def execDecint (w : BitVec 8) (s : State) : Result :=
  if widthOk w then decintLegal w.toNat s else endIllegal s opDecint .badOperand

/-- ENCTXT sel (R126). -/
def execEnctxt (sel : BufSel) (s : State) : Result :=
  if s.hasRoom (8 * s.len sel) then endWith (s.push (encodeText (s.text sel))) opEnctxt .ok
  else endWith s opEnctxt .overflow

/-- DECTXT sel (R127). -/
def execDectxt (sel : BufSel) (s : State) : Result :=
  if s.bq.length < 8 * s.len sel then endWith s opDectxt .underflow
  else
    endWith ((s.pop (8 * s.len sel)).storeText sel (chars (s.len sel) (s.bq.take (8 * s.len sel)))) opDectxt .ok

/-- BQCLR (R128). -/
def execBqclr (s : State) : Result := endWith { s with bq := [] } opBqclr .ok

end Sys2Proof.Machine
end

