-- ==== Sys2Proof/Machine/Embed.lean ====
section
/-! DEFINITION. The Embedder: command EMBED, big-step (42_embed.md R151). -/

namespace Sys2Proof.Machine

/-- The outcome of EMBED's three checks, in the order of R151 and R152; `ok` where all pass. -/
def embedCheck (s : State) : CmdOutcome :=
  if s.plen = 0#16 then .emptyPasscode
  else if s.mlen = 0#32 then .emptyMessage
  else if s.numSamples < s.containerLength then .capacityError
  else .ok

/-- The state after EMBED's loop and final cursor assignments (R151). -/
def embedPayload (s : State) : State := (State.putBits s.container 0 s).setCursor s.containerLength

/-- EMBED (R151). With N > GRID_CAP "the model refuses such a command" (R60, R246, U14). On a failed check the cursors
are 0 and nothing else has changed. -/
def execEmbed (s : State) : Result :=
  if s.params.gridCap < s.numSamples then .refused .gridBeyondStore
  else
    match embedCheck s with
    | .ok => endWith (embedPayload s) opEmbed .ok
    | o => endWith (s.setCursor 0) opEmbed o

end Sys2Proof.Machine
end

