-- ==== Sys2Proof/Machine/Extract.lean ====
section
/-! DEFINITION. The Extractor: command EXTRACT, big-step, one definition per field of the container
(43_extract.md R171, R173). -/

namespace Sys2Proof.Machine

/-- `fail TruncatedDataError(f)` with BCUR at the start of the failing field (R173, R175). -/
def truncateAt (s : State) (f : Field) (pos : Nat) : Result :=
  endWith (s.setCursor pos) opExtract (.truncated f)

/-- Field MSG, ml bytes from `pos` on (R171). -/
def extractMsg (pos ml : Nat) (s : State) : Result :=
  if s.numSamples < pos + 8 * ml then truncateAt s .msg pos
  else
    endWith ((s.storeText .msg (chars ml (s.bitsFrom pos (8 * ml)))).setCursor (pos + 8 * ml)) opExtract .ok

/-- Field MSGLEN, 32 bits from `pos` on (R171). -/
def extractMsglen (pos : Nat) (s : State) : Result :=
  if s.numSamples < pos + 32 then truncateAt s .msglen pos
  else
    extractMsg (pos + 32) (decodeInt (s.bitsFrom pos 32))
      { s with mlen := BitVec.ofNat 32 (decodeInt (s.bitsFrom pos 32)) }

/-- Field PASS, pl bytes from `pos` on (R171). -/
def extractPass (pos pl : Nat) (s : State) : Result :=
  if s.numSamples < pos + 8 * pl then truncateAt s .pass pos
  else extractMsglen (pos + 8 * pl) (s.storeText .pass (chars pl (s.bitsFrom pos (8 * pl))))

/-- Field PASSLEN, 16 bits from `pos` on (R171). -/
def extractPasslen (pos : Nat) (s : State) : Result :=
  if s.numSamples < pos + 16 then truncateAt s .passlen pos
  else
    extractPass (pos + 16) (decodeInt (s.bitsFrom pos 16))
      { s with plen := BitVec.ofNat 16 (decodeInt (s.bitsFrom pos 16)) }

/-- EXTRACT (R171): the four fields in order, from bit 0 on. With N > GRID_CAP "the model refuses such a command"
(R60, R246, U14). -/
def execExtract (s : State) : Result :=
  if s.params.gridCap < s.numSamples then .refused .gridBeyondStore
  else extractPasslen 0 s

end Sys2Proof.Machine
end

