-- ==== Sys2Proof/Machine/Dispatch.lean ====
section
/-! DEFINITION. One arm per command: the command's meaning. -/

namespace Sys2Proof.Machine

def exec (i : Instr) (s : State) : Host.Outcome State Fault Refusal :=
  match i with
  | .nop => Sys2Proof.Machine.execNop s
  | .encint w => Sys2Proof.Machine.execEncint w s
  | .decint w => Sys2Proof.Machine.execDecint w s
  | .enctxt sel => Sys2Proof.Machine.execEnctxt sel s
  | .dectxt sel => Sys2Proof.Machine.execDectxt sel s
  | .bqclr => Sys2Proof.Machine.execBqclr s
  | .embed => Sys2Proof.Machine.execEmbed s
  | .extract => Sys2Proof.Machine.execExtract s

end Sys2Proof.Machine
end

