-- ==== Sys2Proof/Machine/HostPort.lean ====
section
/-! DEFINITION. The host's transactions (44_control_and_host.md R190 to R196): register and buffer accesses, the
host's moves on its grid store, command issue and the reset event. -/

namespace Sys2Proof.Machine

/-- Command issue (R194): decode the word, then run the command or report the illegal word. -/
def issue (x : BitVec 32) (s : State) : Result :=
  match decode x with
  | .cmd i => exec i s
  | .illegal c => endIllegal s (opOf x) c

/-- The value of a register (R190). CMD reads as 0 (R28), BQLEN as |BQ| (R33). -/
def Reg.read (r : Reg) (s : State) : Nat :=
  match r with
  | .cmd => 0
  | .status => s.status.toNat
  | .rows => s.rows.toNat
  | .cols => s.cols.toNat
  | .chans => s.chans.toNat
  | .plen => s.plen.toNat
  | .mlen => s.mlen.toNat
  | .ival => s.ival.toNat
  | .bqlen => s.bq.length
  | .bcur => s.bcur.toNat
  | .scurR => s.scurR.toNat
  | .scurC => s.scurC.toNat
  | .scurCh => s.scurCh.toNat

/-- A register write (R191): an operand register takes the value, CMD executes it as a command, a write of a read-only
register is ignored. -/
def Reg.write (r : Reg) (v : Nat) (s : State) : Result :=
  match r with
  | .cmd => issue (BitVec.ofNat 32 v) s
  | .status => .next s
  | .rows => .next { s with rows := BitVec.ofNat 16 v }
  | .cols => .next { s with cols := BitVec.ofNat 16 v }
  | .chans => .next { s with chans := BitVec.ofNat 8 v }
  | .plen => .next { s with plen := BitVec.ofNat 16 v }
  | .mlen => .next { s with mlen := BitVec.ofNat 32 v }
  | .ival => .next { s with ival := BitVec.ofNat 32 v }
  | .bqlen => .next s
  | .bcur => .next s
  | .scurR => .next s
  | .scurC => .next s
  | .scurCh => .next s

/-- `RegRead(n)` (R190, R196). -/
def regRead (n : BitVec 4) (s : State) : Result :=
  match Reg.ofNumber n with
  | none => .refused (.reservedRegister n)
  | some r => .next (s.record (r.read s))

/-- `RegWrite(n, v)` (R191, R196). -/
def regWrite (n : BitVec 4) (v : Nat) (s : State) : Result :=
  match Reg.ofNumber n with
  | none => .refused (.reservedRegister n)
  | some r => if r.carries v then r.write v s else .refused (.valueTooWide r v)

/-- `BufRead` (R192). -/
def bufRead (sel : BufSel) (i : Nat) (s : State) : Result :=
  if i < bufSize sel then .next (s.record (s.bufByte sel i).toNat) else .refused (.bufferIndex sel i)

/-- `BufWrite` (R192). -/
def bufWrite (sel : BufSel) (i : Nat) (b : Byte) (s : State) : Result :=
  if i < bufSize sel then .next (s.setBuf sel ((s.buf sel).set i b)) else .refused (.bufferIndex sel i)

/-- `GridRead(k)` (R193). -/
def gridRead (k : Nat) (s : State) : Result :=
  if k < s.params.gridCap then .next (s.record (s.sample k).toNat) else .refused (.gridIndex k)

/-- `GridWrite(k, x)` (R193). -/
def gridWrite (k : Nat) (x : Byte) (s : State) : Result :=
  if k < s.params.gridCap then .next (s.setSample k x) else .refused (.gridIndex k)

/-- One transaction of the host, or the reset event. -/
def perform (op : HostOp) (s : State) : Result :=
  match op with
  | .regRead n => regRead n s
  | .regWrite n v => regWrite n v s
  | .bufRead sel i => bufRead sel i s
  | .bufWrite sel i b => bufWrite sel i b s
  | .gridRead k => gridRead k s
  | .gridWrite k x => gridWrite k x s
  | .reset => .next s.applyReset

/-- Take the next transaction of the script and perform it; with none left LSBC "stays idle" (R40, R199). -/
def performNext (s : State) : Result :=
  match s.pending with
  | [] => .next s
  | op :: rest => perform op { s with pending := rest }

end Sys2Proof.Machine
end

