-- ==== Sys2Proof/Machine/Step.lean ====
section
/-! DEFINITION. One step of the machine: the next transaction of the host script, performed whole ("one at a time in
script order", 20_memory.md R72; a command is one atomic transition, 00_scope.md R8). -/

namespace Sys2Proof.Machine

/-- One step: perform the next transaction. -/
def step (s : State) : Host.Outcome State Fault Refusal := performNext s

/-- The state whose next transaction is the write of the word to CMD. LSBC fetches no instruction (R74): "A command word
is taken from the value written to CMD at the moment of the write", so the word is placed at the head of the host script
(log entry 3). -/
def State.withFetchWord (s : State) (nbits w : Nat) : State :=
  { s with pending := .regWrite 0#4 (w % 2 ^ nbits) :: s.pending }

end Sys2Proof.Machine
end

