-- ==== Sys2Proof/Machine/Script.lean ====
section
/-! DEFINITION. The host-script notation: its lines are the constructors of `HostOp`, its pseudo-operations expand to
lists of them (30_encoding.md R101, R102). -/

namespace Sys2Proof.Machine

namespace Script

/-- `wr REG, v`. -/
def wr (r : Reg) (v : Nat) : HostOp := .regWrite r.number v

/-- `rd REG`. -/
def rd (r : Reg) : HostOp := .regRead r.number

/-- `cmd MNEMONIC [arg]`: write the command's word to CMD. -/
def cmd (i : Instr) : HostOp := wr .cmd (encode i).toNat

/-- `dims R, C, CH`. -/
def dims (r c ch : Nat) : List HostOp := [wr .rows r, wr .cols c, wr .chans ch]

/-- `wb` for consecutive bytes from an index on. -/
def bytesFrom (sel : BufSel) : Nat → List Byte → List HostOp
  | _, [] => []
  | i, b :: bs => .bufWrite sel i b :: bytesFrom sel (i + 1) bs

/-- The length register of a buffer. -/
def lenReg : BufSel → Reg
  | .pass => .plen
  | .msg => .mlen

/-- `ldp "text"` and `ldm "text"` on the byte codes of the text. -/
def load (sel : BufSel) (t : List Byte) : List HostOp := bytesFrom sel 0 t ++ [wr (lenReg sel) t.length]

/-- `fill f` for a grid of n samples. -/
def fill (n : Nat) (f : Nat → Byte) : List HostOp := (List.range n).map fun k => .gridWrite k (f k)

/-- `expect OUTCOME`: a read of STATUS. -/
def expect : HostOp := rd .status

end Script

/-- The state with a script placed before whatever is still pending (R199). -/
def State.withScript (s : State) (script : List HostOp) : State := { s with pending := script ++ s.pending }

/-- Perform a list of transactions in order (R72 (c), R199), stopping where one has no meaning. -/
def performAll : List HostOp → State → Result
  | [], s => .next s
  | op :: ops, s =>
    match perform op s with
    | .next t => performAll ops t
    | .fault r => .fault r
    | .refused r => .refused r

end Sys2Proof.Machine
end

