-- ==== Sys2Proof/Machine/Sequencer.lean ====
section
/-! DEFINITION. The two small-step sequencers, one sample per step: 42_embed.md R156 and 43_extract.md R177. They are
refinements of the big-step commands; `exec` does not use them (00_scope.md R10). -/

namespace Sys2Proof.Machine

namespace State

/-- Advance both cursors by one sample (R35, R156). -/
def advance (s : State) : State :=
  let ch := s.scurCh.toNat + 1
  let c := s.scurC.toNat + 1
  if ch = s.chans.toNat then
    if c = s.cols.toNat then
      { s with bcur := s.bcur + 1#40, scurCh := 0#8, scurC := 0#16, scurR := s.scurR + 1#16 }
    else { s with bcur := s.bcur + 1#40, scurCh := 0#8, scurC := s.scurC + 1#16 }
  else { s with bcur := s.bcur + 1#40, scurCh := s.scurCh + 1#8 }

/-- Both cursors to 0, at the start of EMBED and EXTRACT (R34 (a), R35). -/
def zeroCursors (s : State) : State := { s with bcur := 0#40, scurR := 0#16, scurC := 0#16, scurCh := 0#8 }

/-- The sample under the sample cursor (R156). -/
def cursorSample (s : State) : Byte :=
  s.sample (linearIndex s.cols.toNat s.chans.toNat s.scurR.toNat s.scurC.toNat s.scurCh.toNat)

/-- `CB[k]` of the container the registers and buffers hold, on demand (R91). -/
def containerBitAt (s : State) (k : Nat) : Bit :=
  containerBit s.plen (s.bufByte .pass) s.mlen (s.bufByte .msg) k

end State

/-- One step of EMBED's sequencer (R156). -/
def embedSeqStep (s : State) : State :=
  (s.setSample s.bcur.toNat (setLsb s.cursorSample (s.containerBitAt s.bcur.toNat))).advance

/-- EMBED's sequencer steps "enabled while BCUR < L", at most `fuel` of them (R156). -/
def embedSeqLoop : Nat → State → State
  | 0, s => s
  | fuel + 1, s => if s.bcur.toNat < s.containerLength then embedSeqLoop fuel (embedSeqStep s) else s

/-- EMBED by its sequencer: the checks of R151, then steps until the sequencer is disabled (R156, R157). -/
def embedBySequencer (s : State) : Result :=
  if s.params.gridCap < s.numSamples then .refused .gridBeyondStore
  else
    match embedCheck s with
    | .ok => endWith (embedSeqLoop s.containerLength s.zeroCursors) opEmbed .ok
    | o => endWith s.zeroCursors opEmbed o

/-- EXTRACT's sequencer between two steps: the state and the local variables of R177, "not architectural" (R38);
`ended` says that the command has ended. -/
structure ExtractSeq where
  st : State
  field : Field
  left : Nat
  acc : Nat
  cnt : Nat
  idx : Nat
  ended : Bool
  deriving DecidableEq, Repr

/-- The command has ended with an outcome. -/
def seqEnd (s : State) (f : Field) (o : CmdOutcome) : ExtractSeq :=
  { st := s.finish opExtract o, field := f, left := 0, acc := 0, cnt := 0, idx := 0, ended := true }

/-- A field of n > 0 bits has been entered. -/
def seqField (s : State) (f : Field) (n : Nat) : ExtractSeq :=
  { st := s, field := f, left := n, acc := 0, cnt := 0, idx := 0, ended := false }

/-- `enter(MSG, n)`; a field of no bits is finished at once (R177). -/
def enterMsg (n : Nat) (s : State) : ExtractSeq :=
  if s.numSamples < s.bcur.toNat + n then seqEnd s .msg (.truncated .msg)
  else if n = 0 then seqEnd s .msg .ok
  else seqField s .msg n

/-- `enter(MSGLEN, 32)` (R177). -/
def enterMsglen (s : State) : ExtractSeq :=
  if s.numSamples < s.bcur.toNat + 32 then seqEnd s .msglen (.truncated .msglen) else seqField s .msglen 32

/-- `enter(PASS, n)`; a field of no bits is finished at once, and finish(PASS) is enter(MSGLEN, 32) (R177). -/
def enterPass (n : Nat) (s : State) : ExtractSeq :=
  if s.numSamples < s.bcur.toNat + n then seqEnd s .pass (.truncated .pass)
  else if n = 0 then enterMsglen s
  else seqField s .pass n

/-- `enter(PASSLEN, 16)` (R177). -/
def enterPasslen (s : State) : ExtractSeq :=
  if s.numSamples < s.bcur.toNat + 16 then seqEnd s .passlen (.truncated .passlen) else seqField s .passlen 16

/-- `finish(f)` with the accumulator's value (R177). -/
def seqFinish (f : Field) (acc : Nat) (s : State) : ExtractSeq :=
  match f with
  | .passlen => enterPass (8 * acc) { s with plen := BitVec.ofNat 16 acc }
  | .pass => enterMsglen s
  | .msglen => enterMsg (8 * acc) { s with mlen := BitVec.ofNat 32 acc }
  | .msg => seqEnd s .msg .ok

/-- The buffer a field's text goes to; the two length fields have none (R177). -/
def fieldBuf : Field → Option BufSel
  | .passlen => none
  | .pass => some .pass
  | .msglen => none
  | .msg => some .msg

/-- After a bit has been shifted in: a text field's byte is written "as soon as its eighth bit has been read"
(R177, R178). -/
def seqStoreByte (q : ExtractSeq) : ExtractSeq :=
  match fieldBuf q.field with
  | none => q
  | some sel =>
    if q.cnt = 8 then
      { q with
        st := q.st.setBuf sel ((q.st.buf sel).set q.idx (BitVec.ofNat 8 q.acc))
        idx := q.idx + 1
        acc := 0
        cnt := 0 }
    else q

/-- A field whose last bit has been read is finished (R177). -/
def seqEndField (q : ExtractSeq) : ExtractSeq := if q.left = 0 then seqFinish q.field q.acc q.st else q

/-- One step of EXTRACT's sequencer (R177). -/
def extractSeqStep (q : ExtractSeq) : ExtractSeq :=
  seqEndField (seqStoreByte { q with
    st := q.st.advance
    acc := 2 * q.acc + (q.st.cursorSample.getLsbD 0).toNat
    cnt := q.cnt + 1
    left := q.left - 1 })

/-- EXTRACT's sequencer steps until the command ends, at most `fuel` of them. -/
def extractSeqLoop : Nat → ExtractSeq → ExtractSeq
  | 0, q => q
  | fuel + 1, q => if q.ended then q else extractSeqLoop fuel (extractSeqStep q)

/-- EXTRACT by its sequencer. It takes one step per sample read, so at most N (R177, R178). -/
def extractBySequencer (s : State) : Result :=
  if s.params.gridCap < s.numSamples then .refused .gridBeyondStore
  else .next (extractSeqLoop s.numSamples (enterPasslen s.zeroCursors)).st

end Sys2Proof.Machine
end

