-- ==== Sys2Proof/Safety.lean ====
section
/-! DEFINITION. The terms claims are stated in: the outcomes each command may end with, the invariant every step keeps,
the cursor invariant, the launch states, and which transactions the spec gives a meaning. -/

namespace Sys2Proof.Machine

/-- The outcomes each command can end with (60_exceptions.md R214). -/
def outcomesOf : Instr → List CmdOutcome
  | .nop => [.ok]
  | .encint _ => [.ok, .rangeError, .overflow]
  | .decint _ => [.ok, .underflow]
  | .enctxt _ => [.ok, .overflow]
  | .dectxt _ => [.ok, .underflow]
  | .bqclr => [.ok]
  | .embed => [.ok, .emptyPasscode, .emptyMessage, .capacityError]
  | .extract => [.ok, .truncated .passlen, .truncated .pass, .truncated .msglen, .truncated .msg]

/-- A status word some command word can leave, reset's 0 (NOP's) among them (R211, R214). -/
def StatusReachable (st : BitVec 32) : Prop :=
  (∃ i : Instr, ∃ o ∈ outcomesOf i, st = statusWord i.op o) ∨
    ∃ (low : BitVec 8) (c : IllegalCause), st = statusWord low (.illegal c)

/-- What holds of the state after reset and after every transaction: the parameters meet R7, every memory is in
canonical form and inside its address space (R61), the queue is within its capacity (R32), and STATUS holds a value a
command can leave (R29). -/
structure State.Inv (s : State) : Prop where
  params_wf : s.params.wf = true
  pbuf_wf : s.pbuf.wf
  pbuf_below : s.pbuf.below Config.pbufSize
  mbuf_wf : s.mbuf.wf
  mbuf_below : s.mbuf.below Config.mbufSize
  grid_wf : s.grid.wf
  grid_below : s.grid.below s.params.gridCap
  bq_within : s.bq.length ≤ s.params.bqCap
  status_reachable : StatusReachable s.status

/-- The cursor invariant (10_state.md R36) for the dimensions the state holds. -/
def State.CursorInv (s : State) : Prop :=
  if s.numSamples = 0 then s.bcur = 0#40 ∧ s.scurR = 0#16 ∧ s.scurC = 0#16 ∧ s.scurCh = 0#8
  else
    s.bcur.toNat = linearIndex s.cols.toNat s.chans.toNat s.scurR.toNat s.scurC.toNat s.scurCh.toNat ∧
      s.scurC.toNat < s.cols.toNat ∧ s.scurCh.toNat < s.chans.toNat ∧ s.scurR.toNat ≤ s.rows.toNat ∧
      (s.scurR.toNat = s.rows.toNat ↔ s.bcur.toNat = s.numSamples) ∧
      (s.bcur.toNat = s.numSamples → s.scurC = 0#16 ∧ s.scurCh = 0#8)

/-- Both cursors stand at position k of the traversal (R34, R35, R63). -/
def State.CursorAt (s : State) (k : Nat) : Prop :=
  s.bcur.toNat = k ∧
    (s.scurR.toNat, s.scurC.toNat, s.scurCh.toNat) = coords s.cols.toNat s.chans.toNat k

/-- The state with the cursors of another state. -/
def State.withCursorsOf (t s : State) : State :=
  { t with bcur := s.bcur, scurR := s.scurR, scurC := s.scurC, scurCh := s.scurCh }

/-- The value of w container bits from position k on, `Σ bit(k+i) · 2^(w-1-i)` (30_encoding.md R93). -/
def State.fieldValue (s : State) (k w : Nat) : Nat :=
  ∑ i ∈ Finset.range w, (s.lsb (k + i)).toNat * 2 ^ (w - 1 - i)

/-- The grid's LSBs from sample 0 on carry a bit sequence (R155 (a)). -/
def State.carriesBits (s : State) (bits : Bits) : Prop := ∀ k (h : k < bits.length), s.lsb k = bits[k]

/-- A state right after the reset event (R40): every register at its reset value and BQ empty, with ANY contents of
the three memories. -/
structure State.Launch (s : State) : Prop where
  status_zero : s.status = 0#32
  dims_zero : s.rows = 0#16 ∧ s.cols = 0#16 ∧ s.chans = 0#8
  lens_zero : s.plen = 0#16 ∧ s.mlen = 0#32
  ival_zero : s.ival = 0#32
  cursors_zero : s.bcur = 0#40 ∧ s.scurR = 0#16 ∧ s.scurC = 0#16 ∧ s.scurCh = 0#8
  bq_empty : s.bq = []

/-- The command works on the grid (R41). -/
def usesGrid : Instr → Bool
  | .nop => false
  | .encint _ => false
  | .decint _ => false
  | .enctxt _ => false
  | .dectxt _ => false
  | .bqclr => false
  | .embed => true
  | .extract => true

/-- The grid the dimension registers describe exists: N ≤ GRID_CAP, the host's duty (R60, R246). -/
def State.gridFits (s : State) : Bool := decide (s.numSamples ≤ s.params.gridCap)

/-- A write of the word to CMD has a meaning (U14). -/
def wordAllowed (x : BitVec 32) (s : State) : Bool :=
  match decode x with
  | .illegal _ => true
  | .cmd i => !usesGrid i || s.gridFits

/-- The transaction has a meaning: the ranges of R190 to R193 and R196, and a grid that exists where the command uses
it. -/
def HostOp.allowed (op : HostOp) (s : State) : Bool :=
  match op with
  | .regRead n => decide (n.toNat ≤ 12)
  | .regWrite n v =>
    match Reg.ofNumber n with
    | none => false
    | some .cmd => decide (v < 2 ^ 32) && wordAllowed (BitVec.ofNat 32 v) s
    | some r => r.carries v
  | .bufRead sel i => decide (i < bufSize sel)
  | .bufWrite sel i _ => decide (i < bufSize sel)
  | .gridRead k => decide (k < s.params.gridCap)
  | .gridWrite k _ => decide (k < s.params.gridCap)
  | .reset => true

end Sys2Proof.Machine
end

