-- ==== Sys2Proof/Certificates/Slice0/Obligations.lean ====
section
/-! DEFINITION. The statements for the provers. Numerals are the spec's own: STATUS values are those of 60_exceptions.md
R211, words those of 30_encoding.md R96. -/

open Sys2Proof Sys2Proof.Machine

/-! ### Encodings -/

/-- R96: every command's word decodes to the command. -/
def Obligations.CommandWordsDecode : Prop :=
  decode 0x00000000#32 = .cmd .nop ∧
  (∀ w : Nat, 1 ≤ w → w ≤ 32 → decode (BitVec.ofNat 32 (0x00000001 + w * 2 ^ 8)) = .cmd (.encint (BitVec.ofNat 8 w))) ∧
  (∀ w : Nat, 1 ≤ w → w ≤ 32 → decode (BitVec.ofNat 32 (0x00000002 + w * 2 ^ 8)) = .cmd (.decint (BitVec.ofNat 8 w))) ∧
  decode 0x00000003#32 = .cmd (.enctxt .pass) ∧ decode 0x00000103#32 = .cmd (.enctxt .msg) ∧
  decode 0x00000004#32 = .cmd (.dectxt .pass) ∧ decode 0x00000104#32 = .cmd (.dectxt .msg) ∧
  decode 0x00000005#32 = .cmd .bqclr ∧
  decode 0x00000010#32 = .cmd .embed ∧
  decode 0x00000011#32 = .cmd .extract

/-- R96, R98: decoding the word of a well-formed command gives it back, with every operand at every legal value. -/
def Obligations.DecodeOfEncode : Prop :=
  ∀ i : Instr, i.wf = true → decode (encode i) = .cmd i

/-- R97: each legal word has one meaning, and it is the encoding of that well-formed command. -/
def Obligations.EncodeOfDecode : Prop :=
  ∀ (x : BitVec 32) (i : Instr), decode x = .cmd i → i.wf = true ∧ encode i = x

/-- R97 whole: the three tests in their order, the commands of the words that pass them, and the count of legal words. -/
def Obligations.DecoderTestsInOrder : Prop :=
  (∀ x : BitVec 32, ∀ op arg rsv : Nat,
    op = x.toNat % 256 → arg = x.toNat / 256 % 256 → rsv = x.toNat / 65536 →
      (op ∉ [0x00, 0x01, 0x02, 0x03, 0x04, 0x05, 0x10, 0x11] → decode x = .illegal .reservedOpcode) ∧
      (op ∈ [0x00, 0x01, 0x02, 0x03, 0x04, 0x05, 0x10, 0x11] → rsv ≠ 0 → decode x = .illegal .reservedBits) ∧
      (op ∈ [0x01, 0x02] → rsv = 0 → ¬ (1 ≤ arg ∧ arg ≤ 32) → decode x = .illegal .badOperand) ∧
      (op ∈ [0x03, 0x04] → rsv = 0 → 1 < arg → decode x = .illegal .badOperand) ∧
      (op ∈ [0x00, 0x05, 0x10, 0x11] → rsv = 0 → arg ≠ 0 → decode x = .illegal .badOperand) ∧
      (op = 0x00 → rsv = 0 → arg = 0 → decode x = .cmd .nop) ∧
      (op = 0x01 → rsv = 0 → 1 ≤ arg → arg ≤ 32 → decode x = .cmd (.encint (BitVec.ofNat 8 arg))) ∧
      (op = 0x02 → rsv = 0 → 1 ≤ arg → arg ≤ 32 → decode x = .cmd (.decint (BitVec.ofNat 8 arg))) ∧
      (op = 0x03 → rsv = 0 → arg = 0 → decode x = .cmd (.enctxt .pass)) ∧
      (op = 0x03 → rsv = 0 → arg = 1 → decode x = .cmd (.enctxt .msg)) ∧
      (op = 0x04 → rsv = 0 → arg = 0 → decode x = .cmd (.dectxt .pass)) ∧
      (op = 0x04 → rsv = 0 → arg = 1 → decode x = .cmd (.dectxt .msg)) ∧
      (op = 0x05 → rsv = 0 → arg = 0 → decode x = .cmd .bqclr) ∧
      (op = 0x10 → rsv = 0 → arg = 0 → decode x = .cmd .embed) ∧
      (op = 0x11 → rsv = 0 → arg = 0 → decode x = .cmd .extract)) ∧
  ∃ legal : List (BitVec 32), legal.Nodup ∧ legal.length = 72 ∧ ∀ x, x ∈ legal ↔ ∃ i, decode x = .cmd i

/-- R221 whole: which words are illegal, with which sub-cause by the first test that fails, and that only STATUS
changes, LASTOP taking the word's low byte. -/
def Obligations.IllegalWordChangesOnlyStatus : Prop :=
  ∀ (x : BitVec 32) (s : State) (op arg rsv : Nat),
    op = x.toNat % 256 → arg = x.toNat / 256 % 256 → rsv = x.toNat / 65536 →
      (op ∉ [0x00, 0x01, 0x02, 0x03, 0x04, 0x05, 0x10, 0x11] →
        issue x s = .next { s with status := BitVec.ofNat 32 (op * 256 + 0x16) }) ∧
      (op ∈ [0x00, 0x01, 0x02, 0x03, 0x04, 0x05, 0x10, 0x11] → rsv ≠ 0 →
        issue x s = .next { s with status := BitVec.ofNat 32 (op * 256 + 0x26) }) ∧
      (op ∈ [0x01, 0x02] → rsv = 0 → ¬ (1 ≤ arg ∧ arg ≤ 32) →
        issue x s = .next { s with status := BitVec.ofNat 32 (op * 256 + 0x36) }) ∧
      (op ∈ [0x03, 0x04] → rsv = 0 → 1 < arg →
        issue x s = .next { s with status := BitVec.ofNat 32 (op * 256 + 0x36) }) ∧
      (op ∈ [0x00, 0x05, 0x10, 0x11] → rsv = 0 → arg ≠ 0 →
        issue x s = .next { s with status := BitVec.ofNat 32 (op * 256 + 0x36) })

/-! ### The functions of the Bit Codec -/

/-- R120: position i of `encode_int(value, width)` is register bit width-1-i; outside the domain there is no value. -/
def Obligations.EncodeIntBits : Prop :=
  ∀ value width : Nat,
    (value < 2 ^ width → ∃ bits, encodeInt value width = some bits ∧ bits.length = width ∧
      ∀ i < width, bits[i]? = some (decide (value / 2 ^ (width - 1 - i) % 2 = 1))) ∧
    (2 ^ width ≤ value → encodeInt value width = none)

/-- R121: `decode_int` is the sum of the bits at their weights, the first bit the heaviest, below 2^n; bit by bit it is
`v <- 2·v + b` from 0. -/
def Obligations.DecodeIntWeighsBits : Prop :=
  (∀ bits : Bits,
    decodeInt bits = ∑ i ∈ Finset.range bits.length, (bits.getD i false).toNat * 2 ^ (bits.length - 1 - i) ∧
    decodeInt bits < 2 ^ bits.length) ∧
  decodeInt [] = 0 ∧
  ∀ (bits : Bits) (b : Bit), decodeInt (bits ++ [b]) = 2 * decodeInt bits + b.toNat

/-- R122: `encode_text` is the concatenation of the characters' 8-bit codes, in order. -/
def Obligations.EncodeTextConcatenates : Prop :=
  encodeText [] = [] ∧
  (∀ (c : Byte) (s : List Byte), ∃ bits, encodeInt c.toNat 8 = some bits ∧
    encodeText (c :: s) = bits ++ encodeText s) ∧
  ∀ s : List Byte, (encodeText s).length = 8 * s.length

/-- R123: `decode_text` decodes each consecutive group of 8 bits and is the inverse of `encode_text`. R123 calls a
length that is no multiple of 8 not well-formed input; that the function answers none there is the model's reading
(DEDUCED, log entry 13). -/
def Obligations.DecodeTextGroups : Prop :=
  (∀ bits : Bits,
    (∀ n, bits.length = 8 * n → ∃ cs, decodeText bits = some cs ∧ cs.length = n ∧
      ∀ i < n, ∃ c, cs[i]? = some c ∧ c.toNat = decodeInt ((bits.drop (8 * i)).take 8)) ∧
    (bits.length % 8 ≠ 0 → decodeText bits = none)) ∧
  ∀ cs : List Byte, decodeText (encodeText cs) = some cs

/-- R129, the functions: both pairs are mutually inverse, and `encode_int` keeps the order of values. -/
def Obligations.CodecFunctionsInverse : Prop :=
  (∀ v w : Nat, v < 2 ^ w → ∃ bits, encodeInt v w = some bits ∧ decodeInt bits = v) ∧
  (∀ bits : Bits, encodeInt (decodeInt bits) bits.length = some bits) ∧
  (∀ s : List Byte, decodeText (encodeText s) = some s) ∧
  (∀ (bits : Bits) (cs : List Byte), decodeText bits = some cs → encodeText cs = bits) ∧
  ∀ (w v v' : Nat) (bits bits' : Bits), encodeInt v w = some bits → encodeInt v' w = some bits' →
    (v < v' ↔ List.Lex (fun a b => a = false ∧ b = true) bits bits')

/-- R91: the container bit by bit, and LSBC's own container is that of the bytes PBUF[0..PLEN) and MBUF[0..MLEN). -/
def Obligations.ContainerBitByBit : Prop :=
  (∀ p m : List Byte, p.length ≤ 65535 → m.length ≤ 4294967295 →
    ∃ cb, containerOf p m = some cb ∧ cb.length = 48 + 8 * p.length + 8 * m.length ∧
      (∀ pl ml, encodeInt p.length 16 = some pl → encodeInt m.length 32 = some ml →
        cb = pl ++ encodeText p ++ ml ++ encodeText m) ∧
      (∀ k < 16, cb[k]? = some (p.length.testBit (15 - k))) ∧
      (∀ j < 8 * p.length, cb[16 + j]? = p[j / 8]?.map fun c => c.toNat.testBit (7 - j % 8)) ∧
      (∀ j < 32, cb[16 + 8 * p.length + j]? = some (m.length.testBit (31 - j))) ∧
      (∀ j < 8 * m.length, cb[48 + 8 * p.length + j]? = m[j / 8]?.map fun c => c.toNat.testBit (7 - j % 8))) ∧
  ∀ s : State,
    (s.text .pass).length = s.plen.toNat ∧ (∀ i < s.plen.toNat, (s.text .pass)[i]? = some (s.bufByte .pass i)) ∧
    (s.text .msg).length = s.mlen.toNat ∧ (∀ i < s.mlen.toNat, (s.text .msg)[i]? = some (s.bufByte .msg i)) ∧
    containerOf (s.text .pass) (s.text .msg) = some s.container

/-! ### The codec commands and NOP -/

/-- R197: NOP, the word 0, brings STATUS to 0 and changes nothing else; besides reset it is the only transaction that
brings STATUS back to 0. -/
def Obligations.NopChangesOnlyStatus : Prop :=
  decode 0x00000000#32 = .cmd .nop ∧
  (∀ s : State, exec .nop s = .next { s with status := 0x00000000#32 }) ∧
  ∀ (op : HostOp) (s t : State), perform op s = .next t → s.status ≠ 0x00000000#32 → t.status = 0x00000000#32 →
    op = .reset ∨ op = .regWrite 0#4 0x00000000

/-- R124: ENCINT appends `encode_int(IVAL, w)`; RangeError before Overflow, and then nothing but STATUS changes. -/
def Obligations.EncintAppendsInteger : Prop :=
  (∀ (s : State) (w : BitVec 8), 1 ≤ w.toNat → w.toNat ≤ 32 →
    (2 ^ w.toNat ≤ s.ival.toNat → exec (.encint w) s = .next { s with status := 0x00000104#32 }) ∧
    (s.ival.toNat < 2 ^ w.toNat → s.params.bqCap < s.bq.length + w.toNat →
      exec (.encint w) s = .next { s with status := 0x00000115#32 }) ∧
    (s.ival.toNat < 2 ^ w.toNat → s.bq.length + w.toNat ≤ s.params.bqCap →
      ∃ bits, encodeInt s.ival.toNat w.toNat = some bits ∧
        exec (.encint w) s = .next { s with bq := s.bq ++ bits, status := 0x00000100#32 })) ∧
  ∀ w : BitVec 8,
    (1 ≤ w.toNat ∧ w.toNat ≤ 32 → decode (BitVec.ofNat 32 (0x00000001 + w.toNat * 2 ^ 8)) = .cmd (.encint w)) ∧
    (¬ (1 ≤ w.toNat ∧ w.toNat ≤ 32) →
      decode (BitVec.ofNat 32 (0x00000001 + w.toNat * 2 ^ 8)) = .illegal .badOperand)

/-- R125: DECINT removes w bits from the head of BQ and puts their value, zero-extended, into IVAL. -/
def Obligations.DecintRemovesInteger : Prop :=
  (∀ (s : State) (w : BitVec 8), 1 ≤ w.toNat → w.toNat ≤ 32 →
    (s.bq.length < w.toNat → exec (.decint w) s = .next { s with status := 0x00000225#32 }) ∧
    (w.toNat ≤ s.bq.length → ∃ v : BitVec 32, v.toNat = decodeInt (s.bq.take w.toNat) ∧ v.toNat < 2 ^ w.toNat ∧
      exec (.decint w) s = .next { s with bq := s.bq.drop w.toNat, ival := v, status := 0x00000200#32 })) ∧
  ∀ w : BitVec 8,
    (1 ≤ w.toNat ∧ w.toNat ≤ 32 → decode (BitVec.ofNat 32 (0x00000002 + w.toNat * 2 ^ 8)) = .cmd (.decint w)) ∧
    (¬ (1 ≤ w.toNat ∧ w.toNat ≤ 32) →
      decode (BitVec.ofNat 32 (0x00000002 + w.toNat * 2 ^ 8)) = .illegal .badOperand)

/-- R126: ENCTXT appends the selected text; on Overflow nothing is appended. No emptiness check. -/
def Obligations.EnctxtAppendsText : Prop :=
  decode 0x00000003#32 = .cmd (.enctxt .pass) ∧ decode 0x00000103#32 = .cmd (.enctxt .msg) ∧
  ∀ (s : State) (sel : BufSel),
    (s.params.bqCap < s.bq.length + 8 * s.len sel →
      exec (.enctxt sel) s = .next { s with status := 0x00000315#32 }) ∧
    (s.bq.length + 8 * s.len sel ≤ s.params.bqCap →
      exec (.enctxt sel) s = .next
        { s with bq := s.bq ++ encodeText ((List.range (s.len sel)).map (s.bufByte sel)), status := 0x00000300#32 })

/-- R127: DECTXT removes 8·LEN(sel) bits and writes the characters they decode to; every other byte, and everything
else, is as before. -/
def Obligations.DectxtWritesText : Prop :=
  decode 0x00000004#32 = .cmd (.dectxt .pass) ∧ decode 0x00000104#32 = .cmd (.dectxt .msg) ∧
  ∀ (s : State) (sel : BufSel),
    (s.bq.length < 8 * s.len sel → exec (.dectxt sel) s = .next { s with status := 0x00000425#32 }) ∧
    (8 * s.len sel ≤ s.bq.length → ∃ t, exec (.dectxt sel) s = .next t ∧
      t.status = 0x00000400#32 ∧ t.bq = s.bq.drop (8 * s.len sel) ∧
      (∀ i < s.len sel, (t.bufByte sel i).toNat = decodeInt ((s.bq.drop (8 * i)).take 8)) ∧
      (∀ i, s.len sel ≤ i → t.bufByte sel i = s.bufByte sel i) ∧
      { t with status := s.status, bq := s.bq }.setBuf sel (s.buf sel) = s)

/-- R128: BQCLR empties BQ and changes nothing else but STATUS. -/
def Obligations.BqclrEmptiesQueue : Prop :=
  decode 0x00000005#32 = .cmd .bqclr ∧
  ∀ s : State, exec .bqclr s = .next { s with bq := [], status := 0x00000500#32 }

/-- R129, the commands: ENCINT then DECINT of the same width on an empty queue leaves IVAL and the queue as they were,
ENCTXT then DECTXT the buffer and the queue. -/
def Obligations.CodecCommandsInverse : Prop :=
  (∀ (s : State) (w : BitVec 8), 1 ≤ w.toNat → w.toNat ≤ 32 → s.bq = [] → w.toNat ≤ s.params.bqCap →
    s.ival.toNat < 2 ^ w.toNat → ∃ t, exec (.encint w) s = .next t ∧ t.status = 0x00000100#32 ∧
      exec (.decint w) t = .next { s with status := 0x00000200#32 }) ∧
  ∀ (s : State) (sel : BufSel), s.bq = [] → 8 * s.len sel ≤ s.params.bqCap →
    ∃ t u, exec (.enctxt sel) s = .next t ∧ t.status = 0x00000300#32 ∧ exec (.dectxt sel) t = .next u ∧
      u.status = 0x00000400#32 ∧ u.bq = [] ∧ ∀ i, u.bufByte sel i = s.bufByte sel i

/-- R130, first half: the codec script builds the container in an empty queue with room for it. -/
def Obligations.CodecCommandsBuildContainer : Prop :=
  ∀ s : State, s.bq = [] → s.containerLength ≤ s.params.bqCap →
    ∃ t cb, performAll [Script.wr .ival s.plen.toNat, Script.cmd (.encint 16#8), Script.cmd (.enctxt .pass),
        Script.wr .ival s.mlen.toNat, Script.cmd (.encint 32#8), Script.cmd (.enctxt .msg)] s = .next t ∧
      containerOf (s.text .pass) (s.text .msg) = some cb ∧ t.bq = cb ∧ t.status = 0x00000300#32

/-- R130, second half: the codec script takes a container at the head of the queue apart. -/
def Obligations.CodecCommandsTakeContainerApart : Prop :=
  ∀ (s : State) (p m : List Byte) (cb rest : Bits), p.length ≤ 65535 → m.length ≤ 4294967295 →
    containerOf p m = some cb → s.bq = cb ++ rest →
    ∃ t₁ t₂ t₃, performAll [Script.cmd (.decint 16#8)] s = .next t₁ ∧ t₁.ival.toNat = p.length ∧
      performAll [Script.wr .plen t₁.ival.toNat, Script.cmd (.dectxt .pass), Script.cmd (.decint 32#8)] t₁ = .next t₂ ∧
      t₂.ival.toNat = m.length ∧
      performAll [Script.wr .mlen t₂.ival.toNat, Script.cmd (.dectxt .msg)] t₂ = .next t₃ ∧
      t₃.text .pass = p ∧ t₃.text .msg = m ∧ t₃.bq = rest ∧ t₃.status = 0x00000400#32

/-! ### EMBED -/

/-- R151 to R154: EMBED. The three checks in their order, before any sample is touched: on a failed one the cursors are
0 and nothing else but STATUS changes, the grid among it. A container that fits is written, bit k into the LSB of sample
k: the upper seven bits of those samples are as before, so that an even sample stays or goes up by 1 and an odd one
stays or goes down by 1; every sample from L on, and everything but the cursors and STATUS, is as before. -/
def Obligations.EmbedWritesContainer : Prop :=
  decode 0x00000010#32 = .cmd .embed ∧
  ∀ s : State, s.numSamples ≤ s.params.gridCap →
    (s.plen.toNat = 0 →
      exec .embed s = .next { s.zeroCursors with status := 0x00001011#32 }) ∧
    (s.plen.toNat ≠ 0 → s.mlen.toNat = 0 →
      exec .embed s = .next { s.zeroCursors with status := 0x00001021#32 }) ∧
    (s.plen.toNat ≠ 0 → s.mlen.toNat ≠ 0 →
      s.rows.toNat * s.cols.toNat * s.chans.toNat < 16 + 8 * s.plen.toNat + 32 + 8 * s.mlen.toNat →
      exec .embed s = .next { s.zeroCursors with status := 0x00001002#32 }) ∧
    (s.plen.toNat ≠ 0 → s.mlen.toNat ≠ 0 →
      16 + 8 * s.plen.toNat + 32 + 8 * s.mlen.toNat ≤ s.rows.toNat * s.cols.toNat * s.chans.toNat →
      ∃ t cb, exec .embed s = .next t ∧
        containerOf (s.text .pass) (s.text .msg) = some cb ∧
        cb.length = 16 + 8 * s.plen.toNat + 32 + 8 * s.mlen.toNat ∧
        (∀ k (h : k < cb.length), t.lsb k = cb[k] ∧ (t.sample k).toNat / 2 = (s.sample k).toNat / 2 ∧
          ((s.sample k).toNat % 2 = 0 →
            (t.sample k).toNat = (s.sample k).toNat ∨ (t.sample k).toNat = (s.sample k).toNat + 1) ∧
          ((s.sample k).toNat % 2 = 1 →
            (t.sample k).toNat = (s.sample k).toNat ∨ (t.sample k).toNat + 1 = (s.sample k).toNat)) ∧
        (∀ k, cb.length ≤ k → t.sample k = s.sample k) ∧
        t.CursorAt cb.length ∧ t.status = 0x00001000#32 ∧
        { t.withCursorsOf s with grid := s.grid, status := s.status } = s)

/-- R60, U14: with N > GRID_CAP the model refuses EMBED and EXTRACT. -/
def Obligations.GridBeyondStoreRefused : Prop :=
  ∀ s : State, s.params.gridCap < s.rows.toNat * s.cols.toNat * s.chans.toNat →
    exec .embed s = .refused .gridBeyondStore ∧ exec .extract s = .refused .gridBeyondStore

/-- R155 (b), the round trip: after an EMBED that ended OK, EXTRACT returns the passcode and the message, whatever has
become of the length registers, the buffers, IVAL and BQ in between, as long as the grid and the dimensions stand. -/
def Obligations.ExtractReturnsWhatEmbedWrote : Prop :=
  ∀ s t u : State, exec .embed s = .next t → t.status = 0x00001000#32 →
    u.params = t.params → u.rows = t.rows → u.cols = t.cols → u.chans = t.chans →
    (∀ k < t.numSamples, u.sample k = t.sample k) →
    ∃ v, exec .extract u = .next v ∧ v.status = 0x00001100#32 ∧ v.plen = s.plen ∧ v.mlen = s.mlen ∧
      (∀ i < s.plen.toNat, v.bufByte .pass i = s.bufByte .pass i) ∧
      (∀ i < s.mlen.toNat, v.bufByte .msg i = s.bufByte .msg i)

/-- R155 (c): the same EMBED issued again leaves the state as it is. -/
def Obligations.EmbedIsIdempotent : Prop :=
  ∀ s t : State, s.grid.wf → exec .embed s = .next t → exec .embed t = .next t

/-- R155 (d), R257: after a shorter container over a longer one, the samples between the two lengths keep what the first
EMBED left. -/
def Obligations.ShorterContainerLeavesStaleBits : Prop :=
  ∀ s t u v : State, exec .embed s = .next t → t.status = 0x00001000#32 →
    u.params = t.params → u.rows = t.rows → u.cols = t.cols → u.chans = t.chans →
    (∀ k, u.sample k = t.sample k) → exec .embed u = .next v → v.status = 0x00001000#32 →
    ∃ cb, containerOf (s.text .pass) (s.text .msg) = some cb ∧
      ∀ k (h : k < cb.length), u.containerLength ≤ k → v.lsb k = cb[k]

/-- R75, R255: the samples may be written in any order; what matters is that sample k receives CB[k]. -/
def Obligations.EmbedWriteOrderIrrelevant : Prop :=
  ∀ s t : State, s.grid.wf → exec .embed s = .next t → t.status = 0x00001000#32 →
    ∀ ks : List Nat, ks.Perm (List.range s.containerLength) →
      (ks.foldl (fun g k => g.setSample k (setLsb (s.sample k) (s.containerBitAt k))) s).grid = t.grid

/-- R157: EMBED's sequencer, run until it is disabled, gives exactly the big-step result. -/
def Obligations.EmbedSequencerRefinesEmbed : Prop :=
  ∀ s : State, embedBySequencer s = exec .embed s

/-- R151: bytes of PBUF at or above PLEN and of MBUF at or above MLEN have no influence on EMBED. -/
def Obligations.EmbedIgnoresBytesBeyondLengths : Prop :=
  ∀ (s t : State) (p m : Memory),
    (∀ i < s.plen.toNat, { s with pbuf := p, mbuf := m }.bufByte .pass i = s.bufByte .pass i) →
    (∀ i < s.mlen.toNat, { s with pbuf := p, mbuf := m }.bufByte .msg i = s.bufByte .msg i) →
    exec .embed s = .next t →
    exec .embed { s with pbuf := p, mbuf := m } = .next { t with pbuf := p, mbuf := m }

/-! ### EXTRACT -/

/-- R171, R174, R175: EXTRACT. Before each field its extent is compared with N. A container that fits is read out of
the grid's LSBs, a length of 0 like any other. The first field that does not fit is named in STATUS, BCUR stands at its
start, the fields before it are delivered. Nothing else changes, no sample among it. -/
def Obligations.ExtractReadsContainer : Prop :=
  decode 0x00000011#32 = .cmd .extract ∧
  ∀ (s : State) (pl ml : Nat), s.numSamples ≤ s.params.gridCap →
    pl = s.fieldValue 0 16 → ml = s.fieldValue (16 + 8 * pl) 32 →
    (48 + 8 * pl + 8 * ml ≤ s.numSamples → ∃ t, exec .extract s = .next t ∧
      t.plen.toNat = pl ∧ t.mlen.toNat = ml ∧
      (∀ i < pl, (t.bufByte .pass i).toNat = s.fieldValue (16 + 8 * i) 8) ∧
      (∀ i, pl ≤ i → t.bufByte .pass i = s.bufByte .pass i) ∧
      (∀ i < ml, (t.bufByte .msg i).toNat = s.fieldValue (48 + 8 * pl + 8 * i) 8) ∧
      (∀ i, ml ≤ i → t.bufByte .msg i = s.bufByte .msg i) ∧
      t.CursorAt (48 + 8 * pl + 8 * ml) ∧ t.status = 0x00001100#32 ∧
      { t.withCursorsOf s with
        plen := s.plen, mlen := s.mlen, pbuf := s.pbuf, mbuf := s.mbuf, status := s.status } = s) ∧
    (s.numSamples < 16 → exec .extract s = .next { s.zeroCursors with status := 0x00001113#32 }) ∧
    (16 ≤ s.numSamples → s.numSamples < 16 + 8 * pl → ∃ t, exec .extract s = .next t ∧
      t.plen.toNat = pl ∧ t.CursorAt 16 ∧ t.status = 0x00001123#32 ∧
      { t.withCursorsOf s with plen := s.plen, status := s.status } = s) ∧
    (16 + 8 * pl ≤ s.numSamples → s.numSamples < 48 + 8 * pl → ∃ t, exec .extract s = .next t ∧
      t.plen.toNat = pl ∧ (∀ i < pl, (t.bufByte .pass i).toNat = s.fieldValue (16 + 8 * i) 8) ∧
      (∀ i, pl ≤ i → t.bufByte .pass i = s.bufByte .pass i) ∧
      t.CursorAt (16 + 8 * pl) ∧ t.status = 0x00001133#32 ∧
      { t.withCursorsOf s with plen := s.plen, pbuf := s.pbuf, status := s.status } = s) ∧
    (48 + 8 * pl ≤ s.numSamples → s.numSamples < 48 + 8 * pl + 8 * ml → ∃ t, exec .extract s = .next t ∧
      t.plen.toNat = pl ∧ t.mlen.toNat = ml ∧
      (∀ i < pl, (t.bufByte .pass i).toNat = s.fieldValue (16 + 8 * i) 8) ∧
      (∀ i, pl ≤ i → t.bufByte .pass i = s.bufByte .pass i) ∧
      t.CursorAt (48 + 8 * pl) ∧ t.status = 0x00001143#32 ∧
      { t.withCursorsOf s with plen := s.plen, mlen := s.mlen, pbuf := s.pbuf, status := s.status } = s)

/-- R178: EXTRACT's sequencer, run until the command ends, gives exactly the big-step result. -/
def Obligations.ExtractSequencerRefinesExtract : Prop :=
  ∀ s : State, extractBySequencer s = exec .extract s

/-- R179: EXTRACT issued again on the state it leaves changes nothing. -/
def Obligations.ExtractIsRepeatable : Prop :=
  ∀ s t : State, s.pbuf.wf → s.mbuf.wf → exec .extract s = .next t → exec .extract t = .next t

/-- R241, R243, R247: EXTRACT's outcome depends on the LSBs of the N samples and on N only: not on the shape, the other
bits of the samples, or what the registers, buffers and queue held before. -/
def Obligations.ExtractDependsOnlyOnLsbsAndCount : Prop :=
  ∀ s s' t t' : State, s.numSamples = s'.numSamples → (∀ k < s.numSamples, s.lsb k = s'.lsb k) →
    exec .extract s = .next t → exec .extract s' = .next t' →
    t.status = t'.status ∧ t.bcur = t'.bcur ∧
    (t.status = 0x00001100#32 → t.plen = t'.plen ∧ t.mlen = t'.mlen ∧
      t.text .pass = t'.text .pass ∧ t.text .msg = t'.text .msg)

/-! ### All commands -/

/-- R41: what each command leaves unchanged. -/
def Obligations.CommandsTouchOnlyWhatTheAccessSummaryLists : Prop :=
  ∀ (i : Instr) (s t : State), exec i s = .next t →
    (t.params = s.params ∧ t.rows = s.rows ∧ t.cols = s.cols ∧ t.chans = s.chans ∧ t.epoch = s.epoch ∧
      t.pending = s.pending ∧ t.reads = s.reads) ∧
    (i ≠ .extract → t.plen = s.plen ∧ t.mlen = s.mlen) ∧
    ((∀ w, i ≠ .decint w) → t.ival = s.ival) ∧
    (i ∈ [.nop, .embed, .extract] → t.bq = s.bq) ∧
    (i ≠ .embed → i ≠ .extract → t.bcur = s.bcur ∧ t.scurR = s.scurR ∧ t.scurC = s.scurC ∧ t.scurCh = s.scurCh) ∧
    (∀ k, (i = .embed → s.containerLength ≤ k) → t.sample k = s.sample k) ∧
    (∀ k, (i = .dectxt .pass → s.plen.toNat ≤ k) → (i = .extract → s.fieldValue 0 16 ≤ k) →
      t.bufByte .pass k = s.bufByte .pass k) ∧
    (∀ k, (i = .dectxt .msg → s.mlen.toNat ≤ k) →
      (i = .extract → s.fieldValue (16 + 8 * s.fieldValue 0 16) 32 ≤ k) → t.bufByte .msg k = s.bufByte .msg k)

/-- R214: no command ends with an outcome that is not listed for it. -/
def Obligations.CommandsEndOnlyWithTheirOutcomes : Prop :=
  ∀ (i : Instr) (s t : State), i.wf = true → exec i s = .next t →
    ∃ o ∈ outcomesOf i, t.status = statusWord i.op o

/-- R211: the outcomes' codes and sub-causes, the status word's layout, and all values each command and an illegal word
can leave in STATUS. -/
def Obligations.StatusValuesAreListed : Prop :=
  (∀ (low : BitVec 8) (o : CmdOutcome),
    (statusWord low o).toNat = low.toNat * 2 ^ 8 + o.sub.toNat * 2 ^ 4 + o.code.toNat ∧
    statusCode (statusWord low o) = o.code ∧ statusSub (statusWord low o) = o.sub) ∧
  ([CmdOutcome.ok, .emptyPasscode, .emptyMessage, .capacityError, .truncated .passlen, .truncated .pass,
      .truncated .msglen, .truncated .msg, .rangeError, .overflow, .underflow, .illegal .reservedOpcode,
      .illegal .reservedBits, .illegal .badOperand].map (fun o => (o.code.toNat, o.sub.toNat)) =
    [(0, 0), (1, 1), (1, 2), (2, 0), (3, 1), (3, 2), (3, 3), (3, 4), (4, 0), (5, 1), (5, 2), (6, 1), (6, 2), (6, 3)]) ∧
  (∀ (i : Instr) (s t : State), i.wf = true → exec i s = .next t →
    match i with
    | .nop => t.status = 0x0000#32
    | .encint _ => t.status ∈ [0x0100#32, 0x0104#32, 0x0115#32]
    | .decint _ => t.status ∈ [0x0200#32, 0x0225#32]
    | .enctxt _ => t.status ∈ [0x0300#32, 0x0315#32]
    | .dectxt _ => t.status ∈ [0x0400#32, 0x0425#32]
    | .bqclr => t.status = 0x0500#32
    | .embed => t.status ∈ [0x1000#32, 0x1011#32, 0x1021#32, 0x1002#32]
    | .extract => t.status ∈ [0x1100#32, 0x1113#32, 0x1123#32, 0x1133#32, 0x1143#32]) ∧
  ∀ (x : BitVec 32) (s t : State) (c : IllegalCause), decode x = .illegal c → issue x s = .next t →
    t.status.toNat = x.toNat % 256 * 2 ^ 8 +
      match c with
      | .reservedOpcode => 0x16
      | .reservedBits => 0x26
      | .badOperand => 0x36

/-- R220: the state an error outcome leaves. -/
def Obligations.ErrorOutcomesLeaveDefinedState : Prop :=
  ∀ (x : BitVec 32) (s t : State), issue x s = .next t →
    (statusCode t.status ∈ [4#4, 5#4, 6#4] → t = { s with status := t.status }) ∧
    (statusCode t.status ∈ [1#4, 2#4] → t = { s.zeroCursors with status := t.status }) ∧
    (statusCode t.status = 3#4 →
      { t.withCursorsOf s with plen := s.plen, mlen := s.mlen, pbuf := s.pbuf, status := s.status } = s)

/-! ### The grid's order -/

/-- R62, R63: the traversal is the linear index ascending, and coords inverts the index. -/
def Obligations.TraversalIsAscendingLinearIndex : Prop :=
  ∀ rows cols chans : Nat,
    traversal rows cols chans = (List.range (rows * cols * chans)).map (coords cols chans) ∧
    (∀ r c ch, r < rows → c < cols → ch < chans →
      linearIndex cols chans r c ch < rows * cols * chans ∧
      coords cols chans (linearIndex cols chans r c ch) = (r, c, ch)) ∧
    (∀ k < rows * cols * chans, ∃ r c ch, coords cols chans k = (r, c, ch) ∧ r < rows ∧ c < cols ∧ ch < chans ∧
      linearIndex cols chans r c ch = k) ∧
    (0 < rows * cols * chans → coords cols chans (rows * cols * chans) = (rows, 0, 0))

/-! ### The host port -/

/-- R190: a register read returns the register's value and changes no state but what the host has read. -/
def Obligations.RegisterReadsReturnValues : Prop :=
  ∀ s : State,
    perform (.regRead 0#4) s = .next { s with reads := s.reads ++ [0] } ∧
    perform (.regRead 1#4) s = .next { s with reads := s.reads ++ [s.status.toNat] } ∧
    perform (.regRead 2#4) s = .next { s with reads := s.reads ++ [s.rows.toNat] } ∧
    perform (.regRead 3#4) s = .next { s with reads := s.reads ++ [s.cols.toNat] } ∧
    perform (.regRead 4#4) s = .next { s with reads := s.reads ++ [s.chans.toNat] } ∧
    perform (.regRead 5#4) s = .next { s with reads := s.reads ++ [s.plen.toNat] } ∧
    perform (.regRead 6#4) s = .next { s with reads := s.reads ++ [s.mlen.toNat] } ∧
    perform (.regRead 7#4) s = .next { s with reads := s.reads ++ [s.ival.toNat] } ∧
    perform (.regRead 8#4) s = .next { s with reads := s.reads ++ [s.bq.length] } ∧
    perform (.regRead 9#4) s = .next { s with reads := s.reads ++ [s.bcur.toNat] } ∧
    perform (.regRead 10#4) s = .next { s with reads := s.reads ++ [s.scurR.toNat] } ∧
    perform (.regRead 11#4) s = .next { s with reads := s.reads ++ [s.scurC.toNat] } ∧
    perform (.regRead 12#4) s = .next { s with reads := s.reads ++ [s.scurCh.toNat] }

/-- R191: an operand register takes the value and nothing else changes, CMD executes the word, a write of a read-only
register is ignored. The values are those of the register's width; only for BQLEN, whose width has no upper bound, any
value may be written, which is the model's choice (DESIGN CHOICE, log entry 5). -/
def Obligations.RegisterWritesTakeEffect : Prop :=
  ∀ (s : State),
    (∀ v : BitVec 16, perform (.regWrite 2#4 v.toNat) s = .next { s with rows := v }) ∧
    (∀ v : BitVec 16, perform (.regWrite 3#4 v.toNat) s = .next { s with cols := v }) ∧
    (∀ v : BitVec 8, perform (.regWrite 4#4 v.toNat) s = .next { s with chans := v }) ∧
    (∀ v : BitVec 16, perform (.regWrite 5#4 v.toNat) s = .next { s with plen := v }) ∧
    (∀ v : BitVec 32, perform (.regWrite 6#4 v.toNat) s = .next { s with mlen := v }) ∧
    (∀ v : BitVec 32, perform (.regWrite 7#4 v.toNat) s = .next { s with ival := v }) ∧
    (∀ v : BitVec 32, perform (.regWrite 0#4 v.toNat) s = issue v s) ∧
    (∀ v : BitVec 32, perform (.regWrite 1#4 v.toNat) s = .next s) ∧
    (∀ v : Nat, perform (.regWrite 8#4 v) s = .next s) ∧
    (∀ v : BitVec 40, perform (.regWrite 9#4 v.toNat) s = .next s) ∧
    (∀ v : BitVec 16, perform (.regWrite 10#4 v.toNat) s = .next s) ∧
    (∀ v : BitVec 16, perform (.regWrite 11#4 v.toNat) s = .next s) ∧
    (∀ v : BitVec 8, perform (.regWrite 12#4 v.toNat) s = .next s)

/-- R192: buffer reads and writes of one byte, and the refusal of an index outside the buffer. R192 leaves the value of
a byte not written since reset unspecified; that it is the opaque constant applied to epoch, space and index is the
model's choice (DESIGN CHOICE, log entry 2). -/
def Obligations.BufferAccessMovesOneByte : Prop :=
  (∀ (s : State) (i : Nat), i ≤ 65534 →
    perform (.bufRead .pass i) s = .next { s with reads := s.reads ++ [(s.bufByte .pass i).toNat] }) ∧
  (∀ (s : State) (i : Nat), i ≤ 4294967294 →
    perform (.bufRead .msg i) s = .next { s with reads := s.reads ++ [(s.bufByte .msg i).toNat] }) ∧
  (∀ (s : State) (sel : BufSel) (i : Nat) (b : Byte),
    (sel = .pass → i ≤ 65534) → (sel = .msg → i ≤ 4294967294) →
    ∃ t, perform (.bufWrite sel i b) s = .next t ∧ t.bufByte sel i = b ∧
      (∀ j, j ≠ i → t.bufByte sel j = s.bufByte sel j) ∧ t.setBuf sel (s.buf sel) = s) ∧
  (∀ (s : State) (sel : BufSel) (i : Nat), (s.buf sel).get? i = none →
    s.bufByte sel i = Config.unwritten s.epoch (bufSpace sel) i) ∧
  ∀ (s : State) (sel : BufSel) (i : Nat) (b : Byte),
    (sel = .pass → 65534 < i) → (sel = .msg → 4294967294 < i) →
    perform (.bufRead sel i) s = .refused (.bufferIndex sel i) ∧
    perform (.bufWrite sel i b) s = .refused (.bufferIndex sel i)

/-- R193: the host's own accesses to its grid store. -/
def Obligations.GridAccessMovesOneSample : Prop :=
  ∀ (s : State) (k : Nat),
    (k < s.params.gridCap →
      perform (.gridRead k) s = .next { s with reads := s.reads ++ [(s.sample k).toNat] } ∧
      ∀ x : Byte, ∃ t, perform (.gridWrite k x) s = .next t ∧ t.sample k = x ∧
        (∀ j, j ≠ k → t.sample j = s.sample j) ∧ { t with grid := s.grid } = s) ∧
    (s.params.gridCap ≤ k → perform (.gridRead k) s = .refused (.gridIndex k) ∧
      ∀ x : Byte, perform (.gridWrite k x) s = .refused (.gridIndex k))

/-- R196: register numbers 13, 14 and 15 name no register, and the model refuses the transaction. -/
def Obligations.ReservedRegisterNumbersRefused : Prop :=
  ∀ (s : State) (n : BitVec 4) (v : Nat), 13 ≤ n.toNat →
    perform (.regRead n) s = .refused (.reservedRegister n) ∧
    perform (.regWrite n v) s = .refused (.reservedRegister n)

/-- A transaction is answered exactly on the ranges of R190 to R193 and R196, with N ≤ GRID_CAP for EMBED and EXTRACT,
and refused elsewhere. Three of these bounds are the model's reading: the values a register write may carry (DEDUCED,
for BQLEN DESIGN CHOICE, log entry 5), the refusal of grid moves at or above GRID_CAP (DEDUCED, log entry 6), and that
the six other commands run with N > GRID_CAP (DEDUCED, log entry 7). -/
def Obligations.TransactionsAnsweredExactlyWhereAllowed : Prop :=
  ∀ (op : HostOp) (s : State),
    (op.allowed s = true → ∃ t, perform op s = .next t) ∧
    (op.allowed s = false → ∃ r, perform op s = .refused r)

/-- R194: a word written to CMD is decoded and its command run, or the illegal word reported. The rest is the model's:
that a step takes the head of the script in State.pending, that `withFetchWord` puts the word there, and that an idle
machine stays as it is (DESIGN CHOICE, log entry 3); `decodeTableWord`'s numbering of a word (DESIGN CHOICE, log entry
9). -/
def Obligations.StepRunsDecodedCommand : Prop :=
  (∀ (s : State) (x : BitVec 32) (rest : List HostOp) (i : Instr),
    s.pending = .regWrite 0#4 x.toNat :: rest → decode x = .cmd i → step s = exec i { s with pending := rest }) ∧
  (∀ (s : State) (x : BitVec 32) (rest : List HostOp) (c : IllegalCause),
    s.pending = .regWrite 0#4 x.toNat :: rest → decode x = .illegal c →
    step s = .next { s with pending := rest, status := statusWord (opOf x) (.illegal c) }) ∧
  (∀ (s : State) (x : BitVec 32) (i : Instr), decode x = .cmd i →
    decodeTableWord 32 x.toNat = some i ∧ step (s.withFetchWord 32 x.toNat) = exec i s) ∧
  ∀ s : State, s.pending = [] → step s = .next s

/-- R72, R199: a script's transactions are performed one at a time in script order, and what is still pending has no
influence on them. That the script stands in State.pending and that one step performs one transaction is the model's
(DESIGN CHOICE, DEDUCED, log entry 3). -/
def Obligations.StepsPerformScriptInOrder : Prop :=
  ∀ (s : State) (script : List HostOp),
    Sys2Proof.core.run script.length (s.withScript script) = performAll script s

/-! ### Reset and invariants -/

/-- R40: the registers and the queue after reset; every byte of the three memories is the free value of its address. -/
def Obligations.ResetStateIsTheTablesState : Prop :=
  State.reset.status = 0#32 ∧ State.reset.rows = 0#16 ∧ State.reset.cols = 0#16 ∧ State.reset.chans = 0#8 ∧
  State.reset.plen = 0#16 ∧ State.reset.mlen = 0#32 ∧ State.reset.ival = 0#32 ∧ State.reset.bq = [] ∧
  Reg.read .bqlen State.reset = 0 ∧ State.reset.bcur = 0#40 ∧ State.reset.scurR = 0#16 ∧ State.reset.scurC = 0#16 ∧
  State.reset.scurCh = 0#8 ∧
  (∀ sel i, State.reset.bufByte sel i = Config.unwritten State.reset.epoch (bufSpace sel) i) ∧
  ∀ k, State.reset.sample k = Config.unwritten State.reset.epoch .grid k

/-- R240: the reset event puts every register into its value of R40 and empties BQ. The contents of the memories become
the free values of a new epoch (log entry 2), the script and the host's reads stand. -/
def Obligations.ResetEventResetsRegisters : Prop :=
  ∀ s : State, ∃ t, perform .reset s = .next t ∧ t.Launch ∧
    t.params = s.params ∧ t.pending = s.pending ∧ t.reads = s.reads ∧
    (∀ sel i, t.bufByte sel i = Config.unwritten (s.epoch + 1) (bufSpace sel) i) ∧
    ∀ k, t.sample k = Config.unwritten (s.epoch + 1) .grid k

/-- R40: straight after reset, whatever the memories hold, EMBED fails with InputError/EmptyPasscode and EXTRACT with
TruncatedDataError/PASSLEN, and neither changes anything else. -/
def Obligations.LaunchCommandsFailSafely : Prop :=
  ∀ s : State, s.Launch →
    exec .embed s = .next { s with status := 0x00001011#32 } ∧
    exec .extract s = .next { s with status := 0x00001113#32 }

/-- The invariant holds at reset. -/
def Obligations.ResetMeetsInvariant : Prop := State.reset.Inv ∧ State.reset.CursorInv

/-- Every step keeps the invariant: parameters in range, memories canonical and inside their address spaces, queue
within capacity, STATUS a value a command can leave (R7, R29, R32, R61). -/
def Obligations.StepKeepsInvariant : Prop :=
  ∀ s t : State, s.Inv → step s = .next t → t.Inv

/-- R36: every command keeps the cursor invariant, and EMBED and EXTRACT establish it. -/
def Obligations.CommandsKeepCursorInvariant : Prop :=
  ∀ (i : Instr) (s t : State), exec i s = .next t →
    (s.CursorInv → t.CursorInv) ∧ (i = .embed ∨ i = .extract → t.CursorInv ∧ t.bcur.toNat ≤ t.numSamples)

/-- R39, R7: the parameters are fixed for the life of the hardware: no step changes them. -/
def Obligations.StepKeepsParameters : Prop :=
  ∀ s t : State, step s = .next t → t.params = s.params
end

