-- ==== Sys2Proof/Laws/Codec.lean ====
section
/-! SUPPORT. The laws of the Bit Codec's functions and of the grid's index arithmetic. -/

namespace Sys2Proof.Machine

@[simp] theorem length_bitsOf {w : Nat} (v : BitVec w) : (bitsOf v).length = w := by simp [bitsOf]

theorem getElem?_bitsOf {w : Nat} (v : BitVec w) (i : Nat) :
    (bitsOf v)[i]? = if i < w then some (v.getLsbD (w - 1 - i)) else none := by
  simp only [bitsOf, List.getElem?_map]
  split
  · rename_i h
    rw [List.getElem?_range h]
    simp [BitVec.getMsbD, h]
  · rename_i h
    rw [List.getElem?_eq_none (by simpa using h)]
    rfl

theorem encodeInt_of_lt {v w : Nat} (h : v < 2 ^ w) : encodeInt v w = some (bitsOf (BitVec.ofNat w v)) := if_pos h

theorem encodeInt_of_le {v w : Nat} (h : 2 ^ w ≤ v) : encodeInt v w = none := if_neg (Nat.not_lt.2 h)

theorem encodeInt_toNat {w : Nat} (v : BitVec w) : encodeInt v.toNat w = some (bitsOf v) := by
  rw [encodeInt_of_lt v.isLt, BitVec.ofNat_toNat, BitVec.setWidth_eq]

@[simp] theorem decodeInt_nil : decodeInt [] = 0 := rfl

theorem foldl_decode (bits : Bits) (a : Nat) :
    bits.foldl (fun v b => 2 * v + b.toNat) a = a * 2 ^ bits.length + decodeInt bits := by
  induction bits generalizing a with
  | nil => simp [decodeInt]
  | cons b bs ih =>
    simp only [List.foldl_cons, List.length_cons, decodeInt]
    rw [ih, ih (2 * 0 + b.toNat), pow_succ]
    ring

theorem decodeInt_cons (b : Bit) (bs : Bits) : decodeInt (b :: bs) = b.toNat * 2 ^ bs.length + decodeInt bs := by
  have := foldl_decode bs (2 * 0 + b.toNat)
  simpa [decodeInt] using this

theorem decodeInt_append (bs cs : Bits) : decodeInt (bs ++ cs) = decodeInt bs * 2 ^ cs.length + decodeInt cs := by
  unfold decodeInt
  rw [List.foldl_append, foldl_decode]
  rfl

/-- One more bit at the end: `v <- 2·v + b`. -/
theorem decodeInt_concat (bs : Bits) (b : Bit) : decodeInt (bs ++ [b]) = 2 * decodeInt bs + b.toNat := by
  unfold decodeInt
  rw [List.foldl_append]
  rfl

theorem decodeInt_lt (bits : Bits) : decodeInt bits < 2 ^ bits.length := by
  induction bits with
  | nil => simp
  | cons b bs ih =>
    rw [decodeInt_cons, List.length_cons, pow_succ]
    have : b.toNat ≤ 1 := Bool.toNat_le b
    nlinarith

/-- The bit of a decoded value: the earliest bit has the largest weight. -/
theorem testBit_decodeInt (bits : Bits) (i : Nat) :
    (decodeInt bits).testBit i = (decide (i < bits.length) && bits.getD (bits.length - 1 - i) false) := by
  induction bits generalizing i with
  | nil => simp
  | cons b bs ih =>
    rw [decodeInt_cons, Nat.mul_comm, Nat.testBit_two_pow_mul_add _ (decodeInt_lt bs)]
    split
    · rename_i h
      rw [ih]
      have h1 : (b :: bs).length - 1 - i = (bs.length - 1 - i) + 1 := by simp; omega
      rw [h1, List.getD_cons_succ]
      simp [h, Nat.lt_succ_of_lt h]
    · rename_i h
      by_cases hi : i = bs.length
      · subst hi; cases b <;> simp
      · have : ¬ i < (b :: bs).length := by simp; omega
        simp only [this, decide_false, Bool.false_and]
        cases b
        · simp
        · have h2 : 0 < i - bs.length := by simp at this; omega
          exact Nat.testBit_eq_false_of_lt (by simpa using Nat.one_lt_two_pow (Nat.pos_iff_ne_zero.1 h2))

@[simp] theorem bitsOf_decodeInt (bits : Bits) : bitsOf (BitVec.ofNat bits.length (decodeInt bits)) = bits := by
  apply List.ext_getElem?
  intro i
  rw [getElem?_bitsOf]
  split
  · rename_i h
    rw [BitVec.getLsbD_ofNat, testBit_decodeInt, List.getElem?_eq_getElem h]
    have h1 : bits.length - 1 - i < bits.length := by omega
    have h2 : bits.length - 1 - (bits.length - 1 - i) = i := by omega
    simp [h1, h2, h]
  · rename_i h
    rw [List.getElem?_eq_none (by omega)]

@[simp] theorem decodeInt_bitsOf {w : Nat} (v : BitVec w) : decodeInt (bitsOf v) = v.toNat := by
  have h1 : bitsOf (BitVec.ofNat (bitsOf v).length (decodeInt (bitsOf v))) = bitsOf v := bitsOf_decodeInt _
  have hlt : decodeInt (bitsOf v) < 2 ^ w := by simpa using decodeInt_lt (bitsOf v)
  apply Nat.eq_of_testBit_eq
  intro i
  rw [testBit_decodeInt]
  simp only [length_bitsOf]
  by_cases hi : i < w
  · have h3 : w - 1 - i < w := by omega
    have h4 : w - 1 - (w - 1 - i) = i := by omega
    simp only [hi, decide_true, Bool.true_and, List.getD_eq_getElem?_getD, getElem?_bitsOf, h3, if_true, h4,
      Option.getD_some]
    rfl
  · simp only [hi, decide_false, Bool.false_and]
    exact (Nat.testBit_lt_two_pow (Nat.lt_of_lt_of_le v.isLt (Nat.pow_le_pow_right (by decide) (by omega)))).symm

theorem bitsOf_injective {w : Nat} {v v' : BitVec w} (h : bitsOf v = bitsOf v') : v = v' := by
  have := congrArg decodeInt h
  simpa [BitVec.toNat_inj] using this

@[simp] theorem encodeText_nil : encodeText [] = [] := rfl

@[simp] theorem encodeText_cons (c : Byte) (s : List Byte) : encodeText (c :: s) = bitsOf c ++ encodeText s := rfl

@[simp] theorem encodeText_append (s s' : List Byte) : encodeText (s ++ s') = encodeText s ++ encodeText s' := by
  simp [encodeText]

@[simp] theorem length_encodeText (s : List Byte) : (encodeText s).length = 8 * s.length := by
  induction s with
  | nil => rfl
  | cons c s ih => simp [ih]; ring

@[simp] theorem length_chars (n : Nat) (bits : Bits) : (chars n bits).length = n := by
  induction n generalizing bits with
  | zero => rfl
  | succ n ih => simp [chars, ih]

@[simp] theorem chars_zero (bits : Bits) : chars 0 bits = [] := rfl

theorem chars_succ (n : Nat) (bits : Bits) :
    chars (n + 1) bits = BitVec.ofNat 8 (decodeInt (bits.take 8)) :: chars n (bits.drop 8) := rfl

theorem getElem?_chars (n : Nat) (bits : Bits) (i : Nat) :
    (chars n bits)[i]? =
      if i < n then some (BitVec.ofNat 8 (decodeInt ((bits.drop (8 * i)).take 8))) else none := by
  induction n generalizing bits i with
  | zero => simp
  | succ n ih =>
    rw [chars_succ]
    cases i with
    | zero => simp
    | succ i =>
      rw [List.getElem?_cons_succ, ih, List.drop_drop]
      simp only [Nat.add_lt_add_iff_right]
      have : 8 + 8 * i = 8 * (i + 1) := by ring
      rw [this]

@[simp] theorem chars_encodeText_append (s : List Byte) (rest : Bits) :
    chars s.length (encodeText s ++ rest) = s := by
  induction s with
  | nil => rfl
  | cons c s ih =>
    rw [List.length_cons, chars_succ, encodeText_cons, List.append_assoc]
    rw [List.take_append_of_le_length (by simp), List.take_of_length_le (by simp)]
    rw [List.drop_append_of_le_length (by simp), List.drop_of_length_le (by simp), List.nil_append, ih]
    simp

@[simp] theorem chars_encodeText (s : List Byte) : chars s.length (encodeText s) = s := by
  simpa using chars_encodeText_append s []

theorem encodeText_chars (n : Nat) (bits : Bits) (h : bits.length = 8 * n) : encodeText (chars n bits) = bits := by
  induction n generalizing bits with
  | zero => simpa using (List.length_eq_zero_iff.1 (by simpa using h)).symm
  | succ n ih =>
    rw [chars_succ, encodeText_cons, ih _ (by simp; omega)]
    have h8 : (bits.take 8).length = 8 := by simp; omega
    have := bitsOf_decodeInt (bits.take 8)
    rw [h8] at this
    rw [this, List.take_append_drop]

theorem decodeText_of_length {n : Nat} {bits : Bits} (h : bits.length = 8 * n) :
    decodeText bits = some (chars n bits) := by
  unfold decodeText
  rw [if_pos (by simp [Config.charW, h])]
  simp [Config.charW, h]

/-- Bit j of character i stands at sequence position 8·i + j. -/
theorem getElem?_encodeText (s : List Byte) (k : Nat) :
    (encodeText s)[k]? = (s[k / 8]?).map fun c => c.getLsbD (7 - k % 8) := by
  induction s generalizing k with
  | nil => simp
  | cons c s ih =>
    rw [encodeText_cons]
    by_cases hk : k < 8
    · rw [List.getElem?_append_left (by simpa using hk), getElem?_bitsOf]
      have h0 : k / 8 = 0 := by omega
      have h1 : k % 8 = k := by omega
      simp [hk, h0, h1]
    · rw [List.getElem?_append_right (by simpa using hk), ih]
      have h0 : k / 8 = (k - 8) / 8 + 1 := by omega
      have h1 : k % 8 = (k - 8) % 8 := by omega
      simp [h0, h1]

@[simp] theorem length_containerBits (pl : BitVec 16) (p : List Byte) (ml : BitVec 32) (m : List Byte) :
    (containerBits pl p ml m).length = 48 + 8 * p.length + 8 * m.length := by
  simp [containerBits]; ring

/-- The container bit by bit: the case formula computes the bits of the built sequence. -/
theorem getElem?_containerBits (pl : BitVec 16) (p : List Byte) (ml : BitVec 32) (m : List Byte)
    (hp : p.length = pl.toNat) (k : Nat) (hk : k < 48 + 8 * p.length + 8 * m.length) :
    (containerBits pl p ml m)[k]? = some (containerBit pl (fun i => p.getD i 0) ml (fun i => m.getD i 0) k) := by
  unfold containerBits containerBit
  rw [← hp]
  by_cases h1 : k < 16
  · rw [List.getElem?_append_left (by simp; omega), List.getElem?_append_left (by simp; omega),
      List.getElem?_append_left (by simp; omega), getElem?_bitsOf]
    simp [h1]
  · by_cases h2 : k < 16 + 8 * p.length
    · rw [List.getElem?_append_left (by simp; omega), List.getElem?_append_left (by simp; omega),
        List.getElem?_append_right (by simp; omega), length_bitsOf, getElem?_encodeText]
      have : (k - 16) / 8 < p.length := by omega
      simp [h1, h2, List.getElem?_eq_getElem this]
    · by_cases h3 : k < 48 + 8 * p.length
      · rw [List.getElem?_append_left (by simp; omega), List.getElem?_append_right (by simp; omega), getElem?_bitsOf]
        have h4 : k - (16 + 8 * p.length) < 32 := by omega
        have h5 : 31 - (k - (16 + 8 * p.length)) = 31 - (k - 16 - 8 * p.length) := by omega
        simp [h1, h2, h3, h4, h5]
      · rw [List.getElem?_append_right (by simp; omega), getElem?_encodeText]
        have h6 : k - 48 - 8 * p.length = k - (48 + 8 * p.length) := by omega
        have h7 : (bitsOf pl ++ encodeText p ++ bitsOf ml).length = 48 + 8 * p.length := by simp; omega
        have h8 : (k - (48 + 8 * p.length)) / 8 < m.length := by omega
        rw [h7]
        simp [h1, h2, h3, h6, List.getElem?_eq_getElem h8]

theorem containerOf_eq {p m : List Byte} (hp : p.length < 2 ^ 16) (hm : m.length < 2 ^ 32) :
    containerOf p m = some (containerBits (BitVec.ofNat 16 p.length) p (BitVec.ofNat 32 m.length) m) := by
  unfold containerOf containerBits
  rw [show Config.plenW = 16 from rfl, show Config.mlenW = 32 from rfl, encodeInt_of_lt hp, encodeInt_of_lt hm]

/-- The written sample: the container bit in bit 0. -/
theorem setLsb_getLsbD_zero (x : Byte) (b : Bit) : (setLsb x b).getLsbD 0 = b := by
  revert x b; decide

/-- The written sample: the upper seven bits are those read. -/
theorem setLsb_div_two (x : Byte) (b : Bit) : (setLsb x b).toNat / 2 = x.toNat / 2 := by
  revert x b; decide

/-- `GRID[k] - (GRID[k] mod 2) + b` (R68 (b)). -/
theorem setLsb_toNat (x : Byte) (b : Bit) : (setLsb x b).toNat = x.toNat - x.toNat % 2 + b.toNat := by
  revert x b; decide

@[simp] theorem setLsb_setLsb (x : Byte) (b b' : Bit) : setLsb (setLsb x b) b' = setLsb x b' := by
  revert x b b'; decide

theorem setLsb_of_getLsbD {x : Byte} {b : Bit} (h : x.getLsbD 0 = b) : setLsb x b = x := by
  revert x b; decide

end Sys2Proof.Machine
end

