-- ==== Sys2Proof/Laws/Memory.lean ====
section
/-! SUPPORT. The laws of a byte memory: read after write, and the canonical form. -/

namespace Sys2Proof.Machine.Memory

@[simp] theorem get?_nil (a : Nat) : Memory.get? [] a = none := rfl

/-- A read after a write: the written byte at its address, the old contents elsewhere. -/
theorem get?_set (m : Memory) (a : Nat) (b : Byte) (x : Nat) :
    (Memory.set m a b).get? x = if x = a then some b else Memory.get? m x := by
  induction m with
  | nil => simp [Memory.set, Memory.get?]
  | cons c m ih =>
    obtain ⟨k, v⟩ := c
    simp only [Memory.set]
    split
    · simp [Memory.get?]
    · split
      · subst a; simp only [Memory.get?]; split <;> simp_all
      · rename_i hne
        simp only [Memory.get?, ih]
        by_cases hx : x = k
        · have : ¬ x = a := fun h => hne (h.symm.trans hx)
          rw [if_pos hx, if_pos hx, if_neg this]
        · rw [if_neg hx, if_neg hx]

@[simp] theorem get?_set_same (m : Memory) (a : Nat) (b : Byte) : (Memory.set m a b).get? a = some b := by
  simp [get?_set]

theorem get?_set_ne (m : Memory) {a x : Nat} (h : x ≠ a) (b : Byte) :
    (Memory.set m a b).get? x = Memory.get? m x := by simp [get?_set, h]

/-- A write adds at most its own address. -/
theorem mem_set {m : Memory} {a : Nat} {b : Byte} {c : Host.Cell} (h : c ∈ Memory.set m a b) :
    c = (a, b) ∨ c ∈ m := by
  induction m with
  | nil => simpa [Memory.set] using h
  | cons d m ih =>
    obtain ⟨k, v⟩ := d
    simp only [Memory.set] at h
    split at h
    · simpa using h
    · split at h
      · rcases List.mem_cons.1 h with h | h
        · exact .inl h
        · exact .inr (List.mem_cons_of_mem _ h)
      · rcases List.mem_cons.1 h with h | h
        · exact .inr (h ▸ List.mem_cons_self)
        · exact (ih h).imp id (List.mem_cons_of_mem _)

theorem below_set {m : Memory} {n a : Nat} (hm : m.below n) (ha : a < n) (b : Byte) :
    (Memory.set m a b).below n := by
  intro c hc
  rcases mem_set hc with rfl | h
  · exact ha
  · exact hm c h

/-- A write keeps the canonical form. -/
theorem wf_set {m : Memory} (hm : m.wf) (a : Nat) (b : Byte) : (Memory.set m a b).wf := by
  induction m with
  | nil => simp [Memory.set, Memory.wf]
  | cons d m ih =>
    obtain ⟨k, v⟩ := d
    rw [Memory.wf, List.pairwise_cons] at hm
    simp only [Memory.set]
    split
    · rename_i hak
      simp only [Memory.wf, List.pairwise_cons, List.mem_cons]
      refine ⟨?_, hm.1, hm.2⟩
      rintro c (rfl | hc)
      · exact hak
      · exact Nat.lt_trans hak (hm.1 c hc)
    · split
      · subst a
        exact List.pairwise_cons.2 ⟨hm.1, hm.2⟩
      · refine List.pairwise_cons.2 ⟨fun c hc => ?_, ih hm.2⟩
        rcases mem_set hc with rfl | h
        · simp only; omega
        · exact hm.1 c h

/-- In canonical form an address below every listed one reads as not written. -/
theorem get?_none_of_lt {m : Memory} {a : Nat} (h : ∀ c ∈ m, a < c.1) : Memory.get? m a = none := by
  induction m with
  | nil => rfl
  | cons d m ih =>
    obtain ⟨k, v⟩ := d
    have hk : a < k := h _ List.mem_cons_self
    simp only [Memory.get?]
    rw [if_neg (Nat.ne_of_lt hk)]
    exact ih fun c hc => h c (List.mem_cons_of_mem _ hc)

/-- Equal memories are equal lists: two canonical memories with the same contents are the same. -/
theorem ext {m m' : Memory} (hm : m.wf) (hm' : m'.wf) (h : ∀ a, Memory.get? m a = Memory.get? m' a) : m = m' := by
  induction m generalizing m' with
  | nil =>
    cases m' with
    | nil => rfl
    | cons d m' => obtain ⟨k, v⟩ := d; simpa [Memory.get?] using h k
  | cons d m ih =>
    obtain ⟨k, v⟩ := d
    cases m' with
    | nil => simpa [Memory.get?] using h k
    | cons d' m' =>
      obtain ⟨k', v'⟩ := d'
      rw [Memory.wf, List.pairwise_cons] at hm hm'
      have hkk : k = k' := by
        rcases Nat.lt_trichotomy k k' with hlt | rfl | hlt
        · have := h k
          rw [get?_none_of_lt (m := (k', v') :: m') (a := k)] at this
          · simp [Memory.get?] at this
          · intro c hc
            rcases List.mem_cons.1 hc with rfl | hc
            · exact hlt
            · exact Nat.lt_trans hlt (hm'.1 c hc)
        · rfl
        · have := h k'
          rw [get?_none_of_lt (m := (k, v) :: m) (a := k')] at this
          · simp [Memory.get?] at this
          · intro c hc
            rcases List.mem_cons.1 hc with rfl | hc
            · exact hlt
            · exact Nat.lt_trans hlt (hm.1 c hc)
      subst hkk
      have hv : v = v' := by simpa [Memory.get?] using h k
      subst hv
      have : m = m' := by
        refine ih hm.2 hm'.2 fun a => ?_
        by_cases hak : a = k
        · subst hak
          rw [get?_none_of_lt fun c hc => hm.1 c hc, get?_none_of_lt fun c hc => hm'.1 c hc]
        · simpa [Memory.get?, hak] using h a
      rw [this]

/-- Writing the byte an address already holds changes nothing. -/
theorem set_of_get? {m : Memory} (hm : m.wf) {a : Nat} {b : Byte} (h : Memory.get? m a = some b) :
    Memory.set m a b = m :=
  ext (wf_set hm a b) hm fun x => by
    rw [get?_set]; split
    · subst x; exact h.symm
    · rfl

@[simp] theorem store_nil (m : Memory) (a : Nat) : Memory.store m a [] = m := rfl

theorem store_cons (m : Memory) (a : Nat) (b : Byte) (bs : List Byte) :
    Memory.store m a (b :: bs) = (Memory.set m a b).store (a + 1) bs := rfl

theorem store_append (m : Memory) (a : Nat) (bs cs : List Byte) :
    Memory.store m a (bs ++ cs) = (Memory.store m a bs).store (a + bs.length) cs := by
  induction bs generalizing m a with
  | nil => rfl
  | cons b bs ih =>
    rw [List.cons_append, store_cons, ih, store_cons, List.length_cons]
    congr 1; omega

/-- Everything `store` does to the contents: byte i lands at a + i, the rest is as before. -/
theorem get?_store (m : Memory) (a : Nat) (bs : List Byte) (x : Nat) :
    (Memory.store m a bs).get? x =
      if a ≤ x ∧ x < a + bs.length then bs[x - a]? else Memory.get? m x := by
  induction bs generalizing m a with
  | nil =>
    rw [store_nil, if_neg]
    simp
  | cons b bs ih =>
    rw [store_cons, ih, get?_set]
    simp only [List.length_cons]
    by_cases h1 : a + 1 ≤ x ∧ x < a + 1 + bs.length
    · have h2 : a ≤ x ∧ x < a + (bs.length + 1) := by omega
      have h3 : x - a = (x - (a + 1)) + 1 := by omega
      rw [if_pos h1, if_pos h2, h3, List.getElem?_cons_succ]
    · rw [if_neg h1]
      by_cases hx : x = a
      · subst hx
        have : x ≤ x ∧ x < x + (bs.length + 1) := by omega
        simp
      · rw [if_neg hx, if_neg (by omega)]

theorem wf_store {m : Memory} (hm : m.wf) (a : Nat) (bs : List Byte) : (Memory.store m a bs).wf := by
  induction bs generalizing m a with
  | nil => exact hm
  | cons b bs ih => exact ih (wf_set hm a b) _

/-- Storing the same bytes again changes nothing. -/
theorem store_store {m : Memory} (hm : m.wf) (a : Nat) (bs : List Byte) :
    (Memory.store m a bs).store a bs = Memory.store m a bs := by
  refine ext (wf_store (wf_store hm a bs) a bs) (wf_store hm a bs) fun x => ?_
  rw [get?_store]
  split
  · rename_i h; rw [get?_store, if_pos h]
  · rfl

theorem below_store {m : Memory} {n : Nat} (hm : m.below n) {a : Nat} {bs : List Byte} (h : a + bs.length ≤ n) :
    (Memory.store m a bs).below n := by
  induction bs generalizing m a with
  | nil => exact hm
  | cons b bs ih =>
    simp only [List.length_cons] at h
    exact ih (below_set hm (by omega) b) (by omega)

end Sys2Proof.Machine.Memory
end

