-- ==== Sys2Proof/Laws/State.lean ====
section
/-! SUPPORT. One lemma per field per named update of State, so that no proof unfolds an update. -/

namespace Sys2Proof.Machine.State

variable (s : State)

@[simp] theorem finish_params (op : BitVec 8) (o : CmdOutcome) : (s.finish op o).params = s.params := (rfl)
@[simp] theorem finish_status (op : BitVec 8) (o : CmdOutcome) : (s.finish op o).status = statusWord op o := (rfl)
@[simp] theorem finish_rows (op : BitVec 8) (o : CmdOutcome) : (s.finish op o).rows = s.rows := (rfl)
@[simp] theorem finish_cols (op : BitVec 8) (o : CmdOutcome) : (s.finish op o).cols = s.cols := (rfl)
@[simp] theorem finish_chans (op : BitVec 8) (o : CmdOutcome) : (s.finish op o).chans = s.chans := (rfl)
@[simp] theorem finish_plen (op : BitVec 8) (o : CmdOutcome) : (s.finish op o).plen = s.plen := (rfl)
@[simp] theorem finish_mlen (op : BitVec 8) (o : CmdOutcome) : (s.finish op o).mlen = s.mlen := (rfl)
@[simp] theorem finish_ival (op : BitVec 8) (o : CmdOutcome) : (s.finish op o).ival = s.ival := (rfl)
@[simp] theorem finish_bcur (op : BitVec 8) (o : CmdOutcome) : (s.finish op o).bcur = s.bcur := (rfl)
@[simp] theorem finish_scurR (op : BitVec 8) (o : CmdOutcome) : (s.finish op o).scurR = s.scurR := (rfl)
@[simp] theorem finish_scurC (op : BitVec 8) (o : CmdOutcome) : (s.finish op o).scurC = s.scurC := (rfl)
@[simp] theorem finish_scurCh (op : BitVec 8) (o : CmdOutcome) : (s.finish op o).scurCh = s.scurCh := (rfl)
@[simp] theorem finish_bq (op : BitVec 8) (o : CmdOutcome) : (s.finish op o).bq = s.bq := (rfl)
@[simp] theorem finish_pbuf (op : BitVec 8) (o : CmdOutcome) : (s.finish op o).pbuf = s.pbuf := (rfl)
@[simp] theorem finish_mbuf (op : BitVec 8) (o : CmdOutcome) : (s.finish op o).mbuf = s.mbuf := (rfl)
@[simp] theorem finish_grid (op : BitVec 8) (o : CmdOutcome) : (s.finish op o).grid = s.grid := (rfl)
@[simp] theorem finish_epoch (op : BitVec 8) (o : CmdOutcome) : (s.finish op o).epoch = s.epoch := (rfl)
@[simp] theorem finish_pending (op : BitVec 8) (o : CmdOutcome) : (s.finish op o).pending = s.pending := (rfl)
@[simp] theorem finish_reads (op : BitVec 8) (o : CmdOutcome) : (s.finish op o).reads = s.reads := (rfl)

@[simp] theorem setCursor_params (k : Nat) : (s.setCursor k).params = s.params := (rfl)
@[simp] theorem setCursor_status (k : Nat) : (s.setCursor k).status = s.status := (rfl)
@[simp] theorem setCursor_rows (k : Nat) : (s.setCursor k).rows = s.rows := (rfl)
@[simp] theorem setCursor_cols (k : Nat) : (s.setCursor k).cols = s.cols := (rfl)
@[simp] theorem setCursor_chans (k : Nat) : (s.setCursor k).chans = s.chans := (rfl)
@[simp] theorem setCursor_plen (k : Nat) : (s.setCursor k).plen = s.plen := (rfl)
@[simp] theorem setCursor_mlen (k : Nat) : (s.setCursor k).mlen = s.mlen := (rfl)
@[simp] theorem setCursor_ival (k : Nat) : (s.setCursor k).ival = s.ival := (rfl)
@[simp] theorem setCursor_bcur (k : Nat) : (s.setCursor k).bcur = BitVec.ofNat 40 k := (rfl)
@[simp] theorem setCursor_scurR (k : Nat) : (s.setCursor k).scurR = BitVec.ofNat 16 (s.cursorCoords k).1 := (rfl)
@[simp] theorem setCursor_scurC (k : Nat) : (s.setCursor k).scurC = BitVec.ofNat 16 (s.cursorCoords k).2.1 := (rfl)
@[simp] theorem setCursor_scurCh (k : Nat) : (s.setCursor k).scurCh = BitVec.ofNat 8 (s.cursorCoords k).2.2 := (rfl)
@[simp] theorem setCursor_bq (k : Nat) : (s.setCursor k).bq = s.bq := (rfl)
@[simp] theorem setCursor_pbuf (k : Nat) : (s.setCursor k).pbuf = s.pbuf := (rfl)
@[simp] theorem setCursor_mbuf (k : Nat) : (s.setCursor k).mbuf = s.mbuf := (rfl)
@[simp] theorem setCursor_grid (k : Nat) : (s.setCursor k).grid = s.grid := (rfl)
@[simp] theorem setCursor_epoch (k : Nat) : (s.setCursor k).epoch = s.epoch := (rfl)
@[simp] theorem setCursor_pending (k : Nat) : (s.setCursor k).pending = s.pending := (rfl)
@[simp] theorem setCursor_reads (k : Nat) : (s.setCursor k).reads = s.reads := (rfl)

@[simp] theorem setSample_params (k : Nat) (x : Byte) : (s.setSample k x).params = s.params := (rfl)
@[simp] theorem setSample_status (k : Nat) (x : Byte) : (s.setSample k x).status = s.status := (rfl)
@[simp] theorem setSample_rows (k : Nat) (x : Byte) : (s.setSample k x).rows = s.rows := (rfl)
@[simp] theorem setSample_cols (k : Nat) (x : Byte) : (s.setSample k x).cols = s.cols := (rfl)
@[simp] theorem setSample_chans (k : Nat) (x : Byte) : (s.setSample k x).chans = s.chans := (rfl)
@[simp] theorem setSample_plen (k : Nat) (x : Byte) : (s.setSample k x).plen = s.plen := (rfl)
@[simp] theorem setSample_mlen (k : Nat) (x : Byte) : (s.setSample k x).mlen = s.mlen := (rfl)
@[simp] theorem setSample_ival (k : Nat) (x : Byte) : (s.setSample k x).ival = s.ival := (rfl)
@[simp] theorem setSample_bcur (k : Nat) (x : Byte) : (s.setSample k x).bcur = s.bcur := (rfl)
@[simp] theorem setSample_scurR (k : Nat) (x : Byte) : (s.setSample k x).scurR = s.scurR := (rfl)
@[simp] theorem setSample_scurC (k : Nat) (x : Byte) : (s.setSample k x).scurC = s.scurC := (rfl)
@[simp] theorem setSample_scurCh (k : Nat) (x : Byte) : (s.setSample k x).scurCh = s.scurCh := (rfl)
@[simp] theorem setSample_bq (k : Nat) (x : Byte) : (s.setSample k x).bq = s.bq := (rfl)
@[simp] theorem setSample_pbuf (k : Nat) (x : Byte) : (s.setSample k x).pbuf = s.pbuf := (rfl)
@[simp] theorem setSample_mbuf (k : Nat) (x : Byte) : (s.setSample k x).mbuf = s.mbuf := (rfl)
@[simp] theorem setSample_grid (k : Nat) (x : Byte) : (s.setSample k x).grid = s.grid.set k x := (rfl)
@[simp] theorem setSample_epoch (k : Nat) (x : Byte) : (s.setSample k x).epoch = s.epoch := (rfl)
@[simp] theorem setSample_pending (k : Nat) (x : Byte) : (s.setSample k x).pending = s.pending := (rfl)
@[simp] theorem setSample_reads (k : Nat) (x : Byte) : (s.setSample k x).reads = s.reads := (rfl)

@[simp] theorem push_params (bits : Bits) : (s.push bits).params = s.params := (rfl)
@[simp] theorem push_status (bits : Bits) : (s.push bits).status = s.status := (rfl)
@[simp] theorem push_rows (bits : Bits) : (s.push bits).rows = s.rows := (rfl)
@[simp] theorem push_cols (bits : Bits) : (s.push bits).cols = s.cols := (rfl)
@[simp] theorem push_chans (bits : Bits) : (s.push bits).chans = s.chans := (rfl)
@[simp] theorem push_plen (bits : Bits) : (s.push bits).plen = s.plen := (rfl)
@[simp] theorem push_mlen (bits : Bits) : (s.push bits).mlen = s.mlen := (rfl)
@[simp] theorem push_ival (bits : Bits) : (s.push bits).ival = s.ival := (rfl)
@[simp] theorem push_bcur (bits : Bits) : (s.push bits).bcur = s.bcur := (rfl)
@[simp] theorem push_scurR (bits : Bits) : (s.push bits).scurR = s.scurR := (rfl)
@[simp] theorem push_scurC (bits : Bits) : (s.push bits).scurC = s.scurC := (rfl)
@[simp] theorem push_scurCh (bits : Bits) : (s.push bits).scurCh = s.scurCh := (rfl)
@[simp] theorem push_bq (bits : Bits) : (s.push bits).bq = s.bq ++ bits := (rfl)
@[simp] theorem push_pbuf (bits : Bits) : (s.push bits).pbuf = s.pbuf := (rfl)
@[simp] theorem push_mbuf (bits : Bits) : (s.push bits).mbuf = s.mbuf := (rfl)
@[simp] theorem push_grid (bits : Bits) : (s.push bits).grid = s.grid := (rfl)
@[simp] theorem push_epoch (bits : Bits) : (s.push bits).epoch = s.epoch := (rfl)
@[simp] theorem push_pending (bits : Bits) : (s.push bits).pending = s.pending := (rfl)
@[simp] theorem push_reads (bits : Bits) : (s.push bits).reads = s.reads := (rfl)

@[simp] theorem pop_params (n : Nat) : (s.pop n).params = s.params := (rfl)
@[simp] theorem pop_status (n : Nat) : (s.pop n).status = s.status := (rfl)
@[simp] theorem pop_rows (n : Nat) : (s.pop n).rows = s.rows := (rfl)
@[simp] theorem pop_cols (n : Nat) : (s.pop n).cols = s.cols := (rfl)
@[simp] theorem pop_chans (n : Nat) : (s.pop n).chans = s.chans := (rfl)
@[simp] theorem pop_plen (n : Nat) : (s.pop n).plen = s.plen := (rfl)
@[simp] theorem pop_mlen (n : Nat) : (s.pop n).mlen = s.mlen := (rfl)
@[simp] theorem pop_ival (n : Nat) : (s.pop n).ival = s.ival := (rfl)
@[simp] theorem pop_bcur (n : Nat) : (s.pop n).bcur = s.bcur := (rfl)
@[simp] theorem pop_scurR (n : Nat) : (s.pop n).scurR = s.scurR := (rfl)
@[simp] theorem pop_scurC (n : Nat) : (s.pop n).scurC = s.scurC := (rfl)
@[simp] theorem pop_scurCh (n : Nat) : (s.pop n).scurCh = s.scurCh := (rfl)
@[simp] theorem pop_bq (n : Nat) : (s.pop n).bq = s.bq.drop n := (rfl)
@[simp] theorem pop_pbuf (n : Nat) : (s.pop n).pbuf = s.pbuf := (rfl)
@[simp] theorem pop_mbuf (n : Nat) : (s.pop n).mbuf = s.mbuf := (rfl)
@[simp] theorem pop_grid (n : Nat) : (s.pop n).grid = s.grid := (rfl)
@[simp] theorem pop_epoch (n : Nat) : (s.pop n).epoch = s.epoch := (rfl)
@[simp] theorem pop_pending (n : Nat) : (s.pop n).pending = s.pending := (rfl)
@[simp] theorem pop_reads (n : Nat) : (s.pop n).reads = s.reads := (rfl)

@[simp] theorem record_params (v : Nat) : (s.record v).params = s.params := (rfl)
@[simp] theorem record_status (v : Nat) : (s.record v).status = s.status := (rfl)
@[simp] theorem record_rows (v : Nat) : (s.record v).rows = s.rows := (rfl)
@[simp] theorem record_cols (v : Nat) : (s.record v).cols = s.cols := (rfl)
@[simp] theorem record_chans (v : Nat) : (s.record v).chans = s.chans := (rfl)
@[simp] theorem record_plen (v : Nat) : (s.record v).plen = s.plen := (rfl)
@[simp] theorem record_mlen (v : Nat) : (s.record v).mlen = s.mlen := (rfl)
@[simp] theorem record_ival (v : Nat) : (s.record v).ival = s.ival := (rfl)
@[simp] theorem record_bcur (v : Nat) : (s.record v).bcur = s.bcur := (rfl)
@[simp] theorem record_scurR (v : Nat) : (s.record v).scurR = s.scurR := (rfl)
@[simp] theorem record_scurC (v : Nat) : (s.record v).scurC = s.scurC := (rfl)
@[simp] theorem record_scurCh (v : Nat) : (s.record v).scurCh = s.scurCh := (rfl)
@[simp] theorem record_bq (v : Nat) : (s.record v).bq = s.bq := (rfl)
@[simp] theorem record_pbuf (v : Nat) : (s.record v).pbuf = s.pbuf := (rfl)
@[simp] theorem record_mbuf (v : Nat) : (s.record v).mbuf = s.mbuf := (rfl)
@[simp] theorem record_grid (v : Nat) : (s.record v).grid = s.grid := (rfl)
@[simp] theorem record_epoch (v : Nat) : (s.record v).epoch = s.epoch := (rfl)
@[simp] theorem record_pending (v : Nat) : (s.record v).pending = s.pending := (rfl)
@[simp] theorem record_reads (v : Nat) : (s.record v).reads = s.reads ++ [v] := (rfl)

@[simp] theorem zeroCursors_params : (s.zeroCursors).params = s.params := (rfl)
@[simp] theorem zeroCursors_status : (s.zeroCursors).status = s.status := (rfl)
@[simp] theorem zeroCursors_rows : (s.zeroCursors).rows = s.rows := (rfl)
@[simp] theorem zeroCursors_cols : (s.zeroCursors).cols = s.cols := (rfl)
@[simp] theorem zeroCursors_chans : (s.zeroCursors).chans = s.chans := (rfl)
@[simp] theorem zeroCursors_plen : (s.zeroCursors).plen = s.plen := (rfl)
@[simp] theorem zeroCursors_mlen : (s.zeroCursors).mlen = s.mlen := (rfl)
@[simp] theorem zeroCursors_ival : (s.zeroCursors).ival = s.ival := (rfl)
@[simp] theorem zeroCursors_bcur : (s.zeroCursors).bcur = 0#40 := (rfl)
@[simp] theorem zeroCursors_scurR : (s.zeroCursors).scurR = 0#16 := (rfl)
@[simp] theorem zeroCursors_scurC : (s.zeroCursors).scurC = 0#16 := (rfl)
@[simp] theorem zeroCursors_scurCh : (s.zeroCursors).scurCh = 0#8 := (rfl)
@[simp] theorem zeroCursors_bq : (s.zeroCursors).bq = s.bq := (rfl)
@[simp] theorem zeroCursors_pbuf : (s.zeroCursors).pbuf = s.pbuf := (rfl)
@[simp] theorem zeroCursors_mbuf : (s.zeroCursors).mbuf = s.mbuf := (rfl)
@[simp] theorem zeroCursors_grid : (s.zeroCursors).grid = s.grid := (rfl)
@[simp] theorem zeroCursors_epoch : (s.zeroCursors).epoch = s.epoch := (rfl)
@[simp] theorem zeroCursors_pending : (s.zeroCursors).pending = s.pending := (rfl)
@[simp] theorem zeroCursors_reads : (s.zeroCursors).reads = s.reads := (rfl)

@[simp] theorem applyReset_params : (s.applyReset).params = s.params := (rfl)
@[simp] theorem applyReset_status : (s.applyReset).status = 0#32 := (rfl)
@[simp] theorem applyReset_rows : (s.applyReset).rows = 0#16 := (rfl)
@[simp] theorem applyReset_cols : (s.applyReset).cols = 0#16 := (rfl)
@[simp] theorem applyReset_chans : (s.applyReset).chans = 0#8 := (rfl)
@[simp] theorem applyReset_plen : (s.applyReset).plen = 0#16 := (rfl)
@[simp] theorem applyReset_mlen : (s.applyReset).mlen = 0#32 := (rfl)
@[simp] theorem applyReset_ival : (s.applyReset).ival = 0#32 := (rfl)
@[simp] theorem applyReset_bcur : (s.applyReset).bcur = 0#40 := (rfl)
@[simp] theorem applyReset_scurR : (s.applyReset).scurR = 0#16 := (rfl)
@[simp] theorem applyReset_scurC : (s.applyReset).scurC = 0#16 := (rfl)
@[simp] theorem applyReset_scurCh : (s.applyReset).scurCh = 0#8 := (rfl)
@[simp] theorem applyReset_bq : (s.applyReset).bq = [] := (rfl)
@[simp] theorem applyReset_pbuf : (s.applyReset).pbuf = [] := (rfl)
@[simp] theorem applyReset_mbuf : (s.applyReset).mbuf = [] := (rfl)
@[simp] theorem applyReset_grid : (s.applyReset).grid = [] := (rfl)
@[simp] theorem applyReset_epoch : (s.applyReset).epoch = s.epoch + 1 := (rfl)
@[simp] theorem applyReset_pending : (s.applyReset).pending = s.pending := (rfl)
@[simp] theorem applyReset_reads : (s.applyReset).reads = s.reads := (rfl)

@[simp] theorem withFetchWord_params (nbits w : Nat) : (s.withFetchWord nbits w).params = s.params := (rfl)
@[simp] theorem withFetchWord_status (nbits w : Nat) : (s.withFetchWord nbits w).status = s.status := (rfl)
@[simp] theorem withFetchWord_rows (nbits w : Nat) : (s.withFetchWord nbits w).rows = s.rows := (rfl)
@[simp] theorem withFetchWord_cols (nbits w : Nat) : (s.withFetchWord nbits w).cols = s.cols := (rfl)
@[simp] theorem withFetchWord_chans (nbits w : Nat) : (s.withFetchWord nbits w).chans = s.chans := (rfl)
@[simp] theorem withFetchWord_plen (nbits w : Nat) : (s.withFetchWord nbits w).plen = s.plen := (rfl)
@[simp] theorem withFetchWord_mlen (nbits w : Nat) : (s.withFetchWord nbits w).mlen = s.mlen := (rfl)
@[simp] theorem withFetchWord_ival (nbits w : Nat) : (s.withFetchWord nbits w).ival = s.ival := (rfl)
@[simp] theorem withFetchWord_bcur (nbits w : Nat) : (s.withFetchWord nbits w).bcur = s.bcur := (rfl)
@[simp] theorem withFetchWord_scurR (nbits w : Nat) : (s.withFetchWord nbits w).scurR = s.scurR := (rfl)
@[simp] theorem withFetchWord_scurC (nbits w : Nat) : (s.withFetchWord nbits w).scurC = s.scurC := (rfl)
@[simp] theorem withFetchWord_scurCh (nbits w : Nat) : (s.withFetchWord nbits w).scurCh = s.scurCh := (rfl)
@[simp] theorem withFetchWord_bq (nbits w : Nat) : (s.withFetchWord nbits w).bq = s.bq := (rfl)
@[simp] theorem withFetchWord_pbuf (nbits w : Nat) : (s.withFetchWord nbits w).pbuf = s.pbuf := (rfl)
@[simp] theorem withFetchWord_mbuf (nbits w : Nat) : (s.withFetchWord nbits w).mbuf = s.mbuf := (rfl)
@[simp] theorem withFetchWord_grid (nbits w : Nat) : (s.withFetchWord nbits w).grid = s.grid := (rfl)
@[simp] theorem withFetchWord_epoch (nbits w : Nat) : (s.withFetchWord nbits w).epoch = s.epoch := (rfl)
@[simp] theorem withFetchWord_pending (nbits w : Nat) : (s.withFetchWord nbits w).pending = .regWrite 0#4 (w % 2 ^ nbits) :: s.pending := (rfl)
@[simp] theorem withFetchWord_reads (nbits w : Nat) : (s.withFetchWord nbits w).reads = s.reads := (rfl)

@[simp] theorem setBuf_params (sel : BufSel) (m : Memory) : (s.setBuf sel m).params = s.params := by cases sel <;> rfl
@[simp] theorem setBuf_status (sel : BufSel) (m : Memory) : (s.setBuf sel m).status = s.status := by cases sel <;> rfl
@[simp] theorem setBuf_rows (sel : BufSel) (m : Memory) : (s.setBuf sel m).rows = s.rows := by cases sel <;> rfl
@[simp] theorem setBuf_cols (sel : BufSel) (m : Memory) : (s.setBuf sel m).cols = s.cols := by cases sel <;> rfl
@[simp] theorem setBuf_chans (sel : BufSel) (m : Memory) : (s.setBuf sel m).chans = s.chans := by cases sel <;> rfl
@[simp] theorem setBuf_plen (sel : BufSel) (m : Memory) : (s.setBuf sel m).plen = s.plen := by cases sel <;> rfl
@[simp] theorem setBuf_mlen (sel : BufSel) (m : Memory) : (s.setBuf sel m).mlen = s.mlen := by cases sel <;> rfl
@[simp] theorem setBuf_ival (sel : BufSel) (m : Memory) : (s.setBuf sel m).ival = s.ival := by cases sel <;> rfl
@[simp] theorem setBuf_bcur (sel : BufSel) (m : Memory) : (s.setBuf sel m).bcur = s.bcur := by cases sel <;> rfl
@[simp] theorem setBuf_scurR (sel : BufSel) (m : Memory) : (s.setBuf sel m).scurR = s.scurR := by cases sel <;> rfl
@[simp] theorem setBuf_scurC (sel : BufSel) (m : Memory) : (s.setBuf sel m).scurC = s.scurC := by cases sel <;> rfl
@[simp] theorem setBuf_scurCh (sel : BufSel) (m : Memory) : (s.setBuf sel m).scurCh = s.scurCh := by cases sel <;> rfl
@[simp] theorem setBuf_bq (sel : BufSel) (m : Memory) : (s.setBuf sel m).bq = s.bq := by cases sel <;> rfl
@[simp] theorem setBuf_grid (sel : BufSel) (m : Memory) : (s.setBuf sel m).grid = s.grid := by cases sel <;> rfl
@[simp] theorem setBuf_epoch (sel : BufSel) (m : Memory) : (s.setBuf sel m).epoch = s.epoch := by cases sel <;> rfl
@[simp] theorem setBuf_pending (sel : BufSel) (m : Memory) : (s.setBuf sel m).pending = s.pending := by cases sel <;> rfl
@[simp] theorem setBuf_reads (sel : BufSel) (m : Memory) : (s.setBuf sel m).reads = s.reads := by cases sel <;> rfl

@[simp] theorem storeText_params (sel : BufSel) (t : List Byte) : (s.storeText sel t).params = s.params := by cases sel <;> rfl
@[simp] theorem storeText_status (sel : BufSel) (t : List Byte) : (s.storeText sel t).status = s.status := by cases sel <;> rfl
@[simp] theorem storeText_rows (sel : BufSel) (t : List Byte) : (s.storeText sel t).rows = s.rows := by cases sel <;> rfl
@[simp] theorem storeText_cols (sel : BufSel) (t : List Byte) : (s.storeText sel t).cols = s.cols := by cases sel <;> rfl
@[simp] theorem storeText_chans (sel : BufSel) (t : List Byte) : (s.storeText sel t).chans = s.chans := by cases sel <;> rfl
@[simp] theorem storeText_plen (sel : BufSel) (t : List Byte) : (s.storeText sel t).plen = s.plen := by cases sel <;> rfl
@[simp] theorem storeText_mlen (sel : BufSel) (t : List Byte) : (s.storeText sel t).mlen = s.mlen := by cases sel <;> rfl
@[simp] theorem storeText_ival (sel : BufSel) (t : List Byte) : (s.storeText sel t).ival = s.ival := by cases sel <;> rfl
@[simp] theorem storeText_bcur (sel : BufSel) (t : List Byte) : (s.storeText sel t).bcur = s.bcur := by cases sel <;> rfl
@[simp] theorem storeText_scurR (sel : BufSel) (t : List Byte) : (s.storeText sel t).scurR = s.scurR := by cases sel <;> rfl
@[simp] theorem storeText_scurC (sel : BufSel) (t : List Byte) : (s.storeText sel t).scurC = s.scurC := by cases sel <;> rfl
@[simp] theorem storeText_scurCh (sel : BufSel) (t : List Byte) : (s.storeText sel t).scurCh = s.scurCh := by cases sel <;> rfl
@[simp] theorem storeText_bq (sel : BufSel) (t : List Byte) : (s.storeText sel t).bq = s.bq := by cases sel <;> rfl
@[simp] theorem storeText_grid (sel : BufSel) (t : List Byte) : (s.storeText sel t).grid = s.grid := by cases sel <;> rfl
@[simp] theorem storeText_epoch (sel : BufSel) (t : List Byte) : (s.storeText sel t).epoch = s.epoch := by cases sel <;> rfl
@[simp] theorem storeText_pending (sel : BufSel) (t : List Byte) : (s.storeText sel t).pending = s.pending := by cases sel <;> rfl
@[simp] theorem storeText_reads (sel : BufSel) (t : List Byte) : (s.storeText sel t).reads = s.reads := by cases sel <;> rfl

@[simp] theorem advance_params : s.advance.params = s.params := by unfold advance; dsimp only; split <;> (try split) <;> rfl
@[simp] theorem advance_status : s.advance.status = s.status := by unfold advance; dsimp only; split <;> (try split) <;> rfl
@[simp] theorem advance_rows : s.advance.rows = s.rows := by unfold advance; dsimp only; split <;> (try split) <;> rfl
@[simp] theorem advance_cols : s.advance.cols = s.cols := by unfold advance; dsimp only; split <;> (try split) <;> rfl
@[simp] theorem advance_chans : s.advance.chans = s.chans := by unfold advance; dsimp only; split <;> (try split) <;> rfl
@[simp] theorem advance_plen : s.advance.plen = s.plen := by unfold advance; dsimp only; split <;> (try split) <;> rfl
@[simp] theorem advance_mlen : s.advance.mlen = s.mlen := by unfold advance; dsimp only; split <;> (try split) <;> rfl
@[simp] theorem advance_ival : s.advance.ival = s.ival := by unfold advance; dsimp only; split <;> (try split) <;> rfl
@[simp] theorem advance_bq : s.advance.bq = s.bq := by unfold advance; dsimp only; split <;> (try split) <;> rfl
@[simp] theorem advance_pbuf : s.advance.pbuf = s.pbuf := by unfold advance; dsimp only; split <;> (try split) <;> rfl
@[simp] theorem advance_mbuf : s.advance.mbuf = s.mbuf := by unfold advance; dsimp only; split <;> (try split) <;> rfl
@[simp] theorem advance_grid : s.advance.grid = s.grid := by unfold advance; dsimp only; split <;> (try split) <;> rfl
@[simp] theorem advance_epoch : s.advance.epoch = s.epoch := by unfold advance; dsimp only; split <;> (try split) <;> rfl
@[simp] theorem advance_pending : s.advance.pending = s.pending := by unfold advance; dsimp only; split <;> (try split) <;> rfl
@[simp] theorem advance_reads : s.advance.reads = s.reads := by unfold advance; dsimp only; split <;> (try split) <;> rfl

@[simp] theorem buf_setBuf (sel : BufSel) (m : Memory) : (s.setBuf sel m).buf sel = m := by cases sel <;> rfl
@[simp] theorem setBuf_buf (sel : BufSel) : s.setBuf sel (s.buf sel) = s := by cases sel <;> rfl
@[simp] theorem setBuf_setBuf (sel : BufSel) (m m' : Memory) : (s.setBuf sel m).setBuf sel m' = s.setBuf sel m' := by
  cases sel <;> rfl
theorem buf_setBuf_ne {sel sel' : BufSel} (h : sel' ≠ sel) (m : Memory) : (s.setBuf sel m).buf sel' = s.buf sel' := by
  cases sel <;> cases sel' <;> first | rfl | exact absurd rfl h

end Sys2Proof.Machine.State
end

