-- ==== Sys2Proof/Laws/Ops.lean ====
section
/-! SUPPORT. What the shared operations can do, said once each: grid and buffer accesses, the loop of EMBED, the
extractor's bit reads, the cursors, the queue and the end of a command. -/

namespace Sys2Proof.Machine

namespace State

variable (s : State)

/-! ### The size of the grid -/

theorem numSamples_congr {s t : State} (hr : t.rows = s.rows) (hc : t.cols = s.cols) (hch : t.chans = s.chans) :
    t.numSamples = s.numSamples := by unfold numSamples; rw [hr, hc, hch]

@[simp] theorem numSamples_finish (op : BitVec 8) (o : CmdOutcome) : (s.finish op o).numSamples = s.numSamples := (rfl)
@[simp] theorem numSamples_setCursor (k : Nat) : (s.setCursor k).numSamples = s.numSamples := (rfl)
@[simp] theorem numSamples_storeText (sel : BufSel) (t : List Byte) :
    (s.storeText sel t).numSamples = s.numSamples := numSamples_congr (by simp) (by simp) (by simp)
@[simp] theorem numSamples_putBits (bs : Bits) (k : Nat) : (putBits bs k s).numSamples = s.numSamples := by
  induction bs generalizing k s with
  | nil => rfl
  | cons b bs ih => rw [putBits, ih]; rfl

/-! ### Samples -/

theorem sample_setSample (k : Nat) (x : Byte) (j : Nat) :
    (s.setSample k x).sample j = if j = k then x else s.sample j := by
  unfold sample
  rw [setSample_grid, Memory.get?_set, setSample_epoch]
  split <;> rfl

/-- The grid and the epoch are all that a sample depends on. -/
theorem sample_congr {s t : State} (hg : t.grid = s.grid) (he : t.epoch = s.epoch) (k : Nat) :
    t.sample k = s.sample k := by unfold sample; rw [hg, he]

theorem lsb_congr {s t : State} (hg : t.grid = s.grid) (he : t.epoch = s.epoch) (k : Nat) : t.lsb k = s.lsb k := by
  unfold lsb; rw [sample_congr hg he]

/-- The loop of EMBED changes the grid and nothing else. -/
theorem putBits_eq (bs : Bits) (k : Nat) : putBits bs k s = { s with grid := (putBits bs k s).grid } := by
  induction bs generalizing k s with
  | nil => rfl
  | cons b bs ih => rw [putBits, ih]; rfl

@[simp] theorem putBits_params (bs : Bits) (k : Nat) : (putBits bs k s).params = s.params := by rw [putBits_eq]
@[simp] theorem putBits_status (bs : Bits) (k : Nat) : (putBits bs k s).status = s.status := by rw [putBits_eq]
@[simp] theorem putBits_rows (bs : Bits) (k : Nat) : (putBits bs k s).rows = s.rows := by rw [putBits_eq]
@[simp] theorem putBits_cols (bs : Bits) (k : Nat) : (putBits bs k s).cols = s.cols := by rw [putBits_eq]
@[simp] theorem putBits_chans (bs : Bits) (k : Nat) : (putBits bs k s).chans = s.chans := by rw [putBits_eq]
@[simp] theorem putBits_plen (bs : Bits) (k : Nat) : (putBits bs k s).plen = s.plen := by rw [putBits_eq]
@[simp] theorem putBits_mlen (bs : Bits) (k : Nat) : (putBits bs k s).mlen = s.mlen := by rw [putBits_eq]
@[simp] theorem putBits_ival (bs : Bits) (k : Nat) : (putBits bs k s).ival = s.ival := by rw [putBits_eq]
@[simp] theorem putBits_bcur (bs : Bits) (k : Nat) : (putBits bs k s).bcur = s.bcur := by rw [putBits_eq]
@[simp] theorem putBits_scurR (bs : Bits) (k : Nat) : (putBits bs k s).scurR = s.scurR := by rw [putBits_eq]
@[simp] theorem putBits_scurC (bs : Bits) (k : Nat) : (putBits bs k s).scurC = s.scurC := by rw [putBits_eq]
@[simp] theorem putBits_scurCh (bs : Bits) (k : Nat) : (putBits bs k s).scurCh = s.scurCh := by rw [putBits_eq]
@[simp] theorem putBits_bq (bs : Bits) (k : Nat) : (putBits bs k s).bq = s.bq := by rw [putBits_eq]
@[simp] theorem putBits_pbuf (bs : Bits) (k : Nat) : (putBits bs k s).pbuf = s.pbuf := by rw [putBits_eq]
@[simp] theorem putBits_mbuf (bs : Bits) (k : Nat) : (putBits bs k s).mbuf = s.mbuf := by rw [putBits_eq]
@[simp] theorem putBits_epoch (bs : Bits) (k : Nat) : (putBits bs k s).epoch = s.epoch := by rw [putBits_eq]
@[simp] theorem putBits_pending (bs : Bits) (k : Nat) : (putBits bs k s).pending = s.pending := by rw [putBits_eq]
@[simp] theorem putBits_reads (bs : Bits) (k : Nat) : (putBits bs k s).reads = s.reads := by rw [putBits_eq]

/-- Everything the loop of EMBED does to the samples: bit i of the sequence lands in the LSB of sample k + i. -/
theorem sample_putBits (bs : Bits) (k j : Nat) :
    (putBits bs k s).sample j =
      if k ≤ j ∧ j < k + bs.length then setLsb (s.sample j) (bs.getD (j - k) false) else s.sample j := by
  induction bs generalizing k s with
  | nil => rw [putBits, if_neg]; simp
  | cons b bs ih =>
    rw [putBits, ih, sample_setSample]
    simp only [List.length_cons]
    by_cases hj : j = k
    · subst hj
      rw [if_neg (by omega), if_pos rfl, if_pos (by omega)]
      simp
    · rw [if_neg hj]
      by_cases h : k + 1 ≤ j ∧ j < k + 1 + bs.length
      · have h3 : j - k = (j - (k + 1)) + 1 := by omega
        rw [if_pos h, if_pos (by omega), h3, List.getD_cons_succ]
      · rw [if_neg h, if_neg (by omega)]

/-- A sample the loop has written is listed. -/
theorem get?_putBits (bs : Bits) (k j : Nat) (h : k ≤ j ∧ j < k + bs.length) :
    (putBits bs k s).grid.get? j = some (setLsb (s.sample j) (bs.getD (j - k) false)) := by
  induction bs generalizing k s with
  | nil => simp at h; omega
  | cons b bs ih =>
    rw [putBits]
    simp only [List.length_cons] at h
    by_cases hj : j = k
    · subst hj
      have : ∀ (bs : Bits) (k : Nat) (s : State), j < k → (putBits bs k s).grid.get? j = s.grid.get? j := by
        intro bs
        induction bs with
        | nil => intro k s _; rfl
        | cons b bs ih =>
          intro k s hk
          rw [putBits, ih _ _ (by omega), setSample_grid, Memory.get?_set_ne _ (by omega)]
      rw [this _ _ _ (by omega), setSample_grid, Memory.get?_set_same]
      simp
    · rw [ih _ _ (by omega), sample_setSample, if_neg hj]
      have h3 : j - k = (j - (k + 1)) + 1 := by omega
      rw [h3, List.getD_cons_succ]

/-- Putting bits the samples already carry, into samples that have been written, changes nothing. -/
theorem putBits_of_carried (hw : s.grid.wf) (bs : Bits) (k : Nat)
    (h : ∀ i (hi : i < bs.length), ∃ x, s.grid.get? (k + i) = some x ∧ x.getLsbD 0 = bs[i]) : putBits bs k s = s := by
  induction bs generalizing k with
  | nil => rfl
  | cons b bs ih =>
    rw [putBits]
    obtain ⟨x, hx, hb⟩ := h 0 (by simp)
    have hs : s.setSample k (setLsb (s.sample k) b) = s := by
      have : s.sample k = x := by unfold sample; rw [show k = k + 0 from rfl, hx]; rfl
      rw [this, setLsb_of_getLsbD (by simpa using hb), setSample, Memory.set_of_get? hw (by simpa using hx)]
    rw [hs]
    refine ih (k + 1) fun i hi => ?_
    obtain ⟨y, hy, hby⟩ := h (i + 1) (by simpa using hi)
    exact ⟨y, by rw [← hy]; congr 1; omega, by simpa using hby⟩

theorem grid_wf_putBits (bs : Bits) (k : Nat) (h : s.grid.wf) : (putBits bs k s).grid.wf := by
  induction bs generalizing k s with
  | nil => exact h
  | cons b bs ih => exact ih _ _ (Memory.wf_set h _ _)

theorem grid_below_putBits {n : Nat} (bs : Bits) (k : Nat) (h : s.grid.below n) (hk : k + bs.length ≤ n) :
    (putBits bs k s).grid.below n := by
  induction bs generalizing k s with
  | nil => exact h
  | cons b bs ih =>
    simp only [List.length_cons] at hk
    exact ih _ _ (Memory.below_set h (by omega) _) (by omega)

/-! ### The extractor's reads -/

@[simp] theorem length_bitsFrom (k n : Nat) : (s.bitsFrom k n).length = n := by simp [bitsFrom]

theorem getElem?_bitsFrom (k n i : Nat) :
    (s.bitsFrom k n)[i]? = if i < n then some (s.lsb (k + i)) else none := by
  unfold bitsFrom
  rw [List.getElem?_map]
  split
  · rename_i h; rw [List.getElem?_range h]; rfl
  · rename_i h; rw [List.getElem?_eq_none (by simpa using h)]; rfl

theorem bitsFrom_append (k n m : Nat) : s.bitsFrom k (n + m) = s.bitsFrom k n ++ s.bitsFrom (k + n) m := by
  unfold bitsFrom
  rw [List.range_add, List.map_append, List.map_map]
  congr 1
  apply List.map_congr_left
  intro i _
  simp [Nat.add_assoc]

theorem bitsFrom_succ (k n : Nat) : s.bitsFrom k (n + 1) = s.bitsFrom k n ++ [s.lsb (k + n)] := by
  rw [bitsFrom_append]
  simp [bitsFrom]

theorem bitsFrom_congr {s t : State} {k n : Nat} (h : ∀ i < n, t.lsb (k + i) = s.lsb (k + i)) :
    t.bitsFrom k n = s.bitsFrom k n := by
  unfold bitsFrom
  apply List.map_congr_left
  intro i hi
  exact h i (List.mem_range.1 hi)

theorem take_drop_bitsFrom (k n a b : Nat) (h : a + b ≤ n) :
    ((s.bitsFrom k n).drop a).take b = s.bitsFrom (k + a) b := by
  apply List.ext_getElem?
  intro i
  rw [List.getElem?_take, List.getElem?_drop, getElem?_bitsFrom, getElem?_bitsFrom]
  by_cases hi : i < b
  · rw [if_pos hi, if_pos (by omega), if_pos hi, Nat.add_assoc]
  · rw [if_neg hi, if_neg hi]

/-- The decoded value of a run of sample LSBs is the weighted sum of R93. -/
theorem decodeInt_bitsFrom (k w : Nat) : decodeInt (s.bitsFrom k w) = s.fieldValue k w := by
  unfold fieldValue
  induction w with
  | zero => rfl
  | succ n ih =>
    rw [bitsFrom_succ, decodeInt_concat, ih, Finset.sum_range_succ, Finset.mul_sum]
    congr 1
    · apply Finset.sum_congr rfl
      intro i hi
      have h1 : i < n := Finset.mem_range.1 hi
      have h2 : n + 1 - 1 - i = (n - 1 - i) + 1 := by omega
      rw [h2, pow_succ]
      ring
    · simp

theorem fieldValue_lt (k w : Nat) : s.fieldValue k w < 2 ^ w := by
  rw [← decodeInt_bitsFrom]
  simpa using decodeInt_lt (s.bitsFrom k w)

/-! ### Buffers and text -/

theorem bufByte_setBuf_set (sel : BufSel) (i : Nat) (b : Byte) (j : Nat) :
    (s.setBuf sel ((s.buf sel).set i b)).bufByte sel j = if j = i then b else s.bufByte sel j := by
  unfold bufByte
  rw [buf_setBuf, Memory.get?_set, setBuf_epoch]
  split <;> rfl

theorem bufByte_congr {s t : State} {sel : BufSel} (hb : t.buf sel = s.buf sel) (he : t.epoch = s.epoch) (i : Nat) :
    t.bufByte sel i = s.bufByte sel i := by unfold bufByte; rw [hb, he]

theorem buf_storeText (sel : BufSel) (t : List Byte) : (s.storeText sel t).buf sel = (s.buf sel).store 0 t := by
  unfold storeText; rw [buf_setBuf]

theorem buf_storeText_ne {sel sel' : BufSel} (h : sel' ≠ sel) (t : List Byte) :
    (s.storeText sel t).buf sel' = s.buf sel' := buf_setBuf_ne s h _

@[simp] theorem storeText_pass_mbuf (t : List Byte) : (s.storeText .pass t).mbuf = s.mbuf := rfl
@[simp] theorem storeText_pass_pbuf (t : List Byte) : (s.storeText .pass t).pbuf = s.pbuf.store 0 t := rfl
@[simp] theorem storeText_msg_pbuf (t : List Byte) : (s.storeText .msg t).pbuf = s.pbuf := rfl
@[simp] theorem storeText_msg_mbuf (t : List Byte) : (s.storeText .msg t).mbuf = s.mbuf.store 0 t := rfl

/-- Everything a delivery of text does to the bytes of its buffer. -/
theorem bufByte_storeText (sel : BufSel) (t : List Byte) (i : Nat) :
    (s.storeText sel t).bufByte sel i = if i < t.length then t.getD i 0 else s.bufByte sel i := by
  unfold bufByte
  rw [buf_storeText, Memory.get?_store, storeText_epoch]
  by_cases h : i < t.length
  · simp [h]
  · simp [h]

theorem bufByte_storeText_ne {sel sel' : BufSel} (h : sel' ≠ sel) (t : List Byte) (i : Nat) :
    (s.storeText sel t).bufByte sel' i = s.bufByte sel' i :=
  bufByte_congr (buf_storeText_ne s h t) (storeText_epoch s sel t) i

/-- A delivery of text changes its buffer and nothing else. -/
theorem setBuf_storeText (sel : BufSel) (t : List Byte) (m : Memory) :
    (s.storeText sel t).setBuf sel m = s.setBuf sel m := setBuf_setBuf s sel _ m

@[simp] theorem length_text (sel : BufSel) : (s.text sel).length = s.len sel := by simp [text]

theorem getElem?_text (sel : BufSel) (i : Nat) :
    (s.text sel)[i]? = if i < s.len sel then some (s.bufByte sel i) else none := by
  unfold text
  rw [List.getElem?_map]
  split
  · rename_i h; rw [List.getElem?_range h]; rfl
  · rename_i h; rw [List.getElem?_eq_none (by simpa using h)]; rfl

theorem text_congr {s t : State} {sel : BufSel} (hl : t.len sel = s.len sel)
    (h : ∀ i < s.len sel, t.bufByte sel i = s.bufByte sel i) : t.text sel = s.text sel := by
  unfold text
  rw [hl]
  exact List.map_congr_left fun i hi => h i (List.mem_range.1 hi)

theorem text_eq_of_bytes {s : State} {sel : BufSel} {p : List Byte} (hl : s.len sel = p.length)
    (h : ∀ i (hi : i < p.length), s.bufByte sel i = p[i]) : s.text sel = p := by
  apply List.ext_getElem?
  intro i
  rw [getElem?_text, hl]
  split
  · rename_i hi; rw [List.getElem?_eq_getElem hi, h i hi]
  · rename_i hi; rw [List.getElem?_eq_none (by omega)]

/-! ### The container -/

@[simp] theorem length_container : s.container.length = s.containerLength := by
  simp [container, containerLength, len]; ring

/-- The container of the state is CB of its passcode and message. -/
theorem containerOf_text : containerOf (s.text .pass) (s.text .msg) = some s.container := by
  have hp : (s.text .pass).length = s.plen.toNat := length_text s .pass
  have hm : (s.text .msg).length = s.mlen.toNat := length_text s .msg
  rw [containerOf_eq (by rw [hp]; exact s.plen.isLt) (by rw [hm]; exact s.mlen.isLt)]
  simp [container, len]

/-- The container on demand is the container built whole. -/
theorem getElem?_container {k : Nat} (hk : k < s.containerLength) : s.container[k]? = some (s.containerBitAt k) := by
  have hp : (s.text .pass).length = s.plen.toNat := length_text s .pass
  have hm : (s.text .msg).length = s.mlen.toNat := length_text s .msg
  unfold containerLength at hk
  unfold container
  rw [getElem?_containerBits _ _ _ _ hp _ (by omega)]
  unfold containerBitAt containerBit
  have key : ∀ (sel : BufSel) i, i < s.len sel → (s.text sel).getD i 0 = s.bufByte sel i := by
    intro sel i hi
    rw [List.getD_eq_getElem?_getD, getElem?_text, if_pos hi]; rfl
  split
  · rfl
  · split
    · dsimp only; rw [key .pass _ (by simp only [len]; omega)]
    · split
      · rfl
      · dsimp only; rw [key .msg _ (by simp only [len]; omega)]

theorem containerBitAt_congr {s t : State} (hp : t.plen = s.plen) (hm : t.mlen = s.mlen) (hpb : t.pbuf = s.pbuf)
    (hmb : t.mbuf = s.mbuf) (he : t.epoch = s.epoch) (k : Nat) : t.containerBitAt k = s.containerBitAt k := by
  have h1 : t.bufByte .pass = s.bufByte .pass := funext fun i => bufByte_congr (sel := .pass) hpb he i
  have h2 : t.bufByte .msg = s.bufByte .msg := funext fun i => bufByte_congr (sel := .msg) hmb he i
  unfold containerBitAt
  rw [hp, hm, h1, h2]

theorem container_congr {s t : State} (hp : t.plen = s.plen) (hm : t.mlen = s.mlen)
    (h1 : ∀ i < s.plen.toNat, t.bufByte .pass i = s.bufByte .pass i)
    (h2 : ∀ i < s.mlen.toNat, t.bufByte .msg i = s.bufByte .msg i) : t.container = s.container := by
  unfold container
  rw [hp, hm, text_congr (sel := .pass) (by simp [len, hp]) h1, text_congr (sel := .msg) (by simp [len, hm]) h2]

/-! ### Cursors -/

theorem numSamples_lt : s.numSamples < 2 ^ 40 := by
  unfold numSamples
  have h1 : s.rows.toNat ≤ 65535 := by have := s.rows.isLt; omega
  have h2 : s.cols.toNat ≤ 65535 := by have := s.cols.isLt; omega
  have h3 : s.chans.toNat ≤ 255 := by have := s.chans.isLt; omega
  calc s.rows.toNat * s.cols.toNat * s.chans.toNat
      ≤ 65535 * 65535 * 255 := Nat.mul_le_mul (Nat.mul_le_mul h1 h2) h3
    _ < 2 ^ 40 := by decide

theorem setCursor_zero : s.setCursor 0 = s.zeroCursors := by
  simp [setCursor, zeroCursors, cursorCoords, coords]

end State

/-! ### Grid arithmetic -/

theorem coords_zero (cols chans : Nat) : coords cols chans 0 = (0, 0, 0) := by simp [coords]

theorem linearIndex_lt {rows cols chans r c ch : Nat} (hr : r < rows) (hc : c < cols) (hch : ch < chans) :
    linearIndex cols chans r c ch < rows * cols * chans := by
  unfold linearIndex
  have h1 : r * cols + c + 1 ≤ rows * cols := by nlinarith
  nlinarith

theorem coords_linearIndex {cols chans r c ch : Nat} (hc : c < cols) (hch : ch < chans) :
    coords cols chans (linearIndex cols chans r c ch) = (r, c, ch) := by
  unfold coords linearIndex
  have hch0 : 0 < chans := by omega
  have hc0 : 0 < cols := by omega
  have h1 : ((r * cols + c) * chans + ch) / chans = r * cols + c := by
    rw [Nat.mul_comm, Nat.mul_add_div hch0, Nat.div_eq_of_lt hch, Nat.add_zero]
  have h2 : (r * cols + c) / cols = r := by
    rw [Nat.mul_comm, Nat.mul_add_div hc0, Nat.div_eq_of_lt hc, Nat.add_zero]
  have h3 : ((r * cols + c) * chans + ch) % chans = ch := by
    rw [Nat.mul_comm, Nat.mul_add_mod, Nat.mod_eq_of_lt hch]
  have h4 : (r * cols + c) % cols = c := by
    rw [Nat.mul_comm, Nat.mul_add_mod, Nat.mod_eq_of_lt hc]
  rw [Nat.mul_comm cols chans, ← Nat.div_div_eq_div_mul, h1, h2, h3, h4]

theorem linearIndex_coords (cols chans k : Nat) :
    linearIndex cols chans (coords cols chans k).1 (coords cols chans k).2.1 (coords cols chans k).2.2 = k := by
  unfold coords linearIndex
  simp only
  rw [Nat.mul_comm cols chans, ← Nat.div_div_eq_div_mul, Nat.mul_comm (k / chans / cols), Nat.div_add_mod,
    Nat.mul_comm, Nat.div_add_mod]

theorem coords_lt {rows cols chans k : Nat} (hk : k < rows * cols * chans) :
    (coords cols chans k).1 < rows ∧ (coords cols chans k).2.1 < cols ∧ (coords cols chans k).2.2 < chans := by
  have h0 : 0 < rows * cols * chans := by omega
  have hch : 0 < chans := Nat.pos_of_mul_pos_left h0
  have hc : 0 < cols := Nat.pos_of_mul_pos_left (Nat.pos_of_mul_pos_right h0)
  refine ⟨?_, Nat.mod_lt _ hc, Nat.mod_lt _ hch⟩
  unfold coords
  rw [Nat.div_lt_iff_lt_mul (Nat.mul_pos hc hch)]
  rw [← Nat.mul_assoc]
  exact hk

theorem coords_end {rows cols chans : Nat} (h : 0 < rows * cols * chans) :
    coords cols chans (rows * cols * chans) = (rows, 0, 0) := by
  have hch : 0 < chans := Nat.pos_of_mul_pos_left h
  have hc : 0 < cols := Nat.pos_of_mul_pos_left (Nat.pos_of_mul_pos_right h)
  unfold coords
  rw [Nat.mul_div_cancel _ hch, Nat.mul_mod_left, Nat.mul_mod_left, Nat.mul_assoc,
    Nat.mul_div_cancel _ (Nat.mul_pos hc hch)]

/-- One sample further, the coordinates advance by the rule of R35. -/
theorem coords_succ {rows cols chans k : Nat} (hk : k < rows * cols * chans) :
    coords cols chans (k + 1) =
      if (coords cols chans k).2.2 + 1 = chans then
        if (coords cols chans k).2.1 + 1 = cols then ((coords cols chans k).1 + 1, 0, 0)
        else ((coords cols chans k).1, (coords cols chans k).2.1 + 1, 0)
      else ((coords cols chans k).1, (coords cols chans k).2.1, (coords cols chans k).2.2 + 1) := by
  obtain ⟨hr, hc, hch⟩ := coords_lt hk
  have hk' := linearIndex_coords cols chans k
  generalize coords cols chans k = p at *
  obtain ⟨r, c, ch⟩ := p
  simp only at hr hc hch hk' ⊢
  subst hk'
  split
  · rename_i h1
    split
    · rename_i h2
      have : linearIndex cols chans r c ch + 1 = linearIndex cols chans (r + 1) 0 0 := by
        unfold linearIndex; subst h1; subst h2; ring
      rw [this, coords_linearIndex (by omega) (by omega)]
    · have : linearIndex cols chans r c ch + 1 = linearIndex cols chans r (c + 1) 0 := by
        unfold linearIndex; subst h1; ring
      rw [this, coords_linearIndex (by omega) (by omega)]
  · have : linearIndex cols chans r c ch + 1 = linearIndex cols chans r c (ch + 1) := by
      unfold linearIndex; ring
    rw [this, coords_linearIndex hc (by omega)]

namespace State

variable (s : State)

/-- The cursors after `setCursor`: both stand at k, which no register truncates as long as k ≤ N. -/
theorem cursorAt_setCursor {k : Nat} (hk : k ≤ s.numSamples) : (s.setCursor k).CursorAt k := by
  have hN := s.numSamples_lt
  unfold CursorAt
  have hb : (s.setCursor k).bcur.toNat = k := by
    rw [setCursor_bcur, BitVec.toNat_ofNat, Nat.mod_eq_of_lt (by omega)]
  refine ⟨hb, ?_⟩
  simp only [setCursor_scurR, setCursor_scurC, setCursor_scurCh, setCursor_cols, setCursor_chans,
    BitVec.toNat_ofNat, cursorCoords]
  by_cases h0 : s.numSamples = 0
  · have : k = 0 := by omega
    subst this
    simp [h0, coords_zero]
  · rw [if_neg h0]
    have hr := s.rows.isLt
    have hc := s.cols.isLt
    have hch := s.chans.isLt
    rcases Nat.lt_or_eq_of_le hk with hlt | heq
    · obtain ⟨h1, h2, h3⟩ := coords_lt (rows := s.rows.toNat) hlt
      rw [Nat.mod_eq_of_lt (by omega), Nat.mod_eq_of_lt (by omega), Nat.mod_eq_of_lt (by omega)]
    · have := coords_end (rows := s.rows.toNat) (cols := s.cols.toNat) (chans := s.chans.toNat)
        (Nat.pos_of_ne_zero h0)
      rw [heq]
      unfold numSamples
      rw [this]
      simp [Nat.mod_eq_of_lt hr]

/-- A position of the traversal satisfies the cursor invariant of R36. -/
theorem cursorInv_of_cursorAt {k : Nat} (h : s.CursorAt k) (hk : k ≤ s.numSamples) : s.CursorInv := by
  obtain ⟨hb, hc⟩ := h
  unfold CursorInv
  split
  · rename_i h0
    have : k = 0 := by omega
    subst this
    rw [coords_zero] at hc
    simp only [Prod.mk.injEq] at hc
    exact ⟨BitVec.eq_of_toNat_eq hb, BitVec.eq_of_toNat_eq hc.1, BitVec.eq_of_toNat_eq hc.2.1,
      BitVec.eq_of_toNat_eq hc.2.2⟩
  · rename_i h0
    have hl := linearIndex_coords s.cols.toNat s.chans.toNat k
    rw [← hc] at hl
    simp only at hl
    refine ⟨hb.trans hl.symm, ?_⟩
    rcases Nat.lt_or_eq_of_le hk with hlt | heq
    · obtain ⟨h1, h2, h3⟩ := coords_lt (rows := s.rows.toNat) hlt
      rw [← hc] at h1 h2 h3
      simp only at h1 h2 h3
      refine ⟨h2, h3, by omega, ⟨fun h => by omega, fun h => by omega⟩, fun h => by omega⟩
    · have he := coords_end (rows := s.rows.toNat) (cols := s.cols.toNat) (chans := s.chans.toNat)
        (Nat.pos_of_ne_zero h0)
      rw [heq] at hc hb
      unfold numSamples at hc
      rw [he] at hc
      simp only [Prod.mk.injEq] at hc
      have hch : 0 < s.chans.toNat := Nat.pos_of_mul_pos_left (Nat.pos_of_ne_zero h0)
      have hcl : 0 < s.cols.toNat := Nat.pos_of_mul_pos_left (Nat.pos_of_mul_pos_right (Nat.pos_of_ne_zero h0))
      refine ⟨by omega, by omega, by omega, ⟨fun _ => hb, fun _ => hc.1⟩, fun _ =>
        ⟨BitVec.eq_of_toNat_eq hc.2.1, BitVec.eq_of_toNat_eq hc.2.2⟩⟩

/-- One sequencer step moves the cursors from position k to k + 1. -/
theorem cursorAt_advance {k : Nat} (h : s.CursorAt k) (hk : k < s.numSamples) : s.advance.CursorAt (k + 1) := by
  obtain ⟨hb, hc⟩ := h
  have hN := s.numSamples_lt
  have hr := s.rows.isLt
  have hcl := s.cols.isLt
  have hch := s.chans.isLt
  have hb' : (s.bcur + 1#40).toNat = k + 1 := by
    rw [BitVec.toNat_add, hb]
    simp only [BitVec.toNat_ofNat]
    rw [Nat.mod_eq_of_lt (by norm_num : 1 < 2 ^ 40), Nat.mod_eq_of_lt (by omega)]
  obtain ⟨h1, h2, h3⟩ := coords_lt (rows := s.rows.toNat) hk
  have hs := coords_succ (rows := s.rows.toNat) hk
  unfold CursorAt
  rw [advance_cols, advance_chans, hs, ← hc]
  rw [← hc] at h1 h2 h3
  simp only at h1 h2 h3 ⊢
  have add16 : ∀ v : BitVec 16, v.toNat < 65535 → (v + 1#16).toNat = v.toNat + 1 := by
    intro v hv
    rw [BitVec.toNat_add]
    simp only [BitVec.toNat_ofNat]
    rw [Nat.mod_eq_of_lt (by norm_num : 1 < 2 ^ 16), Nat.mod_eq_of_lt (by omega)]
  have add8 : (s.scurCh.toNat + 1 < 256) → (s.scurCh + 1#8).toNat = s.scurCh.toNat + 1 := by
    intro hv
    rw [BitVec.toNat_add]
    simp only [BitVec.toNat_ofNat]
    rw [Nat.mod_eq_of_lt (by norm_num : 1 < 2 ^ 8), Nat.mod_eq_of_lt (by omega)]
  unfold advance
  simp only
  split
  · split
    · exact ⟨hb', by simp [add16 s.scurR (by omega)]⟩
    · exact ⟨hb', by simp [add16 s.scurC (by omega)]⟩
  · exact ⟨hb', by simp only [Prod.mk.injEq, true_and]; rw [add8 (by omega)]⟩

/-- The sample under the sample cursor is the one the bit cursor names (R156: "equals MemRead(GRID, k)"). -/
theorem cursorSample_of_cursorAt {k : Nat} (h : s.CursorAt k) : s.cursorSample = s.sample k := by
  have hl := linearIndex_coords s.cols.toNat s.chans.toNat k
  rw [← h.2] at hl
  unfold cursorSample
  rw [hl]

/-- Two states that differ only in cursors standing at the same position are equal. -/
theorem eq_setCursor_of_cursorAt {s t : State} {k : Nat} (h : t.CursorAt k) (hk : k ≤ s.numSamples)
    (hst : t.withCursorsOf s = s) : t = s.setCursor k := by
  have hset := cursorAt_setCursor s hk
  have hcols : t.cols = s.cols := by rw [← hst]; rfl
  have hchans : t.chans = s.chans := by rw [← hst]; rfl
  have e1 : t.bcur = (s.setCursor k).bcur := BitVec.eq_of_toNat_eq (h.1.trans hset.1.symm)
  have e2 : (t.scurR.toNat, t.scurC.toNat, t.scurCh.toNat) =
      ((s.setCursor k).scurR.toNat, (s.setCursor k).scurC.toNat, (s.setCursor k).scurCh.toNat) := by
    rw [h.2, hset.2, hcols, hchans]; rfl
  simp only [Prod.mk.injEq] at e2
  have e3 : t.scurR = (s.setCursor k).scurR := BitVec.eq_of_toNat_eq e2.1
  have e4 : t.scurC = (s.setCursor k).scurC := BitVec.eq_of_toNat_eq e2.2.1
  have e5 : t.scurCh = (s.setCursor k).scurCh := BitVec.eq_of_toNat_eq e2.2.2
  calc t = { t.withCursorsOf s with bcur := t.bcur, scurR := t.scurR, scurC := t.scurC, scurCh := t.scurCh } := rfl
    _ = s.setCursor k := by rw [hst, e1, e3, e4, e5]; rfl

/-! ### What a command's end and a cursor move leave readable -/

@[simp] theorem sample_finish (op : BitVec 8) (o : CmdOutcome) (k : Nat) :
    (s.finish op o).sample k = s.sample k := (rfl)
@[simp] theorem lsb_finish (op : BitVec 8) (o : CmdOutcome) (k : Nat) :
    (s.finish op o).lsb k = s.lsb k := (rfl)
@[simp] theorem bitsFrom_finish (op : BitVec 8) (o : CmdOutcome) (k n : Nat) :
    (s.finish op o).bitsFrom k n = s.bitsFrom k n := (rfl)
@[simp] theorem fieldValue_finish (op : BitVec 8) (o : CmdOutcome) (k n : Nat) :
    (s.finish op o).fieldValue k n = s.fieldValue k n := (rfl)
@[simp] theorem buf_finish (op : BitVec 8) (o : CmdOutcome) (sel : BufSel) :
    (s.finish op o).buf sel = s.buf sel := (rfl)
@[simp] theorem len_finish (op : BitVec 8) (o : CmdOutcome) (sel : BufSel) :
    (s.finish op o).len sel = s.len sel := (rfl)
@[simp] theorem bufByte_finish (op : BitVec 8) (o : CmdOutcome) (sel : BufSel) (i : Nat) :
    (s.finish op o).bufByte sel i = s.bufByte sel i := (rfl)
@[simp] theorem text_finish (op : BitVec 8) (o : CmdOutcome) (sel : BufSel) :
    (s.finish op o).text sel = s.text sel := (rfl)
@[simp] theorem containerLength_finish (op : BitVec 8) (o : CmdOutcome) :
    (s.finish op o).containerLength = s.containerLength := (rfl)
@[simp] theorem container_finish (op : BitVec 8) (o : CmdOutcome) :
    (s.finish op o).container = s.container := (rfl)
@[simp] theorem containerBitAt_finish (op : BitVec 8) (o : CmdOutcome) (k : Nat) :
    (s.finish op o).containerBitAt k = s.containerBitAt k := (rfl)
@[simp] theorem sample_setCursor (k : Nat) (j : Nat) : (s.setCursor k).sample j = s.sample j := (rfl)
@[simp] theorem lsb_setCursor (k : Nat) (j : Nat) : (s.setCursor k).lsb j = s.lsb j := (rfl)
@[simp] theorem bitsFrom_setCursor (k : Nat) (j n : Nat) : (s.setCursor k).bitsFrom j n = s.bitsFrom j n := (rfl)
@[simp] theorem fieldValue_setCursor (k : Nat) (j n : Nat) : (s.setCursor k).fieldValue j n = s.fieldValue j n := (rfl)
@[simp] theorem buf_setCursor (k : Nat) (sel : BufSel) : (s.setCursor k).buf sel = s.buf sel := (rfl)
@[simp] theorem len_setCursor (k : Nat) (sel : BufSel) : (s.setCursor k).len sel = s.len sel := (rfl)
@[simp] theorem bufByte_setCursor (k : Nat) (sel : BufSel) (i : Nat) : (s.setCursor k).bufByte sel i = s.bufByte sel i := (rfl)
@[simp] theorem text_setCursor (k : Nat) (sel : BufSel) : (s.setCursor k).text sel = s.text sel := (rfl)
@[simp] theorem containerLength_setCursor (k : Nat) : (s.setCursor k).containerLength = s.containerLength := (rfl)
@[simp] theorem container_setCursor (k : Nat) : (s.setCursor k).container = s.container := (rfl)
@[simp] theorem containerBitAt_setCursor (k : Nat) (j : Nat) : (s.setCursor k).containerBitAt j = s.containerBitAt j := (rfl)
@[simp] theorem bufByte_push (bits : Bits) (sel : BufSel) (i : Nat) :
    (s.push bits).bufByte sel i = s.bufByte sel i := (rfl)
@[simp] theorem len_push (bits : Bits) (sel : BufSel) : (s.push bits).len sel = s.len sel := (rfl)
@[simp] theorem text_push (bits : Bits) (sel : BufSel) : (s.push bits).text sel = s.text sel := (rfl)
@[simp] theorem bufByte_pop (n : Nat) (sel : BufSel) (i : Nat) : (s.pop n).bufByte sel i = s.bufByte sel i := (rfl)
@[simp] theorem len_pop (n : Nat) (sel : BufSel) : (s.pop n).len sel = s.len sel := (rfl)
@[simp] theorem text_pop (n : Nat) (sel : BufSel) : (s.pop n).text sel = s.text sel := (rfl)
@[simp] theorem len_storeText (sel sel' : BufSel) (t : List Byte) : (s.storeText sel t).len sel' = s.len sel' := by
  cases sel <;> rfl
@[simp] theorem cursorAt_finish (op : BitVec 8) (o : CmdOutcome) (k : Nat) :
    (s.finish op o).CursorAt k ↔ s.CursorAt k := Iff.rfl

/-- The last bit of a run is put last. -/
theorem putBits_concat (bs : Bits) (b : Bit) (k : Nat) :
    putBits (bs ++ [b]) k s =
      (putBits bs k s).setSample (k + bs.length) (setLsb ((putBits bs k s).sample (k + bs.length)) b) := by
  induction bs generalizing k s with
  | nil => rfl
  | cons c bs ih =>
    rw [List.cons_append, putBits, ih, putBits, List.length_cons, show k + 1 + bs.length = k + (bs.length + 1) by omega]

/-! ### A state with other cursors -/

theorem setCursor_withCursorsOf (s c : State) (k : Nat) : (s.withCursorsOf c).setCursor k = s.setCursor k := (rfl)
theorem bitsFrom_withCursorsOf (s c : State) (k n : Nat) : (s.withCursorsOf c).bitsFrom k n = s.bitsFrom k n := (rfl)
theorem numSamples_withCursorsOf (s c : State) : (s.withCursorsOf c).numSamples = s.numSamples := (rfl)
theorem storeText_withCursorsOf (s c : State) (sel : BufSel) (t : List Byte) :
    (s.withCursorsOf c).storeText sel t = (s.storeText sel t).withCursorsOf c := by cases sel <;> rfl
theorem setSample_withCursorsOf (s c : State) (k : Nat) (x : Byte) :
    (s.withCursorsOf c).setSample k x = (s.setSample k x).withCursorsOf c := (rfl)
theorem advance_withCursorsOf (s c : State) : s.advance.withCursorsOf c = s.withCursorsOf c := by
  unfold withCursorsOf; simp

/-- A state that agrees with u up to cursors is u with its own cursors. -/
theorem eq_withCursorsOf {t s u : State} (h : t.withCursorsOf s = u) : t = u.withCursorsOf t := by rw [← h]; rfl

end State

/-! ### The end of a command -/

/-- A command that has ended has a next state, and STATUS is all that ending it changes (R210). -/
theorem endWith_eq (s : State) (op : BitVec 8) (o : CmdOutcome) :
    endWith s op o = .next { s with status := statusWord op o } := rfl

end Sys2Proof.Machine
end

