-- ==== Sys2Proof/Laws/Commands.lean ====
section
/-! SUPPORT. What each command can do, said once: the cases of its result, in terms of the shared operations. -/

namespace Sys2Proof.Machine

theorem widthOk_iff (w : BitVec 8) : widthOk w = true ↔ 1 ≤ w.toNat ∧ w.toNat ≤ 32 := by simp [widthOk]

theorem State.hasRoom_iff (s : State) (n : Nat) : s.hasRoom n = true ↔ s.bq.length + n ≤ s.params.bqCap := by
  simp [State.hasRoom]

/-! ### The arms of `exec` -/

theorem exec_nop (s : State) : exec .nop s = execNop s := rfl
theorem exec_encint (w : BitVec 8) (s : State) : exec (.encint w) s = execEncint w s := rfl
theorem exec_decint (w : BitVec 8) (s : State) : exec (.decint w) s = execDecint w s := rfl
theorem exec_enctxt (sel : BufSel) (s : State) : exec (.enctxt sel) s = execEnctxt sel s := rfl
theorem exec_dectxt (sel : BufSel) (s : State) : exec (.dectxt sel) s = execDectxt sel s := rfl
theorem exec_bqclr (s : State) : exec .bqclr s = execBqclr s := rfl
theorem exec_embed (s : State) : exec .embed s = execEmbed s := rfl
theorem exec_extract (s : State) : exec .extract s = execExtract s := rfl

/-! ### The codec commands always end -/

theorem execEncint_cases {w : BitVec 8} {s t : State} (h : execEncint w s = .next t) :
    (widthOk w = false ∧ t = s.finish opEncint (.illegal .badOperand)) ∨
    (widthOk w = true ∧ 2 ^ w.toNat ≤ s.ival.toNat ∧ t = s.finish opEncint .rangeError) ∨
    (widthOk w = true ∧ s.ival.toNat < 2 ^ w.toNat ∧ s.hasRoom w.toNat = false ∧ t = s.finish opEncint .overflow) ∨
    (widthOk w = true ∧ s.ival.toNat < 2 ^ w.toNat ∧ s.hasRoom w.toNat = true ∧
      t = (s.push (bitsOf (BitVec.ofNat w.toNat s.ival.toNat))).finish opEncint .ok) := by
  unfold execEncint encintLegal endIllegal endWith at h
  split at h
  · rename_i hw
    by_cases hr : s.ival.toNat < 2 ^ w.toNat
    · rw [encodeInt_of_lt hr] at h
      dsimp only at h
      split at h
      · rename_i hroom
        exact .inr (.inr (.inr ⟨hw, hr, hroom, (Host.Outcome.next.inj h).symm⟩))
      · rename_i hroom
        exact .inr (.inr (.inl ⟨hw, hr, by simpa using hroom, (Host.Outcome.next.inj h).symm⟩))
    · rw [encodeInt_of_le (by omega)] at h
      exact .inr (.inl ⟨hw, by omega, (Host.Outcome.next.inj h).symm⟩)
  · rename_i hw
    exact .inl ⟨by simpa using hw, (Host.Outcome.next.inj h).symm⟩

theorem execDecint_cases {w : BitVec 8} {s t : State} (h : execDecint w s = .next t) :
    (widthOk w = false ∧ t = s.finish opDecint (.illegal .badOperand)) ∨
    (widthOk w = true ∧ s.bq.length < w.toNat ∧ t = s.finish opDecint .underflow) ∨
    (widthOk w = true ∧ w.toNat ≤ s.bq.length ∧
      t = State.finish { s.pop w.toNat with ival := BitVec.ofNat 32 (decodeInt (s.bq.take w.toNat)) } opDecint .ok) := by
  unfold execDecint decintLegal endIllegal endWith at h
  split at h
  · rename_i hw
    split at h
    · rename_i hr
      exact .inr (.inl ⟨hw, hr, (Host.Outcome.next.inj h).symm⟩)
    · rename_i hr
      exact .inr (.inr ⟨hw, by omega, (Host.Outcome.next.inj h).symm⟩)
  · rename_i hw
    exact .inl ⟨by simpa using hw, (Host.Outcome.next.inj h).symm⟩

theorem execEnctxt_cases {sel : BufSel} {s t : State} (h : execEnctxt sel s = .next t) :
    (s.hasRoom (8 * s.len sel) = false ∧ t = s.finish opEnctxt .overflow) ∨
    (s.hasRoom (8 * s.len sel) = true ∧ t = (s.push (encodeText (s.text sel))).finish opEnctxt .ok) := by
  unfold execEnctxt endWith at h
  split at h
  · rename_i hr; exact .inr ⟨hr, (Host.Outcome.next.inj h).symm⟩
  · rename_i hr; exact .inl ⟨by simpa using hr, (Host.Outcome.next.inj h).symm⟩

theorem execDectxt_cases {sel : BufSel} {s t : State} (h : execDectxt sel s = .next t) :
    (s.bq.length < 8 * s.len sel ∧ t = s.finish opDectxt .underflow) ∨
    (8 * s.len sel ≤ s.bq.length ∧
      t = ((s.pop (8 * s.len sel)).storeText sel (chars (s.len sel) (s.bq.take (8 * s.len sel)))).finish
        opDectxt .ok) := by
  unfold execDectxt endWith at h
  split at h
  · rename_i hr; exact .inl ⟨hr, (Host.Outcome.next.inj h).symm⟩
  · rename_i hr; exact .inr ⟨by omega, (Host.Outcome.next.inj h).symm⟩

/-! ### Where the codec commands end with OK -/

theorem execEncint_ok {w : BitVec 8} {s : State} (hw : widthOk w = true) (hr : s.ival.toNat < 2 ^ w.toNat)
    (hroom : s.hasRoom w.toNat = true) :
    execEncint w s = .next ((s.push (bitsOf (BitVec.ofNat w.toNat s.ival.toNat))).finish opEncint .ok) := by
  unfold execEncint encintLegal
  rw [if_pos hw, encodeInt_of_lt hr]
  dsimp only
  rw [if_pos hroom]; rfl

theorem execDecint_ok {w : BitVec 8} {s : State} (hw : widthOk w = true) (hr : w.toNat ≤ s.bq.length) :
    execDecint w s =
      .next (State.finish { s.pop w.toNat with ival := BitVec.ofNat 32 (decodeInt (s.bq.take w.toNat)) } opDecint .ok) := by
  unfold execDecint decintLegal; rw [if_pos hw, if_neg (by omega)]; rfl

theorem execEnctxt_ok {sel : BufSel} {s : State} (hroom : s.hasRoom (8 * s.len sel) = true) :
    execEnctxt sel s = .next ((s.push (encodeText (s.text sel))).finish opEnctxt .ok) := by
  unfold execEnctxt; rw [if_pos hroom]; rfl

theorem execDectxt_ok {sel : BufSel} {s : State} (hr : 8 * s.len sel ≤ s.bq.length) :
    execDectxt sel s =
      .next (((s.pop (8 * s.len sel)).storeText sel (chars (s.len sel) (s.bq.take (8 * s.len sel)))).finish
        opDectxt .ok) := by
  unfold execDectxt; rw [if_neg (by omega)]; rfl

/-! ### EMBED -/

theorem embedCheck_ok_iff (s : State) :
    embedCheck s = .ok ↔ s.plen ≠ 0#16 ∧ s.mlen ≠ 0#32 ∧ s.containerLength ≤ s.numSamples := by
  unfold embedCheck
  by_cases h1 : s.plen = 0#16
  · simp [h1]
  · by_cases h2 : s.mlen = 0#32
    · simp [h1, h2]
    · by_cases h3 : s.numSamples < s.containerLength
      · simp [h1, h2, h3]
      · simp [h1, h2, h3]; omega

theorem embedCheck_mem (s : State) : embedCheck s ∈ outcomesOf .embed := by
  rw [outcomesOf]
  unfold embedCheck
  by_cases h1 : s.plen = 0#16
  · simp [h1]
  · by_cases h2 : s.mlen = 0#32
    · simp [h1, h2]
    · by_cases h3 : s.numSamples < s.containerLength <;> simp [h1, h2, h3]

/-- EMBED of a container that fits. -/
theorem execEmbed_ok {s : State} (hc : s.numSamples ≤ s.params.gridCap) (h : embedCheck s = .ok) :
    execEmbed s = .next ((embedPayload s).finish opEmbed .ok) := by
  unfold execEmbed
  rw [if_neg (by omega), h]; rfl

/-- EMBED with a failed check. -/
theorem execEmbed_fail {s : State} (hc : s.numSamples ≤ s.params.gridCap) (h : embedCheck s ≠ .ok) :
    execEmbed s = .next ((s.setCursor 0).finish opEmbed (embedCheck s)) := by
  unfold execEmbed
  rw [if_neg (by omega)]
  split
  · contradiction
  · rfl

theorem execEmbed_cases {s t : State} (h : execEmbed s = .next t) :
    s.numSamples ≤ s.params.gridCap ∧
      ((embedCheck s ≠ .ok ∧ t = (s.setCursor 0).finish opEmbed (embedCheck s)) ∨
        (embedCheck s = .ok ∧ t = (embedPayload s).finish opEmbed .ok)) := by
  by_cases hc : s.params.gridCap < s.numSamples
  · unfold execEmbed at h; rw [if_pos hc] at h; exact nomatch h
  · have hc' : s.numSamples ≤ s.params.gridCap := by omega
    refine ⟨hc', ?_⟩
    by_cases hk : embedCheck s = .ok
    · rw [execEmbed_ok hc' hk] at h; exact .inr ⟨hk, (Host.Outcome.next.inj h).symm⟩
    · rw [execEmbed_fail hc' hk] at h; exact .inl ⟨hk, (Host.Outcome.next.inj h).symm⟩

/-- The payload state differs from the old one in the grid and the cursors only. -/
theorem embedPayload_eq (s : State) :
    embedPayload s = State.setCursor { s with grid := (State.putBits s.container 0 s).grid } s.containerLength := by
  unfold embedPayload
  rw [← State.putBits_eq]

@[simp] theorem embedPayload_params (s : State) : (embedPayload s).params = s.params := by rw [embedPayload_eq]; rfl
@[simp] theorem embedPayload_status (s : State) : (embedPayload s).status = s.status := by rw [embedPayload_eq]; rfl
@[simp] theorem embedPayload_rows (s : State) : (embedPayload s).rows = s.rows := by rw [embedPayload_eq]; rfl
@[simp] theorem embedPayload_cols (s : State) : (embedPayload s).cols = s.cols := by rw [embedPayload_eq]; rfl
@[simp] theorem embedPayload_chans (s : State) : (embedPayload s).chans = s.chans := by rw [embedPayload_eq]; rfl
@[simp] theorem embedPayload_plen (s : State) : (embedPayload s).plen = s.plen := by rw [embedPayload_eq]; rfl
@[simp] theorem embedPayload_mlen (s : State) : (embedPayload s).mlen = s.mlen := by rw [embedPayload_eq]; rfl
@[simp] theorem embedPayload_ival (s : State) : (embedPayload s).ival = s.ival := by rw [embedPayload_eq]; rfl
@[simp] theorem embedPayload_bq (s : State) : (embedPayload s).bq = s.bq := by rw [embedPayload_eq]; rfl
@[simp] theorem embedPayload_pbuf (s : State) : (embedPayload s).pbuf = s.pbuf := by rw [embedPayload_eq]; rfl
@[simp] theorem embedPayload_mbuf (s : State) : (embedPayload s).mbuf = s.mbuf := by rw [embedPayload_eq]; rfl
@[simp] theorem embedPayload_epoch (s : State) : (embedPayload s).epoch = s.epoch := by rw [embedPayload_eq]; rfl
@[simp] theorem embedPayload_pending (s : State) : (embedPayload s).pending = s.pending := by rw [embedPayload_eq]; rfl
@[simp] theorem embedPayload_reads (s : State) : (embedPayload s).reads = s.reads := by rw [embedPayload_eq]; rfl

@[simp] theorem embedPayload_numSamples (s : State) : (embedPayload s).numSamples = s.numSamples :=
  State.numSamples_congr (by simp) (by simp) (by simp)

@[simp] theorem embedPayload_bufByte (s : State) (sel : BufSel) (i : Nat) :
    (embedPayload s).bufByte sel i = s.bufByte sel i :=
  State.bufByte_congr (by cases sel <;> simp [State.buf]) (by simp) i

@[simp] theorem embedPayload_containerLength (s : State) : (embedPayload s).containerLength = s.containerLength := by
  unfold State.containerLength; simp

theorem embedPayload_cursorAt {s : State} (h : s.containerLength ≤ s.numSamples) :
    (embedPayload s).CursorAt s.containerLength := by
  unfold embedPayload
  exact State.cursorAt_setCursor _ (by rw [State.numSamples_putBits]; exact h)

theorem embedPayload_grid_wf {s : State} (h : s.grid.wf) : (embedPayload s).grid.wf :=
  State.grid_wf_putBits _ _ _ h

/-- Every sample of the payload is listed after EMBED's loop: it has been written. -/
theorem embedPayload_get? {s : State} {k : Nat} (hk : k < s.containerLength) :
    (embedPayload s).grid.get? k = some ((embedPayload s).sample k) := by
  have h : (embedPayload s).grid = (State.putBits s.container 0 s).grid := rfl
  have := State.get?_putBits s s.container 0 k ⟨Nat.zero_le _, by simpa using hk⟩
  unfold State.sample
  rw [h, this]
  rfl

theorem sample_embedPayload (s : State) (k : Nat) :
    (embedPayload s).sample k =
      if k < s.containerLength then setLsb (s.sample k) (s.container.getD k false) else s.sample k := by
  have h : (embedPayload s).sample k = (State.putBits s.container 0 s).sample k :=
    State.sample_congr rfl rfl k
  rw [h, State.sample_putBits]
  simp

/-! ### EXTRACT -/

/-- The state once PASSLEN has been delivered. -/
@[irreducible] def gotPasslen (s : State) : State := { s with plen := BitVec.ofNat 16 (s.fieldValue 0 16) }

/-- The state once PASS has been delivered. -/
@[irreducible] def gotPass (s : State) : State :=
  (gotPasslen s).storeText .pass (chars (s.fieldValue 0 16) (s.bitsFrom 16 (8 * s.fieldValue 0 16)))

/-- The position where MSGLEN starts. -/
def msglenPos (s : State) : Nat := 16 + 8 * s.fieldValue 0 16

/-- The state once MSGLEN has been delivered. -/
@[irreducible] def gotMsglen (s : State) : State := { gotPass s with mlen := BitVec.ofNat 32 (s.fieldValue (msglenPos s) 32) }

/-- The state once MSG has been delivered. -/
@[irreducible] def gotMsg (s : State) : State :=
  (gotMsglen s).storeText .msg
    (chars (s.fieldValue (msglenPos s) 32) (s.bitsFrom (msglenPos s + 32) (8 * s.fieldValue (msglenPos s) 32)))

@[simp] theorem gotPasslen_params (s : State) : (gotPasslen s).params = s.params := by simp only [gotPasslen]
@[simp] theorem gotPasslen_status (s : State) : (gotPasslen s).status = s.status := by simp only [gotPasslen]
@[simp] theorem gotPasslen_rows (s : State) : (gotPasslen s).rows = s.rows := by simp only [gotPasslen]
@[simp] theorem gotPasslen_cols (s : State) : (gotPasslen s).cols = s.cols := by simp only [gotPasslen]
@[simp] theorem gotPasslen_chans (s : State) : (gotPasslen s).chans = s.chans := by simp only [gotPasslen]
@[simp] theorem gotPasslen_mlen (s : State) : (gotPasslen s).mlen = s.mlen := by simp only [gotPasslen]
@[simp] theorem gotPasslen_ival (s : State) : (gotPasslen s).ival = s.ival := by simp only [gotPasslen]
@[simp] theorem gotPasslen_bcur (s : State) : (gotPasslen s).bcur = s.bcur := by simp only [gotPasslen]
@[simp] theorem gotPasslen_scurR (s : State) : (gotPasslen s).scurR = s.scurR := by simp only [gotPasslen]
@[simp] theorem gotPasslen_scurC (s : State) : (gotPasslen s).scurC = s.scurC := by simp only [gotPasslen]
@[simp] theorem gotPasslen_scurCh (s : State) : (gotPasslen s).scurCh = s.scurCh := by simp only [gotPasslen]
@[simp] theorem gotPasslen_bq (s : State) : (gotPasslen s).bq = s.bq := by simp only [gotPasslen]
@[simp] theorem gotPasslen_pbuf (s : State) : (gotPasslen s).pbuf = s.pbuf := by simp only [gotPasslen]
@[simp] theorem gotPasslen_mbuf (s : State) : (gotPasslen s).mbuf = s.mbuf := by simp only [gotPasslen]
@[simp] theorem gotPasslen_grid (s : State) : (gotPasslen s).grid = s.grid := by simp only [gotPasslen]
@[simp] theorem gotPasslen_epoch (s : State) : (gotPasslen s).epoch = s.epoch := by simp only [gotPasslen]
@[simp] theorem gotPasslen_pending (s : State) : (gotPasslen s).pending = s.pending := by simp only [gotPasslen]
@[simp] theorem gotPasslen_reads (s : State) : (gotPasslen s).reads = s.reads := by simp only [gotPasslen]

@[simp] theorem gotPasslen_numSamples (s : State) : (gotPasslen s).numSamples = s.numSamples :=
  State.numSamples_congr (by simp) (by simp) (by simp)

@[simp] theorem gotPasslen_bitsFrom (s : State) (k n : Nat) : (gotPasslen s).bitsFrom k n = s.bitsFrom k n :=
  State.bitsFrom_congr fun _ _ => State.lsb_congr (by simp) (by simp) _

@[simp] theorem gotPass_params (s : State) : (gotPass s).params = s.params := by rw [gotPass, State.storeText_params, gotPasslen_params]
@[simp] theorem gotPass_status (s : State) : (gotPass s).status = s.status := by rw [gotPass, State.storeText_status, gotPasslen_status]
@[simp] theorem gotPass_rows (s : State) : (gotPass s).rows = s.rows := by rw [gotPass, State.storeText_rows, gotPasslen_rows]
@[simp] theorem gotPass_cols (s : State) : (gotPass s).cols = s.cols := by rw [gotPass, State.storeText_cols, gotPasslen_cols]
@[simp] theorem gotPass_chans (s : State) : (gotPass s).chans = s.chans := by rw [gotPass, State.storeText_chans, gotPasslen_chans]
@[simp] theorem gotPass_mlen (s : State) : (gotPass s).mlen = s.mlen := by rw [gotPass, State.storeText_mlen, gotPasslen_mlen]
@[simp] theorem gotPass_ival (s : State) : (gotPass s).ival = s.ival := by rw [gotPass, State.storeText_ival, gotPasslen_ival]
@[simp] theorem gotPass_bcur (s : State) : (gotPass s).bcur = s.bcur := by rw [gotPass, State.storeText_bcur, gotPasslen_bcur]
@[simp] theorem gotPass_scurR (s : State) : (gotPass s).scurR = s.scurR := by rw [gotPass, State.storeText_scurR, gotPasslen_scurR]
@[simp] theorem gotPass_scurC (s : State) : (gotPass s).scurC = s.scurC := by rw [gotPass, State.storeText_scurC, gotPasslen_scurC]
@[simp] theorem gotPass_scurCh (s : State) : (gotPass s).scurCh = s.scurCh := by rw [gotPass, State.storeText_scurCh, gotPasslen_scurCh]
@[simp] theorem gotPass_bq (s : State) : (gotPass s).bq = s.bq := by rw [gotPass, State.storeText_bq, gotPasslen_bq]
@[simp] theorem gotPass_mbuf (s : State) : (gotPass s).mbuf = s.mbuf := by rw [gotPass, State.storeText_pass_mbuf, gotPasslen_mbuf]
@[simp] theorem gotPass_grid (s : State) : (gotPass s).grid = s.grid := by rw [gotPass, State.storeText_grid, gotPasslen_grid]
@[simp] theorem gotPass_epoch (s : State) : (gotPass s).epoch = s.epoch := by rw [gotPass, State.storeText_epoch, gotPasslen_epoch]
@[simp] theorem gotPass_pending (s : State) : (gotPass s).pending = s.pending := by rw [gotPass, State.storeText_pending, gotPasslen_pending]
@[simp] theorem gotPass_reads (s : State) : (gotPass s).reads = s.reads := by rw [gotPass, State.storeText_reads, gotPasslen_reads]

@[simp] theorem gotPass_numSamples (s : State) : (gotPass s).numSamples = s.numSamples :=
  State.numSamples_congr (by simp) (by simp) (by simp)

@[simp] theorem gotPass_bitsFrom (s : State) (k n : Nat) : (gotPass s).bitsFrom k n = s.bitsFrom k n :=
  State.bitsFrom_congr fun _ _ => State.lsb_congr (by simp) (by simp) _

@[simp] theorem gotMsglen_params (s : State) : (gotMsglen s).params = s.params := by simp only [gotMsglen, gotPass_params]
@[simp] theorem gotMsglen_status (s : State) : (gotMsglen s).status = s.status := by simp only [gotMsglen, gotPass_status]
@[simp] theorem gotMsglen_rows (s : State) : (gotMsglen s).rows = s.rows := by simp only [gotMsglen, gotPass_rows]
@[simp] theorem gotMsglen_cols (s : State) : (gotMsglen s).cols = s.cols := by simp only [gotMsglen, gotPass_cols]
@[simp] theorem gotMsglen_chans (s : State) : (gotMsglen s).chans = s.chans := by simp only [gotMsglen, gotPass_chans]
@[simp] theorem gotMsglen_ival (s : State) : (gotMsglen s).ival = s.ival := by simp only [gotMsglen, gotPass_ival]
@[simp] theorem gotMsglen_bcur (s : State) : (gotMsglen s).bcur = s.bcur := by simp only [gotMsglen, gotPass_bcur]
@[simp] theorem gotMsglen_scurR (s : State) : (gotMsglen s).scurR = s.scurR := by simp only [gotMsglen, gotPass_scurR]
@[simp] theorem gotMsglen_scurC (s : State) : (gotMsglen s).scurC = s.scurC := by simp only [gotMsglen, gotPass_scurC]
@[simp] theorem gotMsglen_scurCh (s : State) : (gotMsglen s).scurCh = s.scurCh := by simp only [gotMsglen, gotPass_scurCh]
@[simp] theorem gotMsglen_bq (s : State) : (gotMsglen s).bq = s.bq := by simp only [gotMsglen, gotPass_bq]
@[simp] theorem gotMsglen_mbuf (s : State) : (gotMsglen s).mbuf = s.mbuf := by simp only [gotMsglen, gotPass_mbuf]
@[simp] theorem gotMsglen_grid (s : State) : (gotMsglen s).grid = s.grid := by simp only [gotMsglen, gotPass_grid]
@[simp] theorem gotMsglen_epoch (s : State) : (gotMsglen s).epoch = s.epoch := by simp only [gotMsglen, gotPass_epoch]
@[simp] theorem gotMsglen_pending (s : State) : (gotMsglen s).pending = s.pending := by simp only [gotMsglen, gotPass_pending]
@[simp] theorem gotMsglen_reads (s : State) : (gotMsglen s).reads = s.reads := by simp only [gotMsglen, gotPass_reads]

@[simp] theorem gotMsglen_numSamples (s : State) : (gotMsglen s).numSamples = s.numSamples :=
  State.numSamples_congr (by simp) (by simp) (by simp)

@[simp] theorem gotMsglen_bitsFrom (s : State) (k n : Nat) : (gotMsglen s).bitsFrom k n = s.bitsFrom k n :=
  State.bitsFrom_congr fun _ _ => State.lsb_congr (by simp) (by simp) _

@[simp] theorem gotMsg_params (s : State) : (gotMsg s).params = s.params := by rw [gotMsg, State.storeText_params, gotMsglen_params]
@[simp] theorem gotMsg_status (s : State) : (gotMsg s).status = s.status := by rw [gotMsg, State.storeText_status, gotMsglen_status]
@[simp] theorem gotMsg_rows (s : State) : (gotMsg s).rows = s.rows := by rw [gotMsg, State.storeText_rows, gotMsglen_rows]
@[simp] theorem gotMsg_cols (s : State) : (gotMsg s).cols = s.cols := by rw [gotMsg, State.storeText_cols, gotMsglen_cols]
@[simp] theorem gotMsg_chans (s : State) : (gotMsg s).chans = s.chans := by rw [gotMsg, State.storeText_chans, gotMsglen_chans]
@[simp] theorem gotMsg_ival (s : State) : (gotMsg s).ival = s.ival := by rw [gotMsg, State.storeText_ival, gotMsglen_ival]
@[simp] theorem gotMsg_bcur (s : State) : (gotMsg s).bcur = s.bcur := by rw [gotMsg, State.storeText_bcur, gotMsglen_bcur]
@[simp] theorem gotMsg_scurR (s : State) : (gotMsg s).scurR = s.scurR := by rw [gotMsg, State.storeText_scurR, gotMsglen_scurR]
@[simp] theorem gotMsg_scurC (s : State) : (gotMsg s).scurC = s.scurC := by rw [gotMsg, State.storeText_scurC, gotMsglen_scurC]
@[simp] theorem gotMsg_scurCh (s : State) : (gotMsg s).scurCh = s.scurCh := by rw [gotMsg, State.storeText_scurCh, gotMsglen_scurCh]
@[simp] theorem gotMsg_bq (s : State) : (gotMsg s).bq = s.bq := by rw [gotMsg, State.storeText_bq, gotMsglen_bq]
@[simp] theorem gotMsg_grid (s : State) : (gotMsg s).grid = s.grid := by rw [gotMsg, State.storeText_grid, gotMsglen_grid]
@[simp] theorem gotMsg_epoch (s : State) : (gotMsg s).epoch = s.epoch := by rw [gotMsg, State.storeText_epoch, gotMsglen_epoch]
@[simp] theorem gotMsg_pending (s : State) : (gotMsg s).pending = s.pending := by rw [gotMsg, State.storeText_pending, gotMsglen_pending]
@[simp] theorem gotMsg_reads (s : State) : (gotMsg s).reads = s.reads := by rw [gotMsg, State.storeText_reads, gotMsglen_reads]

@[simp] theorem gotMsg_numSamples (s : State) : (gotMsg s).numSamples = s.numSamples :=
  State.numSamples_congr (by simp) (by simp) (by simp)

@[simp] theorem gotMsg_bitsFrom (s : State) (k n : Nat) : (gotMsg s).bitsFrom k n = s.bitsFrom k n :=
  State.bitsFrom_congr fun _ _ => State.lsb_congr (by simp) (by simp) _

/-! ### What EXTRACT has delivered, field by field -/

theorem gotPasslen_plen (s : State) : (gotPasslen s).plen.toNat = s.fieldValue 0 16 := by
  simp only [gotPasslen, BitVec.toNat_ofNat]
  exact Nat.mod_eq_of_lt (s.fieldValue_lt 0 16)

theorem gotPass_plen (s : State) : (gotPass s).plen.toNat = s.fieldValue 0 16 := by
  rw [gotPass, State.storeText_plen, gotPasslen_plen]

theorem gotMsglen_plen (s : State) : (gotMsglen s).plen.toNat = s.fieldValue 0 16 := by
  simp only [gotMsglen]
  exact gotPass_plen s

theorem gotMsg_plen (s : State) : (gotMsg s).plen.toNat = s.fieldValue 0 16 := by
  rw [gotMsg, State.storeText_plen, gotMsglen_plen]

theorem gotMsglen_mlen (s : State) : (gotMsglen s).mlen.toNat = s.fieldValue (msglenPos s) 32 := by
  simp only [gotMsglen, BitVec.toNat_ofNat]
  exact Nat.mod_eq_of_lt (s.fieldValue_lt (msglenPos s) 32)

theorem gotMsg_mlen (s : State) : (gotMsg s).mlen.toNat = s.fieldValue (msglenPos s) 32 := by
  rw [gotMsg, State.storeText_mlen, gotMsglen_mlen]

theorem gotPasslen_bufByte (s : State) (sel : BufSel) (i : Nat) : (gotPasslen s).bufByte sel i = s.bufByte sel i :=
  State.bufByte_congr (by cases sel <;> simp [State.buf]) (by simp) i

theorem gotPass_bufByte_pass (s : State) (i : Nat) :
    (gotPass s).bufByte .pass i =
      if i < s.fieldValue 0 16 then
        (chars (s.fieldValue 0 16) (s.bitsFrom 16 (8 * s.fieldValue 0 16))).getD i 0
      else s.bufByte .pass i := by
  rw [gotPass, State.bufByte_storeText, length_chars, gotPasslen_bufByte]

theorem gotMsglen_bufByte_pass (s : State) (i : Nat) : (gotMsglen s).bufByte .pass i = (gotPass s).bufByte .pass i :=
  State.bufByte_congr (by simp only [State.buf, gotMsglen]) (by simp) i

theorem gotMsg_bufByte_pass (s : State) (i : Nat) : (gotMsg s).bufByte .pass i = (gotPass s).bufByte .pass i := by
  rw [gotMsg, State.bufByte_storeText_ne _ (by decide), gotMsglen_bufByte_pass]

theorem gotMsg_bufByte_msg (s : State) (i : Nat) :
    (gotMsg s).bufByte .msg i =
      if i < s.fieldValue (msglenPos s) 32 then
        (chars (s.fieldValue (msglenPos s) 32)
          (s.bitsFrom (msglenPos s + 32) (8 * s.fieldValue (msglenPos s) 32))).getD i 0
      else s.bufByte .msg i := by
  have h : (gotMsglen s).bufByte .msg i = s.bufByte .msg i := State.bufByte_congr (by simp [State.buf]) (by simp) i
  rw [gotMsg, State.bufByte_storeText, length_chars, h]

/-- Character i of a text field is the value of the eight container bits it stands in (R171). -/
theorem chars_bitsFrom (s : State) (k n i : Nat) (h : i < n) :
    ((chars n (s.bitsFrom k (8 * n))).getD i 0).toNat = s.fieldValue (k + 8 * i) 8 := by
  rw [List.getD_eq_getElem?_getD, getElem?_chars, if_pos h]
  simp only [Option.getD_some]
  rw [State.take_drop_bitsFrom _ _ _ _ _ (by omega), State.decodeInt_bitsFrom, BitVec.toNat_ofNat]
  exact Nat.mod_eq_of_lt (s.fieldValue_lt _ 8)

/-- EXTRACT's whole result, field by field. -/
theorem execExtract_eq (s : State) :
    execExtract s =
      if s.params.gridCap < s.numSamples then .refused .gridBeyondStore
      else if s.numSamples < 16 then truncateAt s .passlen 0
      else if s.numSamples < msglenPos s then truncateAt (gotPasslen s) .pass 16
      else if s.numSamples < msglenPos s + 32 then truncateAt (gotPass s) .msglen (msglenPos s)
      else if s.numSamples < msglenPos s + 32 + 8 * s.fieldValue (msglenPos s) 32 then
        truncateAt (gotMsglen s) .msg (msglenPos s + 32)
      else endWith ((gotMsg s).setCursor (msglenPos s + 32 + 8 * s.fieldValue (msglenPos s) 32)) opExtract .ok := by
  have h1 : { s with plen := BitVec.ofNat 16 (s.fieldValue 0 16) } = gotPasslen s := by rw [gotPasslen]
  have h2 : (gotPasslen s).storeText .pass (chars (s.fieldValue 0 16) (s.bitsFrom 16 (8 * s.fieldValue 0 16))) =
      gotPass s := by rw [gotPass]
  have h3 : { gotPass s with mlen := BitVec.ofNat 32 (s.fieldValue (msglenPos s) 32) } = gotMsglen s := by
    rw [gotMsglen]
  have hpos : 16 + 8 * s.fieldValue 0 16 = msglenPos s := rfl
  unfold execExtract extractPasslen
  rw [Nat.zero_add, State.decodeInt_bitsFrom, h1]
  unfold extractPass
  rw [gotPasslen_numSamples, gotPasslen_bitsFrom, h2, hpos]
  unfold extractMsglen
  rw [gotPass_numSamples, gotPass_bitsFrom, State.decodeInt_bitsFrom, h3]
  unfold extractMsg
  rw [gotMsglen_numSamples, gotMsglen_bitsFrom, gotMsg]

theorem execExtract_cases {s t : State} (h : execExtract s = .next t) :
    s.numSamples ≤ s.params.gridCap ∧
    ((s.numSamples < 16 ∧ t = (s.setCursor 0).finish opExtract (.truncated .passlen)) ∨
      (16 ≤ s.numSamples ∧ s.numSamples < msglenPos s ∧
        t = ((gotPasslen s).setCursor 16).finish opExtract (.truncated .pass)) ∨
      (msglenPos s ≤ s.numSamples ∧ s.numSamples < msglenPos s + 32 ∧
        t = ((gotPass s).setCursor (msglenPos s)).finish opExtract (.truncated .msglen)) ∨
      (msglenPos s + 32 ≤ s.numSamples ∧ s.numSamples < msglenPos s + 32 + 8 * s.fieldValue (msglenPos s) 32 ∧
        t = ((gotMsglen s).setCursor (msglenPos s + 32)).finish opExtract (.truncated .msg)) ∨
      (msglenPos s + 32 + 8 * s.fieldValue (msglenPos s) 32 ≤ s.numSamples ∧
        t = ((gotMsg s).setCursor (msglenPos s + 32 + 8 * s.fieldValue (msglenPos s) 32)).finish opExtract .ok)) := by
  rw [execExtract_eq] at h
  unfold truncateAt endWith at h
  split at h
  · exact nomatch h
  · refine ⟨by omega, ?_⟩
    split at h
    · exact .inl ⟨by assumption, (Host.Outcome.next.inj h).symm⟩
    · split at h
      · exact .inr (.inl ⟨by omega, by assumption, (Host.Outcome.next.inj h).symm⟩)
      · split at h
        · exact .inr (.inr (.inl ⟨by omega, by assumption, (Host.Outcome.next.inj h).symm⟩))
        · split at h
          · exact .inr (.inr (.inr (.inl ⟨by omega, by assumption, (Host.Outcome.next.inj h).symm⟩)))
          · exact .inr (.inr (.inr (.inr ⟨by omega, (Host.Outcome.next.inj h).symm⟩)))

end Sys2Proof.Machine
end

