-- ==== Sys2Proof/Laws/HostPort.lean ====
section
/-! SUPPORT. What a transaction and a step can do, said once; where a command answers; and that what is still pending
has no influence on a transaction. -/

namespace Sys2Proof.Machine

/-! ### Steps -/

/-- What a step can do: nothing, or the transaction at the head of the script. -/
theorem step_cases {s t : State} (h : step s = .next t) :
    (s.pending = [] ∧ t = s) ∨
      ∃ op rest, s.pending = op :: rest ∧ perform op { s with pending := rest } = .next t := by
  unfold step performNext at h
  split at h
  · exact .inl ⟨by assumption, (Host.Outcome.next.inj h).symm⟩
  · exact .inr ⟨_, _, by assumption, h⟩

theorem step_of_pending {s : State} {op : HostOp} {rest : List HostOp} (h : s.pending = op :: rest) :
    step s = perform op { s with pending := rest } := by
  unfold step performNext
  rw [h]

/-- The host's run of k + 1 steps, in the model's own types. -/
theorem core_run_succ (k : Nat) (s : State) :
    Sys2Proof.core.run (k + 1) s =
      (match step s with
        | .next t => Sys2Proof.core.run k t
        | .fault r => .fault r
        | .refused r => .refused r : Result) := by
  delta Sys2Proof.core
  rw [Host.Core.run]
  dsimp only
  cases step s <;> rfl

theorem performAll_cons {op : HostOp} (ops : List HostOp) {s t : State} (h : perform op s = .next t) :
    performAll (op :: ops) s = performAll ops t := by
  rw [performAll, h]

/-! ### Register transfers -/

theorem perform_regWrite {n : BitVec 4} {r : Reg} (hr : Reg.ofNumber n = some r) {v : Nat} (hv : r.carries v = true)
    (s : State) : perform (.regWrite n v) s = r.write v s := by
  show regWrite n v s = _
  unfold regWrite
  rw [hr]
  dsimp only
  rw [if_pos hv]

/-- A register number names at most one register. -/
theorem Reg.number_of_ofNumber {n : BitVec 4} {r : Reg} (h : Reg.ofNumber n = some r) : r.number = n := by
  have : ∀ n : BitVec 4, (Reg.ofNumber n).elim true (fun r => r.number == n) = true := by decide
  simpa [h] using this n

/-- A write of a word to CMD issues it. -/
theorem perform_cmd (x : BitVec 32) (s : State) : perform (.regWrite 0#4 x.toNat) s = issue x s := by
  rw [perform_regWrite (r := .cmd) rfl (by simp [Reg.carries, Reg.width?]; exact x.isLt)]
  simp [Reg.write]

/-- What a register write can do. -/
theorem regWrite_cases {n : BitVec 4} {v : Nat} {s t : State} (h : perform (.regWrite n v) s = .next t) :
    issue (BitVec.ofNat 32 v) s = .next t ∨ t = s ∨ (∃ x, t = { s with rows := x }) ∨ (∃ x, t = { s with cols := x }) ∨
      (∃ x, t = { s with chans := x }) ∨ (∃ x, t = { s with plen := x }) ∨ (∃ x, t = { s with mlen := x }) ∨
      ∃ x, t = { s with ival := x } := by
  change regWrite n v s = _ at h
  unfold regWrite at h
  split at h
  · exact nomatch h
  · rename_i r _
    split at h
    · cases r <;> first
        | exact .inl h
        | (have := Host.Outcome.next.inj h; subst this; simp)
    · exact nomatch h

/-- What the other transactions can do. -/
theorem perform_cases {op : HostOp} {s t : State} (h : perform op s = .next t) :
    (∃ n v, op = .regWrite n v) ∨ (∃ v, t = s.record v) ∨
      (∃ sel i b, op = .bufWrite sel i b ∧ i < bufSize sel ∧ t = s.setBuf sel ((s.buf sel).set i b)) ∨
      (∃ k x, op = .gridWrite k x ∧ k < s.params.gridCap ∧ t = s.setSample k x) ∨ (op = .reset ∧ t = s.applyReset) := by
  cases op with
  | regRead n =>
    change regRead n s = _ at h
    unfold regRead at h
    split at h
    · exact nomatch h
    · exact .inr (.inl ⟨_, (Host.Outcome.next.inj h).symm⟩)
  | regWrite n v => exact .inl ⟨n, v, rfl⟩
  | bufRead sel i =>
    change bufRead sel i s = _ at h
    unfold bufRead at h
    split at h
    · exact .inr (.inl ⟨_, (Host.Outcome.next.inj h).symm⟩)
    · exact nomatch h
  | bufWrite sel i b =>
    change bufWrite sel i b s = _ at h
    unfold bufWrite at h
    split at h
    · exact .inr (.inr (.inl ⟨sel, i, b, rfl, by assumption, (Host.Outcome.next.inj h).symm⟩))
    · exact nomatch h
  | gridRead k =>
    change gridRead k s = _ at h
    unfold gridRead at h
    split at h
    · exact .inr (.inl ⟨_, (Host.Outcome.next.inj h).symm⟩)
    · exact nomatch h
  | gridWrite k x =>
    change gridWrite k x s = _ at h
    unfold gridWrite at h
    split at h
    · exact .inr (.inr (.inr (.inl ⟨k, x, rfl, by assumption, (Host.Outcome.next.inj h).symm⟩)))
    · exact nomatch h
  | reset => exact .inr (.inr (.inr (.inr ⟨rfl, (Host.Outcome.next.inj h).symm⟩)))

/-! ### Where commands answer -/

/-- A command answers a next state, a grid command wherever its grid exists. -/
theorem exec_next (i : Instr) (s : State) (h : usesGrid i = true → s.numSamples ≤ s.params.gridCap) :
    ∃ t, exec i s = .next t := by
  cases i with
  | nop => exact ⟨_, rfl⟩
  | encint w =>
    rw [exec_encint]
    unfold execEncint encintLegal endIllegal endWith
    split
    · split
      · exact ⟨_, rfl⟩
      · split <;> exact ⟨_, rfl⟩
    · exact ⟨_, rfl⟩
  | decint w =>
    rw [exec_decint]
    unfold execDecint decintLegal endIllegal endWith
    split
    · split <;> exact ⟨_, rfl⟩
    · exact ⟨_, rfl⟩
  | enctxt sel =>
    rw [exec_enctxt]
    unfold execEnctxt endWith
    split <;> exact ⟨_, rfl⟩
  | dectxt sel =>
    rw [exec_dectxt]
    unfold execDectxt endWith
    split <;> exact ⟨_, rfl⟩
  | bqclr => exact ⟨_, rfl⟩
  | embed =>
    rw [exec_embed]
    by_cases hk : embedCheck s = .ok
    · exact ⟨_, execEmbed_ok (h rfl) hk⟩
    · exact ⟨_, execEmbed_fail (h rfl) hk⟩
  | extract =>
    rw [exec_extract, execExtract_eq, if_neg (Nat.not_lt.2 (h rfl))]
    unfold truncateAt endWith
    repeat' split
    all_goals exact ⟨_, rfl⟩

/-! ### What is still pending has no influence -/

/-- A function of the next state applied to a result. -/
def Result.map (f : State → State) : Result → Result
  | .next s => .next (f s)
  | .fault r => .fault r
  | .refused r => .refused r

theorem Result.map_ite (f : State → State) {c : Prop} [Decidable c] (a b : Result) :
    Result.map f (if c then a else b) = if c then Result.map f a else Result.map f b := by
  split <;> rfl

/-- The state with another script. -/
def State.setPending (p : List HostOp) (s : State) : State := { s with pending := p }

@[simp] theorem State.setPending_self (s : State) : s.setPending s.pending = s := (rfl)

section
variable (s : State) (p : List HostOp)

theorem State.numSamples_setPending : (s.setPending p).numSamples = s.numSamples := (rfl)
theorem State.bitsFrom_setPending (k n : Nat) : (s.setPending p).bitsFrom k n = s.bitsFrom k n := (rfl)
theorem State.setCursor_setPending (k : Nat) : (s.setPending p).setCursor k = (s.setCursor k).setPending p := (rfl)
theorem State.storeText_setPending (sel : BufSel) (t : List Byte) :
    (s.setPending p).storeText sel t = (s.storeText sel t).setPending p := by cases sel <;> rfl
theorem State.putBits_setPending (bs : Bits) (k : Nat) :
    State.putBits bs k (s.setPending p) = (State.putBits bs k s).setPending p := by
  induction bs generalizing k s with
  | nil => rfl
  | cons b bs ih => rw [State.putBits, State.putBits, ← ih]; rfl
theorem endWith_setPending (op : BitVec 8) (o : CmdOutcome) :
    endWith (s.setPending p) op o = Result.map (State.setPending p) (endWith s op o) := (rfl)
theorem truncateAt_setPending (f : Field) (k : Nat) :
    truncateAt (s.setPending p) f k = Result.map (State.setPending p) (truncateAt s f k) := (rfl)

theorem execExtract_setPending : execExtract (s.setPending p) = Result.map (State.setPending p) (execExtract s) := by
  have msg : ∀ (s : State) pos ml,
      extractMsg pos ml (s.setPending p) = Result.map (State.setPending p) (extractMsg pos ml s) := by
    intro s pos ml
    unfold extractMsg
    rw [State.numSamples_setPending, State.bitsFrom_setPending, State.storeText_setPending, State.setCursor_setPending,
      endWith_setPending, truncateAt_setPending, Result.map_ite]
  have msglen : ∀ (s : State) pos,
      extractMsglen pos (s.setPending p) = Result.map (State.setPending p) (extractMsglen pos s) := by
    intro s pos
    unfold extractMsglen
    rw [State.numSamples_setPending, State.bitsFrom_setPending, truncateAt_setPending, Result.map_ite, ← msg]; rfl
  have pass : ∀ (s : State) pos pl,
      extractPass pos pl (s.setPending p) = Result.map (State.setPending p) (extractPass pos pl s) := by
    intro s pos pl
    unfold extractPass
    rw [State.numSamples_setPending, State.bitsFrom_setPending, truncateAt_setPending, Result.map_ite, ← msglen,
      State.storeText_setPending]
  unfold execExtract extractPasslen
  rw [State.numSamples_setPending, State.bitsFrom_setPending, truncateAt_setPending, Result.map_ite, Result.map_ite,
    ← pass]
  rfl

theorem execEmbed_setPending : execEmbed (s.setPending p) = Result.map (State.setPending p) (execEmbed s) := by
  have hc : embedCheck (s.setPending p) = embedCheck s := (rfl)
  have hp : embedPayload (s.setPending p) = (embedPayload s).setPending p := by
    unfold embedPayload
    rw [show (s.setPending p).container = s.container from (rfl), State.putBits_setPending,
      State.setCursor_setPending]
    rfl
  unfold execEmbed
  rw [State.numSamples_setPending, hc, Result.map_ite, hp, State.setCursor_setPending,
    show (s.setPending p).params.gridCap = s.params.gridCap from rfl]
  cases embedCheck s <;> simp only [endWith_setPending] <;> rfl

theorem exec_setPending (i : Instr) : exec i (s.setPending p) = Result.map (State.setPending p) (exec i s) := by
  cases i with
  | nop => rfl
  | encint w =>
    rw [exec_encint, exec_encint]
    unfold execEncint encintLegal
    rw [Result.map_ite]
    congr 1
    show (match encodeInt s.ival.toNat w.toNat with | none => _ | some bits => _) = _
    cases encodeInt s.ival.toNat w.toNat with
    | none => rfl
    | some bits => dsimp only; rw [Result.map_ite]; rfl
  | decint w =>
    rw [exec_decint, exec_decint]
    unfold execDecint decintLegal
    rw [Result.map_ite, Result.map_ite]; rfl
  | enctxt sel =>
    rw [exec_enctxt, exec_enctxt]
    unfold execEnctxt
    rw [Result.map_ite]; cases sel <;> rfl
  | dectxt sel =>
    rw [exec_dectxt, exec_dectxt]
    unfold execDectxt
    rw [Result.map_ite]; cases sel <;> rfl
  | bqclr => rfl
  | embed => exact execEmbed_setPending s p
  | extract => exact execExtract_setPending s p

theorem issue_setPending (x : BitVec 32) : issue x (s.setPending p) = Result.map (State.setPending p) (issue x s) := by
  unfold issue
  cases decode x with
  | cmd i => exact exec_setPending s p i
  | illegal c => rfl

theorem perform_setPending (op : HostOp) :
    perform op (s.setPending p) = Result.map (State.setPending p) (perform op s) := by
  cases op with
  | regRead n =>
    show regRead n _ = Result.map _ (regRead n s)
    unfold regRead
    cases Reg.ofNumber n with
    | none => rfl
    | some r => cases r <;> rfl
  | regWrite n v =>
    show regWrite n v _ = Result.map _ (regWrite n v s)
    unfold regWrite
    cases Reg.ofNumber n with
    | none => rfl
    | some r =>
      dsimp only
      rw [Result.map_ite]
      congr 1
      cases r <;> first | rfl | exact issue_setPending s p _
  | bufRead sel i =>
    show bufRead sel i _ = Result.map _ (bufRead sel i s)
    unfold bufRead
    rw [Result.map_ite]; cases sel <;> rfl
  | bufWrite sel i b =>
    show bufWrite sel i b _ = Result.map _ (bufWrite sel i b s)
    unfold bufWrite
    rw [Result.map_ite]; cases sel <;> rfl
  | gridRead k =>
    show gridRead k _ = Result.map _ (gridRead k s)
    unfold gridRead
    rw [Result.map_ite]; rfl
  | gridWrite k x =>
    show gridWrite k x _ = Result.map _ (gridWrite k x s)
    unfold gridWrite
    rw [Result.map_ite]; rfl
  | reset => rfl

end

/-- No command writes the script. -/
theorem exec_pending {i : Instr} {s t : State} (h : exec i s = .next t) : t.pending = s.pending := by
  have := exec_setPending s s.pending i
  rw [State.setPending_self, h] at this
  rw [Host.Outcome.next.inj this]; rfl

/-- No transaction writes the script. -/
theorem perform_pending {op : HostOp} {s t : State} (h : perform op s = .next t) : t.pending = s.pending := by
  have := perform_setPending s s.pending op
  rw [State.setPending_self, h] at this
  rw [Host.Outcome.next.inj this]; rfl

end Sys2Proof.Machine
end

