-- ==== Sys2Proof/Laws/PerInstr.lean ====
section
/-! SUPPORT. Per-command facts about the encoding: the family WordFields, one lemma per constructor of Instr. -/

namespace Sys2Proof.Laws.WordFields

/-- The three fields of a command's word are OP, ARG and zero (30_encoding.md R96). -/
def Statement (i : Instr) : Prop :=
  opOf (encode i) = i.op ∧ argOf (encode i) = i.arg ∧ rsvOf (encode i) = 0#16

theorem nop : Statement .nop := by unfold Statement; decide

theorem encint (w : BitVec 8) : Statement (.encint w) := by
  unfold Statement; revert w; decide

theorem decint (w : BitVec 8) : Statement (.decint w) := by
  unfold Statement; revert w; decide

theorem enctxt (sel : BufSel) : Statement (.enctxt sel) := by
  unfold Statement; cases sel <;> decide

theorem dectxt (sel : BufSel) : Statement (.dectxt sel) := by
  unfold Statement; cases sel <;> decide

theorem bqclr : Statement .bqclr := by unfold Statement; decide

theorem embed : Statement .embed := by unfold Statement; decide

theorem extract : Statement .extract := by unfold Statement; decide

end Sys2Proof.Laws.WordFields
end

