-- ==== Sys2Proof/Laws/Sequencer.lean ====
section
/-! SUPPORT. What the two sequencers do over a run of steps: EMBED's loop, and one field of EXTRACT's. -/

namespace Sys2Proof.Machine

/-! ### EXTRACT's fields do not read the cursors -/

theorem extractMsg_withCursorsOf (s c : State) (pos ml : Nat) :
    extractMsg pos ml (s.withCursorsOf c) = extractMsg pos ml s := by
  unfold extractMsg truncateAt
  rw [State.numSamples_withCursorsOf, State.setCursor_withCursorsOf, State.bitsFrom_withCursorsOf,
    State.storeText_withCursorsOf, State.setCursor_withCursorsOf]

theorem extractMsglen_withCursorsOf (s c : State) (pos : Nat) :
    extractMsglen pos (s.withCursorsOf c) = extractMsglen pos s := by
  have h : ∀ v, { s.withCursorsOf c with mlen := v } = State.withCursorsOf { s with mlen := v } c := fun _ => rfl
  unfold extractMsglen truncateAt
  rw [State.numSamples_withCursorsOf, State.setCursor_withCursorsOf, State.bitsFrom_withCursorsOf, h,
    extractMsg_withCursorsOf]

theorem extractPass_withCursorsOf (s c : State) (pos pl : Nat) :
    extractPass pos pl (s.withCursorsOf c) = extractPass pos pl s := by
  unfold extractPass truncateAt
  rw [State.numSamples_withCursorsOf, State.setCursor_withCursorsOf, State.bitsFrom_withCursorsOf,
    State.storeText_withCursorsOf, extractMsglen_withCursorsOf]

/-! ### The end of a run -/

/-- A sequencer that has ended stays as it is. -/
theorem extractSeqLoop_ended (n : Nat) {q : ExtractSeq} (h : q.ended = true) : extractSeqLoop n q = q := by
  cases n <;> simp [extractSeqLoop, h]

/-- A state whose cursors stand at k already. -/
theorem State.setCursor_of_cursorAt {s : State} {k : Nat} (h : s.CursorAt k) (hk : k ≤ s.numSamples) :
    s.setCursor k = s :=
  (State.eq_setCursor_of_cursorAt h hk rfl).symm

theorem extractSeqLoop_seqEnd {s : State} {p : Nat} (h : s.CursorAt p) (hk : p ≤ s.numSamples) (fuel : Nat)
    (f : Field) (o : CmdOutcome) :
    Host.Outcome.next (extractSeqLoop fuel (seqEnd s f o)).st = (endWith (s.setCursor p) opExtract o : Result) := by
  rw [extractSeqLoop_ended _ rfl, State.setCursor_of_cursorAt h hk]; rfl

/-! ### One field of EXTRACT -/

/-- A length field of n bits at p, from its bit i on: its last bit read, the field is finished with its value. -/
theorem extractSeqLoop_lengthField (b : State) {f : Field} (hf : fieldBuf f = none) {p n : Nat}
    (hN : p + n ≤ b.numSamples) (m : Nat) :
    ∀ (i : Nat) (q : ExtractSeq), 0 < m → i + m = n → q.field = f → q.left = m → q.ended = false →
      q.acc = decodeInt (b.bitsFrom p i) → q.st.CursorAt (p + i) → q.st.withCursorsOf b = b →
      ∀ fuel, m ≤ fuel → ∃ st : State, st.CursorAt (p + n) ∧ st.withCursorsOf b = b ∧
        extractSeqLoop fuel q = extractSeqLoop (fuel - m) (seqFinish f (decodeInt (b.bitsFrom p n)) st) := by
  induction m with
  | zero => intro i q h; omega
  | succ m ih =>
    intro i q _ him hqf hql hqe hqa hqc hqs fuel hfu
    obtain ⟨fuel, rfl⟩ : ∃ k, fuel = k + 1 := ⟨fuel - 1, by omega⟩
    rw [extractSeqLoop, if_neg (by simp [hqe])]
    have hst := State.eq_withCursorsOf hqs
    have hbit : q.st.cursorSample.getLsbD 0 = b.lsb (p + i) := by
      rw [State.cursorSample_of_cursorAt _ hqc, hst]; rfl
    have hacc : 2 * q.acc + (q.st.cursorSample.getLsbD 0).toNat = decodeInt (b.bitsFrom p (i + 1)) := by
      rw [State.bitsFrom_succ, decodeInt_concat, hqa, hbit]
    have hadv : q.st.advance.CursorAt (p + (i + 1)) := by
      have := State.cursorAt_advance _ hqc (by rw [hst, State.numSamples_withCursorsOf]; omega)
      rwa [Nat.add_assoc] at this
    have hadw : q.st.advance.withCursorsOf b = b := by rw [State.advance_withCursorsOf, hqs]
    obtain ⟨q', hq'⟩ : ∃ q', q' = { q with
      st := q.st.advance, acc := decodeInt (b.bitsFrom p (i + 1)), cnt := q.cnt + 1, left := m } := ⟨_, rfl⟩
    have hstep : extractSeqStep q = seqEndField q' := by
      rw [hq']
      unfold extractSeqStep seqStoreByte
      simp only [hqf, hf, hacc, hql]
      rfl
    rw [hstep]
    unfold seqEndField
    subst hq'
    by_cases hm : m = 0
    · subst hm
      obtain rfl : n = i + 1 := by omega
      rw [if_pos rfl]
      exact ⟨q.st.advance, hadv, hadw, by simp only [hqf]; rfl⟩
    · rw [if_neg hm]
      obtain ⟨st, h1, h2, h3⟩ :=
        ih (i + 1) { q with
          st := q.st.advance, acc := decodeInt (b.bitsFrom p (i + 1)), cnt := q.cnt + 1, left := m }
          (by omega) (by omega) hqf rfl hqe rfl hadv hadw fuel (by omega)
      exact ⟨st, h1, h2, by rw [h3]; congr 1; omega⟩

/-- One more character of a text field. -/
theorem chars_bitsFrom_succ (s : State) (p k : Nat) :
    chars (k + 1) (s.bitsFrom p (8 * (k + 1))) =
      chars k (s.bitsFrom p (8 * k)) ++ [BitVec.ofNat 8 (decodeInt (s.bitsFrom (p + 8 * k) 8))] := by
  apply List.ext_getElem?
  intro j
  rw [List.getElem?_append, getElem?_chars, length_chars, getElem?_chars]
  by_cases h : j < k
  · rw [if_pos (by omega), if_pos h, if_pos h, State.take_drop_bitsFrom _ _ _ _ _ (by omega),
      State.take_drop_bitsFrom _ _ _ _ _ (by omega)]
  · rw [if_neg h]
    by_cases h2 : j = k
    · subst h2; rw [if_pos (by omega), State.take_drop_bitsFrom _ _ _ _ _ (by omega)]; simp
    · rw [if_neg (by omega), List.getElem?_eq_none]; simp; omega

/-- A text field of n bytes at p, from its bit i on: its last bit read, all its bytes are stored and it is finished. -/
theorem extractSeqLoop_textField (b : State) {f : Field} {sel : BufSel} (hf : fieldBuf f = some sel) {p n : Nat}
    (hN : p + 8 * n ≤ b.numSamples) (m : Nat) :
    ∀ (i : Nat) (q : ExtractSeq), 0 < m → i + m = 8 * n → q.field = f → q.left = m → q.ended = false →
      q.idx = i / 8 → q.cnt = i % 8 → q.acc = decodeInt (b.bitsFrom (p + 8 * (i / 8)) (i % 8)) →
      q.st.CursorAt (p + i) →
      q.st.withCursorsOf b = b.storeText sel (chars (i / 8) (b.bitsFrom p (8 * (i / 8)))) →
      ∀ fuel, m ≤ fuel → ∃ (st : State) (acc : Nat), st.CursorAt (p + 8 * n) ∧
        st.withCursorsOf b = b.storeText sel (chars n (b.bitsFrom p (8 * n))) ∧
        extractSeqLoop fuel q = extractSeqLoop (fuel - m) (seqFinish f acc st) := by
  induction m with
  | zero => intro i q h; omega
  | succ m ih =>
    intro i q _ him hqf hql hqe hqi hqcn hqa hqc hqs fuel hfu
    obtain ⟨fuel, rfl⟩ : ∃ k, fuel = k + 1 := ⟨fuel - 1, by omega⟩
    rw [extractSeqLoop, if_neg (by simp [hqe])]
    have hst := State.eq_withCursorsOf hqs
    have hbit : q.st.cursorSample.getLsbD 0 = b.lsb (p + i) := by
      rw [State.cursorSample_of_cursorAt _ hqc]
      show q.st.lsb (p + i) = _
      rw [hst]
      apply State.lsb_congr <;> simp [State.withCursorsOf]
    have hacc : 2 * q.acc + (q.st.cursorSample.getLsbD 0).toNat =
        decodeInt (b.bitsFrom (p + 8 * (i / 8)) (i % 8 + 1)) := by
      rw [State.bitsFrom_succ, decodeInt_concat, hqa, hbit, show p + 8 * (i / 8) + i % 8 = p + i by omega]
    have hadv : q.st.advance.CursorAt (p + (i + 1)) := by
      have := State.cursorAt_advance _ hqc
        (by rw [hst, State.numSamples_withCursorsOf, State.numSamples_storeText]; omega)
      rwa [Nat.add_assoc] at this
    have hadw : q.st.advance.withCursorsOf b = b.storeText sel (chars (i / 8) (b.bitsFrom p (8 * (i / 8)))) := by
      rw [State.advance_withCursorsOf, hqs]
    by_cases h8 : i % 8 + 1 = 8
    · have hd : (i + 1) / 8 = i / 8 + 1 := by omega
      have hm8 : (i + 1) % 8 = 0 := by omega
      obtain ⟨st', hst'⟩ : ∃ st', st' = q.st.advance.setBuf sel
        ((q.st.advance.buf sel).set (i / 8) (BitVec.ofNat 8 (decodeInt (b.bitsFrom (p + 8 * (i / 8)) 8)))) := ⟨_, rfl⟩
      have hstep : extractSeqStep q =
          seqEndField { q with st := st', idx := i / 8 + 1, acc := 0, cnt := 0, left := m } := by
        unfold extractSeqStep seqStoreByte
        simp only [hqf, hf, hacc, hql, hqcn, h8, hqi]
        subst hst'
        rfl
      have hcur : st'.CursorAt (p + (i + 1)) := by
        subst hst'
        generalize (q.st.advance.buf sel).set _ _ = mem
        cases sel <;> exact hadv
      have hw : st'.withCursorsOf b = b.storeText sel (chars ((i + 1) / 8) (b.bitsFrom p (8 * ((i + 1) / 8)))) := by
        subst hst'
        have e : ∀ (x : State) mem, (x.setBuf sel mem).withCursorsOf b = (x.withCursorsOf b).setBuf sel mem := by
          intro x mem; cases sel <;> rfl
        have e2 : q.st.advance.buf sel = (q.st.advance.withCursorsOf b).buf sel := by cases sel <;> rfl
        rw [e, e2, hadw, hd, chars_bitsFrom_succ, State.setBuf_storeText, State.buf_storeText]
        unfold State.storeText
        rw [Memory.store_append]
        simp [Memory.store]
      rw [hstep]
      unfold seqEndField
      by_cases hm : m = 0
      · subst hm
        rw [if_pos rfl]
        have hn : n = (i + 1) / 8 := by omega
        refine ⟨st', 0, ?_, ?_, by simp only [hqf]; rfl⟩
        · rw [show 8 * n = i + 1 by omega]; exact hcur
        · rw [hw, ← hn]
      · rw [if_neg hm]
        obtain ⟨st, acc, h1, h2, h3⟩ :=
          ih (i + 1) { q with st := st', idx := i / 8 + 1, acc := 0, cnt := 0, left := m } (by omega) (by omega) hqf
            rfl hqe hd.symm hm8.symm (by rw [hm8]; rfl) hcur hw fuel (by omega)
        exact ⟨st, acc, h1, h2, by rw [h3]; congr 1; omega⟩
    · have hd : (i + 1) / 8 = i / 8 := by omega
      have hm8 : (i + 1) % 8 = i % 8 + 1 := by omega
      have hm : m ≠ 0 := by omega
      obtain ⟨q', hq'⟩ : ∃ q', q' = { q with
        st := q.st.advance, acc := decodeInt (b.bitsFrom (p + 8 * (i / 8)) (i % 8 + 1)), cnt := i % 8 + 1,
        left := m } := ⟨_, rfl⟩
      have hstep : extractSeqStep q = q' := by
        rw [hq']
        unfold extractSeqStep seqStoreByte seqEndField
        simp only [hqf, hf, hacc, hql, hqcn, h8]
        simp [hm]
      rw [hstep]
      subst hq'
      obtain ⟨st, acc, h1, h2, h3⟩ :=
        ih (i + 1) { q with
          st := q.st.advance, acc := decodeInt (b.bitsFrom (p + 8 * (i / 8)) (i % 8 + 1)), cnt := i % 8 + 1, left := m }
          (by omega) (by omega) hqf rfl hqe (by rw [hd]; exact hqi) hm8.symm (by rw [hm8, hd]) hadv
          (by rw [hd]; exact hadw) fuel (by omega)
      exact ⟨st, acc, h1, h2, by rw [h3]; congr 1; omega⟩

/-! ### EMBED's loop -/

/-- EMBED's loop from position k on, the first k bits written. -/
theorem embedSeqLoop_spec (s₀ : State) (hL : s₀.containerLength ≤ s₀.numSamples) (n k : Nat)
    (hk : k + n = s₀.containerLength) (s : State) (hc : s.CursorAt k)
    (hs : s.withCursorsOf s₀ = (State.putBits (s₀.container.take k) 0 s₀).withCursorsOf s₀) :
    (embedSeqLoop n s).CursorAt s₀.containerLength ∧
      (embedSeqLoop n s).withCursorsOf s₀ = (State.putBits s₀.container 0 s₀).withCursorsOf s₀ := by
  induction n generalizing k s with
  | zero =>
    obtain rfl : k = s₀.containerLength := by omega
    exact ⟨hc, by rw [embedSeqLoop, hs, List.take_of_length_le (by simp)]⟩
  | succ n ih =>
    have proj : ∀ {α} (f : State → α), (∀ a b : State, f (a.withCursorsOf b) = f a) →
        f s = f (State.putBits (s₀.container.take k) 0 s₀) := fun f hf => by rw [← hf s s₀, hs, hf]
    have hlen : s.containerLength = s₀.containerLength := by
      rw [proj State.containerLength (fun _ _ => rfl)]; unfold State.containerLength; simp
    have hb : s.bcur.toNat = k := hc.1
    have hN : s.numSamples = s₀.numSamples := by rw [proj State.numSamples (fun _ _ => rfl)]; simp
    rw [embedSeqLoop, if_pos (by rw [hlen, hb]; omega)]
    refine ih (k + 1) (by omega) _ ?_ ?_
    · apply State.cursorAt_advance
      · exact hc
      · have : ∀ x, (s.setSample s.bcur.toNat x).numSamples = s.numSamples := fun _ => rfl
        rw [this, hN]; omega
    · have hcb : s.containerBitAt k = s₀.containerBitAt k := by
        apply State.containerBitAt_congr
        · rw [proj State.plen (fun _ _ => rfl)]; simp
        · rw [proj State.mlen (fun _ _ => rfl)]; simp
        · rw [proj State.pbuf (fun _ _ => rfl)]; simp
        · rw [proj State.mbuf (fun _ _ => rfl)]; simp
        · rw [proj State.epoch (fun _ _ => rfl)]; simp
      have htake : s₀.container.take (k + 1) = s₀.container.take k ++ [s₀.containerBitAt k] := by
        rw [List.take_add_one, State.getElem?_container _ (by omega)]; rfl
      have hlt : (s₀.container.take k).length = k := by simp; omega
      unfold embedSeqStep
      rw [htake, State.putBits_concat, hb, State.cursorSample_of_cursorAt _ hc, hcb, hlt, Nat.zero_add,
        ← proj (fun a => a.sample k) (fun _ _ => rfl), State.advance_withCursorsOf,
        ← State.setSample_withCursorsOf, ← State.setSample_withCursorsOf, hs]

end Sys2Proof.Machine
end

