-- ==== Sys2Proof/Tests/Slice0.lean ====
section
/-! SUPPORT. The model's own tests, each one step with the expected values of 95_test_vectors.md (the vector's id stands
in the comment), and a witness for every obligation that has hypotheses. -/

namespace Sys2Proof.Tests

open Sys2Proof.Machine

/-! ### Helpers -/

/-- The next state of a result. -/
def after : Result → Option State
  | .next t => some t
  | .fault _ => none
  | .refused _ => none

/-- The name a result is refused under. -/
def refusal : Result → Option Refusal
  | .next _ => none
  | .fault _ => none
  | .refused r => some r

theorem next_of_isSome {r : Result} (s : State) (h : (after r).isSome = true) : r = .next ((after r).getD s) := by
  cases r <;> first | rfl | exact nomatch h

/-- The state a command leaves. -/
def run (i : Instr) (s : State) : State := (after (exec i s)).getD s

theorem run_eq {i : Instr} {s : State} (h : (after (exec i s)).isSome = true) : exec i s = .next (run i s) :=
  next_of_isSome s h

/-- A byte string of bits, as the vectors write them. -/
def bits (l : List Nat) : Bits := l.map fun b => b == 1

/-- A fresh state with a filled grid. -/
def filled (rows cols : BitVec 16) (chans : BitVec 8) (f : Nat → Byte) : State :=
  { State.reset with
    rows := rows
    cols := cols
    chans := chans
    grid := (List.range (rows.toNat * cols.toNat * chans.toNat)).map fun k => (k, f k) }

/-- The passcode and the message loaded. -/
def loaded (s : State) (p m : List Byte) : State :=
  { s with
    plen := BitVec.ofNat 16 p.length
    mlen := BitVec.ofNat 32 m.length
    pbuf := Memory.store [] 0 p
    mbuf := Memory.store [] 0 m }

/-- The set-up of vector T208: N = L = 64. -/
def smallest : State := loaded (filled 4#16 4#16 4#8 fun _ => 0x80#8) [0x61#8] [0x62#8]

/-- The set-up of vectors T302 to T307: the buffers hold marker bytes. -/
def marked (cols : BitVec 16) (f : Nat → Byte) : State :=
  loaded (filled 1#16 cols 1#8 f) [0x7A#8, 0x7A#8] [0x71#8]

/-- A grid whose first field value is one: PLEN = 1, every other LSB 0. -/
def plenOne (k : Nat) : Byte := if k = 15 then 0x11#8 else 0x10#8

/-- A grid that announces an empty passcode and a message of one byte. -/
def mlenOne (k : Nat) : Byte := if k = 47 then 0x11#8 else 0x10#8

/-! ### WellFormed: each check refuses an ill-formed term (R97: 1 ≤ w ≤ 32) -/

theorem test_wf_encint_width_zero_refused : (Instr.encint 0#8).wf = false := by decide
theorem test_wf_encint_width_33_refused : (Instr.encint 33#8).wf = false := by decide
theorem test_wf_decint_width_zero_refused : (Instr.decint 0#8).wf = false := by decide
theorem test_wf_decint_width_33_refused : (Instr.decint 33#8).wf = false := by decide

/-! ### Decoding: words written out from the table of R96, and the illegal words of T402 to T418 -/

theorem test_decode_nop : decode 0b0000000000000000_00000000_00000000#32 = .cmd .nop := by decide
theorem test_decode_encint_16 : decode 0b0000000000000000_00010000_00000001#32 = .cmd (.encint 16#8) := by decide
theorem test_decode_decint_32 : decode 0b0000000000000000_00100000_00000010#32 = .cmd (.decint 32#8) := by decide
theorem test_decode_enctxt_pass : decode 0b0000000000000000_00000000_00000011#32 = .cmd (.enctxt .pass) := by decide
theorem test_decode_enctxt_msg : decode 0b0000000000000000_00000001_00000011#32 = .cmd (.enctxt .msg) := by decide
theorem test_decode_dectxt_pass : decode 0b0000000000000000_00000000_00000100#32 = .cmd (.dectxt .pass) := by decide
theorem test_decode_dectxt_msg : decode 0b0000000000000000_00000001_00000100#32 = .cmd (.dectxt .msg) := by decide
theorem test_decode_bqclr : decode 0b0000000000000000_00000000_00000101#32 = .cmd .bqclr := by decide
theorem test_decode_embed : decode 0b0000000000000000_00000000_00010000#32 = .cmd .embed := by decide
theorem test_decode_extract : decode 0b0000000000000000_00000000_00010001#32 = .cmd .extract := by decide

/-- T402 to T406: the opcode is tested first. -/
theorem test_decode_reserved_opcode :
    [0x00000006#32, 0x000000FF#32, 0x00000012#32, 0xFFFFFFFF#32, 0x00010006#32].all
      (fun x => decide (decode x = .illegal .reservedOpcode)) = true := by decide

/-- T407 to T409: the reserved bits are tested before the operand. -/
theorem test_decode_reserved_bits :
    [0x00010010#32, 0x80000011#32, 0x00010201#32].all
      (fun x => decide (decode x = .illegal .reservedBits)) = true := by decide

/-- T410 to T418. -/
theorem test_decode_bad_operand :
    [0x00000001#32, 0x00002101#32, 0x00000002#32, 0x00002102#32, 0x00000203#32, 0x00000100#32, 0x00000105#32,
      0x00000110#32, 0x00000111#32].all (fun x => decide (decode x = .illegal .badOperand)) = true := by decide

/-! ### The codec functions -/

/-- T104, T111. -/
theorem test_encode_int :
    encodeInt 5 16 = some (bits [0, 0, 0, 0, 0, 0, 0, 0, 0, 0, 0, 0, 0, 1, 0, 1]) ∧ encodeInt 256 8 = none := by decide

/-- T114. -/
theorem test_decode_int : decodeInt (bits [0, 0, 0, 0, 0, 1, 0, 1]) = 5 ∧ decodeInt (bits [1, 0, 1]) = 5 := by decide

/-- T117, T120. -/
theorem test_text :
    encodeText [0x68#8, 0x69#8] = bits [0, 1, 1, 0, 1, 0, 0, 0, 0, 1, 1, 0, 1, 0, 0, 1] ∧
      decodeText (bits [0, 1, 1, 0, 1, 0, 0, 0, 0, 1, 1, 0, 1, 0, 0, 1]) = some [0x68#8, 0x69#8] := by decide

/-- T122: the container of "x" and "hi". -/
theorem test_container :
    containerOf [0x78#8] [0x68#8, 0x69#8] =
      some (bits ([0, 0, 0, 0, 0, 0, 0, 0, 0, 0, 0, 0, 0, 0, 0, 1] ++ [0, 1, 1, 1, 1, 0, 0, 0] ++
        [0, 0, 0, 0, 0, 0, 0, 0, 0, 0, 0, 0, 0, 0, 0, 0, 0, 0, 0, 0, 0, 0, 0, 0, 0, 0, 0, 0, 0, 0, 1, 0] ++
        [0, 1, 1, 0, 1, 0, 0, 0, 0, 1, 1, 0, 1, 0, 0, 1])) := by decide

/-! ### Commands, one step each -/

/-- T504: NOP after a failed EXTRACT. -/
theorem test_nop : (after (exec .nop { State.reset with status := 0x1113#32 })) = some State.reset := by decide

/-- T131. -/
theorem test_encint :
    (after (exec (.encint 3#8) { State.reset with ival := 5#32 })).map (fun t => (t.bq, t.ival, t.status)) =
      some (bits [1, 0, 1], 5#32, 0x100#32) := by decide

/-- T137: RangeError is tested before Overflow. -/
theorem test_encint_range_before_overflow :
    (after (exec (.encint 1#8) { State.reset with
      params := { gridCap := 0, bqCap := 32 }, bq := List.replicate 32 false, ival := 2#32 })).map
        (fun t => (t.bq.length, t.status)) = some (32, 0x104#32) := by decide

/-- T139. -/
theorem test_decint :
    (after (exec (.decint 2#8) { State.reset with bq := bits [1, 0, 1], ival := 5#32 })).map
      (fun t => (t.ival, t.bq, t.status)) = some (2#32, bits [1], 0x200#32) := by decide

/-- T140. -/
theorem test_decint_underflow :
    (after (exec (.decint 2#8) { State.reset with bq := bits [1], ival := 2#32 })).map
      (fun t => (t.ival, t.bq, t.status)) = some (2#32, bits [1], 0x225#32) := by decide

/-- T147. -/
theorem test_enctxt :
    (after (exec (.enctxt .msg) (loaded State.reset [] [0x68#8, 0x69#8]))).map (fun t => (t.bq, t.status)) =
      some (bits [0, 1, 1, 0, 1, 0, 0, 0, 0, 1, 1, 0, 1, 0, 0, 1], 0x300#32) := by decide

/-- T149. -/
theorem test_enctxt_overflow :
    (after (exec (.enctxt .pass) { loaded State.reset [0x78#8] [] with
      params := { gridCap := 0, bqCap := 32 }, bq := List.replicate 32 false })).map
        (fun t => (t.bq.length, t.status)) = some (32, 0x315#32) := by decide

/-- T151: byte 2 is untouched. -/
theorem test_dectxt :
    (after (exec (.dectxt .msg) { loaded State.reset [] [0x00#8, 0x00#8, 0x55#8] with
      mlen := 2#32, bq := bits [0, 1, 1, 0, 1, 0, 0, 0, 0, 1, 1, 0, 1, 0, 0, 1] })).map
        (fun t => (t.mbuf, t.bq, t.status)) = some ([(0, 0x68#8), (1, 0x69#8), (2, 0x55#8)], [], 0x400#32) := by decide

/-- T152. -/
theorem test_dectxt_underflow :
    (after (exec (.dectxt .msg) { State.reset with mlen := 2#32 })).map (fun t => (t.mbuf, t.status)) =
      some ([], 0x425#32) := by decide

/-- T154. -/
theorem test_bqclr :
    (after (exec .bqclr { State.reset with bq := bits [1, 0, 1], ival := 7#32 })).map
      (fun t => (t.bq, t.ival, t.status)) = some ([], 7#32, 0x500#32) := by decide

/-- T208, the grid: the smallest successful EMBED. -/
theorem test_embed_grid :
    (after (exec .embed smallest)).map (fun t => t.grid.map (fun c => c.2)) =
      some (List.replicate 15 0x80#8 ++ [0x81#8] ++
        [0x80#8, 0x81#8, 0x81#8, 0x80#8, 0x80#8, 0x80#8, 0x80#8, 0x81#8] ++ List.replicate 31 0x80#8 ++ [0x81#8] ++
        [0x80#8, 0x81#8, 0x81#8, 0x80#8, 0x80#8, 0x80#8, 0x81#8, 0x80#8]) := by decide

/-- T208, the cursors and STATUS. -/
theorem test_embed_cursors :
    (after (exec .embed smallest)).map (fun t => (t.status, t.bcur, t.scurR, t.scurC, t.scurCh)) =
      some (0x1000#32, 64#40, 4#16, 0#16, 0#8) := by decide

/-- The set-up of vectors T302 and T303. -/
def markedCube (f : Nat → Byte) : State := loaded (filled 4#16 4#16 3#8 f) [0x7A#8, 0x7A#8] [0x71#8]

/-- T303: an empty container, the bytes of the buffers unchanged. -/
theorem test_extract_empty :
    (after (exec .extract (markedCube fun _ => 0x10#8))).map (fun t => (t.status, t.plen, t.mlen, t.bcur, t.scurR)) =
      some (0x1100#32, 0#16, 0#32, 48#40, 4#16) ∧
    (after (exec .extract (markedCube fun _ => 0x10#8))).map (·.pbuf) = some [(0, 0x7A#8), (1, 0x7A#8)] := by decide

/-- T302: PASS does not fit; SCUR = (1, 1, 1). -/
theorem test_extract_truncated :
    (after (exec .extract (markedCube fun _ => 0xFF#8))).map (fun t => (t.status, t.plen, t.mlen, t.bcur)) =
      some (0x1123#32, 65535#16, 1#32, 16#40) ∧
    (after (exec .extract (markedCube fun _ => 0xFF#8))).map (fun t => (t.scurR, t.scurC, t.scurCh)) =
      some (1#16, 1#16, 1#8) := by decide

/-! ### The host port -/

/-- T505, T507: a write of a read-only register is ignored, CMD reads as 0. -/
theorem test_registers :
    (after (perform (.regWrite 1#4 0xFFFFFFFF) { State.reset with status := 0x1113#32 })).map (·.status) =
      some 0x1113#32 ∧
    (after (perform (.regRead 0#4) { State.reset with status := 0x1113#32 })).map (·.reads) = some [0] := by decide

/-- T402 as a step: an illegal word changes STATUS only. -/
theorem test_step_illegal_word :
    after (step (State.reset.withFetchWord 32 0x00000006)) = some { State.reset with status := 0x616#32 } := by decide

/-- T130 as a step: the word at the head of the script is run. -/
theorem test_step_runs_word :
    (after (step ({ State.reset with ival := 5#32 }.withFetchWord 32 0x00001001))).map (fun t => (t.bq, t.status)) =
      some (bits [0, 0, 0, 0, 0, 0, 0, 0, 0, 0, 0, 0, 0, 1, 0, 1], 0x100#32) := by decide

/-! ### Witnesses: encodings -/

theorem witness_CommandWordsDecode :
    decode (BitVec.ofNat 32 (0x00000001 + 1 * 2 ^ 8)) = .cmd (.encint 1#8) ∧
    decode (BitVec.ofNat 32 (0x00000001 + 32 * 2 ^ 8)) = .cmd (.encint 32#8) ∧
    decode (BitVec.ofNat 32 (0x00000002 + 1 * 2 ^ 8)) = .cmd (.decint 1#8) ∧
    decode (BitVec.ofNat 32 (0x00000002 + 32 * 2 ^ 8)) = .cmd (.decint 32#8) := by decide

theorem witness_DecodeOfEncode :
    [Instr.nop, .encint 1#8, .encint 32#8, .decint 1#8, .decint 32#8, .enctxt .pass, .enctxt .msg, .dectxt .pass,
      .dectxt .msg, .bqclr, .embed, .extract].all Instr.wf = true := by decide

theorem witness_EncodeOfDecode : ∃ (x : BitVec 32) (i : Instr), decode x = .cmd i :=
  ⟨0x00002001#32, .encint 32#8, by decide⟩

/-- One word for each clause of the decoder's three tests, operands at the ends of their ranges. -/
theorem witness_DecoderTestsInOrder :
    [(0x00000006#32, Decoded.illegal .reservedOpcode), (0x00010010#32, .illegal .reservedBits),
      (0x00000001#32, .illegal .badOperand), (0x00002102#32, .illegal .badOperand), (0x00000203#32, .illegal .badOperand),
      (0x00000110#32, .illegal .badOperand), (0x00000000#32, .cmd .nop), (0x00000101#32, .cmd (.encint 1#8)),
      (0x00002001#32, .cmd (.encint 32#8)), (0x00000102#32, .cmd (.decint 1#8)), (0x00002002#32, .cmd (.decint 32#8)),
      (0x00000003#32, .cmd (.enctxt .pass)), (0x00000103#32, .cmd (.enctxt .msg)), (0x00000004#32, .cmd (.dectxt .pass)),
      (0x00000104#32, .cmd (.dectxt .msg)), (0x00000005#32, .cmd .bqclr), (0x00000010#32, .cmd .embed),
      (0x00000011#32, .cmd .extract)].all (fun p => decide (decode p.1 = p.2)) = true := by decide

/-- One word for each clause, with the status word of T402 to T418. -/
theorem witness_IllegalWordChangesOnlyStatus :
    [(0x000000FF#32, 0xFF16#32), (0x80000011#32, 0x1126#32), (0x00000001#32, 0x0136#32), (0x00002102#32, 0x0236#32),
      (0x00000203#32, 0x0336#32), (0x00000100#32, 0x0036#32), (0x00000111#32, 0x1136#32)].all
        (fun p => decide ((after (issue p.1 State.reset)).map (·.status) = some p.2)) = true := by decide

/-! ### Witnesses: the codec functions -/

theorem witness_EncodeIntBits : 255 < 2 ^ 8 ∧ 2 ^ 8 ≤ 256 ∧ 0 < 2 ^ 0 ∧ 7 < 8 := by decide

theorem witness_DecodeTextGroups :
    (bits [0, 1, 1, 0, 1, 0, 0, 0]).length = 8 * 1 ∧ (bits []).length = 8 * 0 ∧ (bits [0, 1, 1, 0, 1, 0, 0]).length % 8 ≠ 0 := by
  decide

theorem witness_CodecFunctionsInverse :
    255 < 2 ^ 8 ∧ decodeText (bits [0, 1, 1, 0, 1, 0, 0, 0]) = some [0x68#8] ∧
      encodeInt 1 2 = some (bits [0, 1]) ∧ encodeInt 2 2 = some (bits [1, 0]) := by decide

theorem witness_ContainerBitByBit :
    (List.replicate 65535 (0#8 : Byte)).length ≤ 65535 ∧ ([] : List Byte).length ≤ 4294967295 ∧
      encodeInt 0 16 = some (List.replicate 16 false) ∧ encodeInt 0 32 = some (List.replicate 32 false) :=
  ⟨by rw [List.length_replicate], by decide, by decide, by decide⟩

/-! ### Witnesses: the codec commands -/

/-- STATUS goes back to 0 by NOP and by the reset event. -/
theorem witness_NopChangesOnlyStatus :
    (after (perform (.regWrite 0#4 0x00000000) { State.reset with status := 0x1113#32 })).map (·.status) = some 0#32 ∧
    (after (perform .reset { State.reset with status := 0x1113#32 })).map (·.status) = some 0#32 := by decide

/-- The three outcomes at w = 1 and w = 32, each at the edge of its range. -/
theorem witness_EncintAppendsInteger :
    (1 ≤ (1#8).toNat ∧ (1#8).toNat ≤ 32 ∧ 2 ^ (1#8).toNat ≤ ({ State.reset with ival := 2#32 } : State).ival.toNat) ∧
    (∃ s : State, s.ival.toNat < 2 ^ (1#8).toNat ∧ s.params.bqCap < s.bq.length + (1#8).toNat) ∧
    ((32#8).toNat ≤ 32 ∧ ∃ s : State, s.ival.toNat < 2 ^ (32#8).toNat ∧ s.bq.length + (32#8).toNat ≤ s.params.bqCap) ∧
    ¬ (1 ≤ (0#8).toNat ∧ (0#8).toNat ≤ 32) ∧ ¬ (1 ≤ (33#8).toNat ∧ (33#8).toNat ≤ 32) :=
  ⟨by decide, ⟨{ State.reset with params := ⟨0, 32⟩, bq := List.replicate 32 false }, by decide⟩,
    ⟨by decide, { State.reset with params := ⟨0, 32⟩ }, by decide⟩, by decide, by decide⟩

theorem witness_DecintRemovesInteger :
    (∃ s : State, s.bq.length < (1#8).toNat) ∧ (∃ s : State, (32#8).toNat ≤ s.bq.length) ∧
    1 ≤ (1#8).toNat ∧ (32#8).toNat ≤ 32 ∧ ¬ (1 ≤ (0#8).toNat ∧ (0#8).toNat ≤ 32) ∧
    ¬ (1 ≤ (33#8).toNat ∧ (33#8).toNat ≤ 32) :=
  ⟨⟨State.reset, by decide⟩, ⟨{ State.reset with bq := List.replicate 32 true }, by decide⟩, by decide⟩

theorem witness_EnctxtAppendsText :
    (∃ s : State, s.params.bqCap < s.bq.length + 8 * s.len .pass) ∧
    ∃ s : State, s.bq.length + 8 * s.len .msg ≤ s.params.bqCap :=
  ⟨⟨{ State.reset with params := ⟨0, 32⟩, plen := 1#16, bq := List.replicate 25 false }, by decide⟩,
    ⟨{ State.reset with params := ⟨0, 32⟩, mlen := 1#32, bq := List.replicate 24 false }, by decide⟩⟩

theorem witness_DectxtWritesText :
    (∃ s : State, s.bq.length < 8 * s.len .pass) ∧ ∃ s : State, 8 * s.len .msg ≤ s.bq.length ∧ 0 < s.len .msg :=
  ⟨⟨{ State.reset with plen := 1#16, bq := List.replicate 7 false }, by decide⟩,
    ⟨{ State.reset with mlen := 1#32, bq := List.replicate 8 false }, by decide⟩⟩

theorem witness_CodecCommandsInverse :
    (∃ (s : State) (w : BitVec 8), 1 ≤ w.toNat ∧ w.toNat ≤ 32 ∧ s.bq = [] ∧ w.toNat ≤ s.params.bqCap ∧
      s.ival.toNat < 2 ^ w.toNat) ∧
    ∃ s : State, s.bq = [] ∧ 8 * s.len .pass ≤ s.params.bqCap ∧ 0 < s.len .pass :=
  ⟨⟨{ State.reset with ival := 0xFFFFFFFF#32 }, 32#8, by decide⟩, ⟨{ State.reset with plen := 16#16 }, by decide⟩⟩

theorem witness_CodecCommandsBuildContainer :
    ∃ s : State, s.bq = [] ∧ s.containerLength ≤ s.params.bqCap ∧ 0 < s.plen.toNat :=
  ⟨{ State.reset with plen := 8#16, mlen := 2#32 }, by decide⟩

theorem witness_CodecCommandsTakeContainerApart :
    ∃ (s : State) (p m : List Byte) (cb rest : Bits), p.length ≤ 65535 ∧ m.length ≤ 4294967295 ∧
      containerOf p m = some cb ∧ s.bq = cb ++ rest :=
  ⟨{ State.reset with bq := (containerOf [0x78#8] [0x68#8, 0x69#8]).getD [] ++ [true] }, [0x78#8], [0x68#8, 0x69#8],
    (containerOf [0x78#8] [0x68#8, 0x69#8]).getD [], [true], by decide⟩

/-! ### Witnesses: EMBED -/

/-- The checks at the edges: PLEN = 0, MLEN = 0, N = L - 1. -/
theorem witness_EmbedWritesContainer_checks :
    (∃ s : State, s.numSamples ≤ s.params.gridCap ∧ s.plen.toNat = 0) ∧
    (∃ s : State, s.numSamples ≤ s.params.gridCap ∧ s.plen.toNat ≠ 0 ∧ s.mlen.toNat = 0) ∧
    ∃ s : State, s.numSamples ≤ s.params.gridCap ∧ s.plen.toNat ≠ 0 ∧ s.mlen.toNat ≠ 0 ∧
      s.rows.toNat * s.cols.toNat * s.chans.toNat < 16 + 8 * s.plen.toNat + 32 + 8 * s.mlen.toNat :=
  ⟨⟨State.reset, by decide⟩, ⟨{ State.reset with plen := 1#16 }, by decide⟩,
    ⟨{ smallest with rows := 9#16, cols := 7#16, chans := 1#8 }, by decide⟩⟩

theorem witness_EmbedWritesContainer :
    smallest.numSamples ≤ smallest.params.gridCap ∧ smallest.plen.toNat ≠ 0 ∧ smallest.mlen.toNat ≠ 0 ∧
      16 + 8 * smallest.plen.toNat + 32 + 8 * smallest.mlen.toNat ≤
        smallest.rows.toNat * smallest.cols.toNat * smallest.chans.toNat := by decide

theorem witness_EmbedWritesContainer_evenAndOdd :
    ∃ s t : State, exec .embed s = .next t ∧ (s.sample 0).toNat % 2 = 0 ∧ (s.sample 1).toNat % 2 = 1 :=
  ⟨{ smallest with grid := smallest.grid.set 1 0xFF#8 }, run .embed _, run_eq (by decide), by decide, by decide⟩

theorem witness_GridBeyondStoreRefused :
    ∃ s : State, s.params.gridCap < s.rows.toNat * s.cols.toNat * s.chans.toNat :=
  ⟨{ smallest with params := { gridCap := 63, bqCap := 32 } }, by decide⟩

/-- The buffers and lengths overwritten between EMBED and EXTRACT. -/
theorem witness_ExtractReturnsWhatEmbedWrote :
    ∃ s t u : State, exec .embed s = .next t ∧ t.status = 0x00001000#32 ∧ u.params = t.params ∧ u.rows = t.rows ∧
      u.cols = t.cols ∧ u.chans = t.chans ∧ (∀ k < t.numSamples, u.sample k = t.sample k) ∧ u.plen ≠ t.plen := by
  obtain ⟨t, ht⟩ : ∃ t, t = run .embed smallest := ⟨_, rfl⟩
  exact ⟨smallest, t, { t with plen := 0#16, pbuf := [] }, by rw [ht]; exact run_eq (by decide), by rw [ht]; decide,
    rfl, rfl, rfl, rfl, fun _ _ => rfl, by rw [ht]; decide⟩

theorem witness_EmbedIsIdempotent : ∃ s t : State, s.grid.wf ∧ exec .embed s = .next t :=
  ⟨smallest, run .embed smallest, by decide, run_eq (by decide)⟩

/-- "ab" and "b" into 72 samples, then "a" and "b" over them: sample 64 keeps bit 64 of the first container. -/
theorem witness_ShorterContainerLeavesStaleBits :
    ∃ s t u v : State, exec .embed s = .next t ∧ t.status = 0x00001000#32 ∧ u.params = t.params ∧ u.rows = t.rows ∧
      u.cols = t.cols ∧ u.chans = t.chans ∧ (∀ k, u.sample k = t.sample k) ∧ exec .embed u = .next v ∧
      v.status = 0x00001000#32 ∧ 64 < s.containerLength ∧ u.containerLength ≤ 64 := by
  obtain ⟨s, hs⟩ : ∃ s, s = loaded (filled 1#16 72#16 1#8 fun _ => 0#8) [0x61#8, 0x62#8] [0x62#8] := ⟨_, rfl⟩
  have h : exec .embed s = .next ((embedPayload s).finish opEmbed .ok) := execEmbed_ok (by rw [hs]; decide) (by rw [hs]; decide)
  obtain ⟨t, ht⟩ : ∃ t, t = (embedPayload s).finish opEmbed .ok := ⟨_, rfl⟩
  rw [← ht] at h
  have hN : t.numSamples = 72 := by rw [ht]; simp; rw [hs]; decide
  have hu : exec .embed { t with plen := 1#16 } = .next ((embedPayload { t with plen := 1#16 }).finish opEmbed .ok) := by
    refine execEmbed_ok ?_ ((embedCheck_ok_iff _).2 ⟨by show 1#16 ≠ 0#16; decide, ?_, ?_⟩)
    · show t.numSamples ≤ t.params.gridCap
      rw [hN, ht]; simp; rw [hs]; decide
    · show t.mlen ≠ 0#32
      rw [ht]; simp; rw [hs]; decide
    · show 16 + 8 * 1 + 32 + 8 * t.mlen.toNat ≤ t.numSamples
      rw [hN, ht]; simp; rw [hs]; decide
  refine ⟨s, t, { t with plen := 1#16 }, _, h, by rw [ht]; rfl, rfl, rfl, rfl, rfl, fun _ => rfl, hu, rfl,
    by rw [hs]; decide, ?_⟩
  show 16 + 8 * 1 + 32 + 8 * t.mlen.toNat ≤ 64
  rw [ht]; simp; rw [hs]; decide

theorem witness_EmbedWriteOrderIrrelevant :
    ∃ s t : State, s.grid.wf ∧ exec .embed s = .next t ∧ t.status = 0x00001000#32 ∧
      ∃ ks : List Nat, ks.Perm (List.range s.containerLength) ∧ ks ≠ List.range s.containerLength :=
  ⟨smallest, run .embed smallest, by decide, run_eq (by decide), by decide,
    (List.range smallest.containerLength).reverse, List.reverse_perm _, by decide⟩

theorem witness_EmbedIgnoresBytesBeyondLengths :
    ∃ (s t : State) (p m : Memory),
      (∀ i < s.plen.toNat, { s with pbuf := p, mbuf := m }.bufByte .pass i = s.bufByte .pass i) ∧
      (∀ i < s.mlen.toNat, { s with pbuf := p, mbuf := m }.bufByte .msg i = s.bufByte .msg i) ∧
      exec .embed s = .next t ∧ p ≠ s.pbuf := by
  refine ⟨smallest, run .embed smallest, smallest.pbuf.set 1 0xEE#8, smallest.mbuf, ?_, fun _ _ => rfl,
    run_eq (by decide), by decide⟩
  intro i hi
  obtain rfl : i = 0 := by
    have : smallest.plen.toNat = 1 := by decide
    omega
  decide

/-! ### Witnesses: EXTRACT -/

/-- N exactly the container's length: an empty one (48), and the grid EMBED left (64). -/
theorem witness_ExtractReadsContainer :
    (∃ (s : State) (pl ml : Nat), s.numSamples ≤ s.params.gridCap ∧ pl = s.fieldValue 0 16 ∧
      ml = s.fieldValue (16 + 8 * pl) 32 ∧ 48 + 8 * pl + 8 * ml ≤ s.numSamples ∧ pl = 0) ∧
    ∃ (s : State) (pl ml : Nat), s.numSamples ≤ s.params.gridCap ∧ pl = s.fieldValue 0 16 ∧
      ml = s.fieldValue (16 + 8 * pl) 32 ∧ 48 + 8 * pl + 8 * ml ≤ s.numSamples ∧ pl = 1 ∧ ml = 1 :=
  ⟨⟨marked 48#16 fun _ => 0x10#8, 0, 0, by decide⟩, ⟨run .embed smallest, 1, 1, by decide⟩⟩

/-- The four failures, each with one sample too few, and the second exact-fit edge (N = 16). -/
theorem witness_ExtractReadsContainer_failures :
    (marked 15#16 fun _ => 0x10#8).numSamples < 16 ∧
    ((marked 23#16 plenOne).fieldValue 0 16 = 1 ∧ 16 ≤ (marked 23#16 plenOne).numSamples ∧
      (marked 23#16 plenOne).numSamples < 16 + 8 * 1) ∧
    ((marked 24#16 plenOne).fieldValue 0 16 = 1 ∧ 16 + 8 * 1 ≤ (marked 24#16 plenOne).numSamples ∧
      (marked 24#16 plenOne).numSamples < 48 + 8 * 1) ∧
    ((marked 55#16 mlenOne).fieldValue 0 16 = 0 ∧ (marked 55#16 mlenOne).fieldValue 16 32 = 1 ∧
      48 ≤ (marked 55#16 mlenOne).numSamples ∧ (marked 55#16 mlenOne).numSamples < 48 + 8 * 1) := by decide

theorem witness_ExtractIsRepeatable :
    ∃ s t : State, s.pbuf.wf ∧ s.mbuf.wf ∧ exec .extract s = .next t ∧ t ≠ s :=
  ⟨marked 48#16 fun _ => 0x10#8, run .extract _, by decide, by decide, run_eq (by decide), by decide⟩

/-- Two shapes of 48 samples with the same LSBs. -/
theorem witness_ExtractDependsOnlyOnLsbsAndCount :
    ∃ s s' t t' : State, s.numSamples = s'.numSamples ∧ (∀ k < s.numSamples, s.lsb k = s'.lsb k) ∧
      exec .extract s = .next t ∧ exec .extract s' = .next t' ∧ t.status = 0x00001100#32 ∧ s.rows ≠ s'.rows := by
  refine ⟨filled 4#16 4#16 3#8 fun _ => 0x10#8, filled 1#16 48#16 1#8 fun _ => 0x20#8, run .extract _, run .extract _,
    by decide, ?_, run_eq (by decide), run_eq (by decide), by decide, by decide⟩
  have : ∀ k < 48, (filled 4#16 4#16 3#8 fun _ => 0x10#8).lsb k = (filled 1#16 48#16 1#8 fun _ => 0x20#8).lsb k := by decide
  exact this

/-! ### Witnesses: all commands -/

/-- Every command answers on a small state. -/
theorem witness_CommandsTouchOnlyWhatTheAccessSummaryLists :
    [Instr.nop, .encint 1#8, .decint 1#8, .enctxt .pass, .dectxt .msg, .bqclr, .embed, .extract].all
      (fun i => (after (exec i smallest)).isSome) = true := by decide

theorem witness_CommandsEndOnlyWithTheirOutcomes :
    ∃ (i : Instr) (s t : State), i.wf = true ∧ exec i s = .next t :=
  ⟨.encint 32#8, State.reset, run (.encint 32#8) State.reset, by decide, run_eq (by decide)⟩

theorem witness_StatusValuesAreListed :
    (after (issue 0x00000010#32 smallest)).map (·.status) = some 0x1000#32 ∧
      (after (issue 0xFFFFFFFF#32 smallest)).map (·.status) = some 0xFF16#32 ∧
      (after (issue 0x00002101#32 smallest)).map (·.status) = some 0x0136#32 := by decide

/-- RangeError (4), the two failed checks' codes (1, 2), a truncation (3). -/
theorem witness_ErrorOutcomesLeaveDefinedState :
    (after (issue 0x00000101#32 { State.reset with ival := 2#32 })).map (statusCode ·.status) = some 4#4 ∧
    (after (issue 0x00000010#32 State.reset)).map (statusCode ·.status) = some 1#4 ∧
    (after (issue 0x00000010#32 { smallest with chans := 3#8 })).map (statusCode ·.status) = some 2#4 ∧
    (after (issue 0x00000011#32 (marked 47#16 fun _ => 0x10#8))).map (statusCode ·.status) = some 3#4 := by decide

theorem witness_TraversalIsAscendingLinearIndex :
    (9 < 10 ∧ 9 < 10 ∧ 2 < 3) ∧ 299 < 10 * 10 * 3 ∧ coords 10 3 299 = (9, 9, 2) ∧ coords 10 3 72 = (2, 4, 0) := by decide

/-! ### Witnesses: the host port -/

theorem witness_BufferAccessMovesOneByte :
    (after (perform (.bufWrite .pass 65534 0x7A#8) State.reset)).map (·.pbuf) = some [(65534, 0x7A#8)] ∧
    (after (perform (.bufWrite .msg 4294967294 0x7A#8) State.reset)).map (·.mbuf) = some [(4294967294, 0x7A#8)] ∧
    refusal (perform (.bufRead .pass 65535) State.reset) = some (.bufferIndex .pass 65535) ∧
    refusal (perform (.bufRead .msg 4294967295) State.reset) = some (.bufferIndex .msg 4294967295) ∧
    (State.reset.buf .pass).get? 0 = none := by decide

theorem witness_GridAccessMovesOneSample :
    1099511627775 < State.reset.params.gridCap ∧ State.reset.params.gridCap ≤ 1099511627776 := by decide

theorem witness_ReservedRegisterNumbersRefused : 13 ≤ (13#4).toNat ∧ 13 ≤ (15#4).toNat := by decide

theorem witness_TransactionsAnsweredExactlyWhereAllowed :
    (HostOp.regRead 12#4).allowed smallest = true ∧ (HostOp.regRead 13#4).allowed smallest = false ∧
    (HostOp.regWrite 4#4 255).allowed smallest = true ∧ (HostOp.regWrite 4#4 256).allowed smallest = false ∧
    (HostOp.regWrite 0#4 0x11).allowed smallest = true ∧
    (HostOp.regWrite 0#4 0x11).allowed { smallest with params := { gridCap := 64, bqCap := 32 } } = true ∧
    (HostOp.regWrite 0#4 0x11).allowed { smallest with params := { gridCap := 63, bqCap := 32 } } = false ∧
    (HostOp.regWrite 0#4 0x05).allowed { smallest with params := { gridCap := 63, bqCap := 32 } } = true := by decide

theorem witness_TransactionsAnsweredExactlyWhereAllowed_indexes :
    (HostOp.bufRead .pass 65534).allowed smallest = true ∧ (HostOp.bufRead .pass 65535).allowed smallest = false ∧
    (HostOp.bufWrite .pass 65534 0#8).allowed smallest = true ∧
    (HostOp.bufWrite .pass 65535 0#8).allowed smallest = false ∧
    (HostOp.bufRead .msg 4294967294).allowed smallest = true ∧
    (HostOp.bufRead .msg 4294967295).allowed smallest = false ∧
    (HostOp.bufWrite .msg 4294967294 0#8).allowed smallest = true ∧
    (HostOp.bufWrite .msg 4294967295 0#8).allowed smallest = false ∧
    (HostOp.gridRead 1099511627775).allowed smallest = true ∧ (HostOp.gridRead 1099511627776).allowed smallest = false ∧
    (HostOp.gridWrite 1099511627775 0#8).allowed smallest = true ∧
    (HostOp.gridWrite 1099511627776 0#8).allowed smallest = false := by decide

theorem witness_StepRunsDecodedCommand :
    (∃ (s : State) (x : BitVec 32) (rest : List HostOp) (i : Instr),
      s.pending = .regWrite 0#4 x.toNat :: rest ∧ decode x = .cmd i) ∧
    (∃ (s : State) (x : BitVec 32) (rest : List HostOp) (c : IllegalCause),
      s.pending = .regWrite 0#4 x.toNat :: rest ∧ decode x = .illegal c) ∧
    ∃ s : State, s.pending = [] :=
  ⟨⟨{ smallest with pending := [.regWrite 0#4 0x10, .regRead 1#4] }, 0x10#32, [.regRead 1#4], .embed, by decide⟩,
    ⟨{ smallest with pending := [.regWrite 0#4 0x06] }, 0x06#32, [], .reservedOpcode, by decide⟩, ⟨smallest, by decide⟩⟩

/-! ### Witnesses: reset and invariants -/

theorem witness_LaunchCommandsFailSafely : State.reset.Launch :=
  ⟨rfl, ⟨rfl, rfl, rfl⟩, ⟨rfl, rfl⟩, rfl, ⟨rfl, rfl, rfl, rfl⟩, rfl⟩

/-- A state with a script that meets the invariant and steps. -/
theorem witness_StepKeepsInvariant :
    ∃ s t : State, s.Inv ∧ step s = .next t ∧ t ≠ s := by
  refine ⟨{ State.reset with pending := [.bufWrite .pass 0 0x78#8] }, _, ?_, next_of_isSome State.reset (by decide), by decide⟩
  refine ⟨by decide, List.Pairwise.nil, ?_, List.Pairwise.nil, ?_, List.Pairwise.nil, ?_, Nat.zero_le _,
    .inl ⟨.nop, .ok, by decide, by decide⟩⟩
  all_goals intro c hc; exact nomatch hc

theorem witness_CommandsKeepCursorInvariant :
    ∃ (i : Instr) (s t : State), exec i s = .next t ∧ s.CursorInv ∧ i = .embed := by
  refine ⟨.embed, smallest, run .embed smallest, run_eq (by decide), ?_, rfl⟩
  unfold State.CursorInv
  decide

theorem witness_StepKeepsParameters : ∃ s t : State, step s = .next t ∧ t ≠ s :=
  ⟨{ smallest with pending := [.reset] }, _, next_of_isSome State.reset (by decide), by decide⟩

end Sys2Proof.Tests
end

section
/-! PROOFS. The family 00_scope.md: every step keeps the state invariant. One rule per operation on the state, one
lemma per command and per kind of transaction, then the step. -/

namespace Sys2Proof.Machine

variable {s t : State}

/-- The reset value of STATUS is NOP's OK. -/
theorem statusReachable_zero : StatusReachable 0#32 := .inl ⟨.nop, .ok, by decide, by decide⟩

/-! ### The invariant under the operations on the state -/

/-- A text as long as a length register says fits its buffer (R25, R26, R30, R31). -/
theorem State.len_le_bufSize (s : State) (sel : BufSel) : s.len sel ≤ bufSize sel := by
  cases sel with
  | pass => exact Nat.le_of_lt_succ s.plen.isLt
  | msg => exact Nat.le_of_lt_succ s.mlen.isLt

namespace State.Inv

theorem buf_wf (h : s.Inv) (sel : BufSel) : (s.buf sel).wf := by
  cases sel with
  | pass => exact h.pbuf_wf
  | msg => exact h.mbuf_wf

theorem buf_below (h : s.Inv) (sel : BufSel) : (s.buf sel).below (bufSize sel) := by
  cases sel with
  | pass => exact h.pbuf_below
  | msg => exact h.mbuf_below

/-- A command ends with one of its own outcomes (R214). -/
theorem finish (h : s.Inv) (i : Instr) {o : CmdOutcome} (ho : o ∈ outcomesOf i) : (s.finish i.op o).Inv :=
  { h with status_reachable := .inl ⟨i, o, ho, rfl⟩ }

/-- An illegal word is reported with its own low byte (R221). -/
theorem finishIllegal (h : s.Inv) (low : BitVec 8) (c : IllegalCause) : (s.finish low (.illegal c)).Inv :=
  { h with status_reachable := .inr ⟨low, c, rfl⟩ }

theorem setCursor (h : s.Inv) (k : Nat) : (s.setCursor k).Inv := { h with }

theorem record (h : s.Inv) (v : Nat) : (s.record v).Inv := { h with }

theorem push (h : s.Inv) {bits : Bits} (hroom : s.hasRoom bits.length = true) : (s.push bits).Inv :=
  { h with bq_within := by simpa using (s.hasRoom_iff _).1 hroom }

theorem pop (h : s.Inv) (n : Nat) : (s.pop n).Inv :=
  { h with bq_within := (List.drop_sublist n s.bq).length_le.trans h.bq_within }

theorem withPlen (h : s.Inv) (x : BitVec 16) : State.Inv { s with plen := x } := { h with }

theorem withMlen (h : s.Inv) (x : BitVec 32) : State.Inv { s with mlen := x } := { h with }

theorem withIval (h : s.Inv) (x : BitVec 32) : State.Inv { s with ival := x } := { h with }

theorem withGrid (h : s.Inv) {m : Memory} (hw : m.wf) (hb : m.below s.params.gridCap) :
    State.Inv { s with grid := m } := { h with grid_wf := hw, grid_below := hb }

theorem setSample (h : s.Inv) {k : Nat} (hk : k < s.params.gridCap) (x : Byte) : (s.setSample k x).Inv :=
  h.withGrid (Memory.wf_set h.grid_wf k x) (Memory.below_set h.grid_below hk x)

theorem setBuf (h : s.Inv) {sel : BufSel} {m : Memory} (hw : m.wf) (hb : m.below (bufSize sel)) :
    (s.setBuf sel m).Inv := by
  cases sel with
  | pass => exact { h with pbuf_wf := hw, pbuf_below := hb }
  | msg => exact { h with mbuf_wf := hw, mbuf_below := hb }

theorem setBufByte (h : s.Inv) {sel : BufSel} {i : Nat} (hi : i < bufSize sel) (b : Byte) :
    (s.setBuf sel ((s.buf sel).set i b)).Inv :=
  h.setBuf (Memory.wf_set (h.buf_wf sel) i b) (Memory.below_set (h.buf_below sel) hi b)

theorem storeText (h : s.Inv) {sel : BufSel} {text : List Byte} (ht : text.length ≤ bufSize sel) :
    (s.storeText sel text).Inv :=
  h.setBuf (Memory.wf_store (h.buf_wf sel) 0 text) (Memory.below_store (h.buf_below sel) (by omega))

/-- EMBED's payload stays inside the grid store where the container fits the grid and the grid exists. -/
theorem embedPayload (h : s.Inv) (hfit : s.containerLength ≤ s.params.gridCap) : (embedPayload s).Inv := by
  have hgrid : (putBits s.container 0 s).grid.below s.params.gridCap :=
    grid_below_putBits s s.container 0 h.grid_below (by simpa using hfit)
  rw [embedPayload_eq]
  exact (h.withGrid (grid_wf_putBits s s.container 0 h.grid_wf) hgrid).setCursor _

theorem applyReset (h : s.Inv) : s.applyReset.Inv where
  params_wf := h.params_wf
  pbuf_wf := List.Pairwise.nil
  pbuf_below := List.forall_mem_nil _
  mbuf_wf := List.Pairwise.nil
  mbuf_below := List.forall_mem_nil _
  grid_wf := List.Pairwise.nil
  grid_below := List.forall_mem_nil _
  bq_within := Nat.zero_le _
  status_reachable := statusReachable_zero

/-! ### The stages of EXTRACT -/

theorem gotPasslen (h : s.Inv) : (gotPasslen s).Inv := by
  rw [Machine.gotPasslen]
  exact h.withPlen _

theorem gotPass (h : s.Inv) : (gotPass s).Inv := by
  have hlen : s.fieldValue 0 16 ≤ bufSize .pass := Nat.le_of_lt_succ (s.fieldValue_lt 0 16)
  rw [Machine.gotPass]
  exact h.gotPasslen.storeText (by rwa [length_chars])

theorem gotMsglen (h : s.Inv) : (gotMsglen s).Inv := by
  rw [Machine.gotMsglen]
  exact h.gotPass.withMlen _

theorem gotMsg (h : s.Inv) : (gotMsg s).Inv := by
  have hlen : s.fieldValue (msglenPos s) 32 ≤ bufSize .msg := Nat.le_of_lt_succ (s.fieldValue_lt (msglenPos s) 32)
  rw [Machine.gotMsg]
  exact h.gotMsglen.storeText (by rwa [length_chars])

end State.Inv

/-! ### The invariant under the commands -/

theorem execEncint_keeps_inv {w : BitVec 8} (h : s.Inv) (hs : execEncint w s = .next t) : t.Inv := by
  obtain ⟨-, rfl⟩ | ⟨-, -, rfl⟩ | ⟨-, -, -, rfl⟩ | ⟨-, -, hroom, rfl⟩ := execEncint_cases hs
  · exact h.finishIllegal _ _
  · exact h.finish (.encint w) (by simp [outcomesOf])
  · exact h.finish (.encint w) (by simp [outcomesOf])
  · exact (h.push (by rwa [length_bitsOf])).finish (.encint w) (by simp [outcomesOf])

theorem execDecint_keeps_inv {w : BitVec 8} (h : s.Inv) (hs : execDecint w s = .next t) : t.Inv := by
  obtain ⟨-, rfl⟩ | ⟨-, -, rfl⟩ | ⟨-, -, rfl⟩ := execDecint_cases hs
  · exact h.finishIllegal _ _
  · exact h.finish (.decint w) (by simp [outcomesOf])
  · exact ((h.pop _).withIval _).finish (.decint w) (by simp [outcomesOf])

theorem execEnctxt_keeps_inv {sel : BufSel} (h : s.Inv) (hs : execEnctxt sel s = .next t) : t.Inv := by
  obtain ⟨-, rfl⟩ | ⟨hroom, rfl⟩ := execEnctxt_cases hs
  · exact h.finish (.enctxt sel) (by simp [outcomesOf])
  · exact (h.push (by rwa [length_encodeText, State.length_text])).finish (.enctxt sel) (by simp [outcomesOf])

theorem execDectxt_keeps_inv {sel : BufSel} (h : s.Inv) (hs : execDectxt sel s = .next t) : t.Inv := by
  obtain ⟨-, rfl⟩ | ⟨-, rfl⟩ := execDectxt_cases hs
  · exact h.finish (.dectxt sel) (by simp [outcomesOf])
  · have hlen := s.len_le_bufSize sel
    exact ((h.pop _).storeText (by rwa [length_chars])).finish (.dectxt sel) (by simp [outcomesOf])

theorem execEmbed_keeps_inv (h : s.Inv) (hs : execEmbed s = .next t) : t.Inv := by
  obtain ⟨hgrid, ⟨-, rfl⟩ | ⟨hok, rfl⟩⟩ := execEmbed_cases hs
  · exact (h.setCursor 0).finish .embed (embedCheck_mem s)
  · obtain ⟨-, -, hfit⟩ := (embedCheck_ok_iff s).1 hok
    exact (h.embedPayload (hfit.trans hgrid)).finish .embed (by decide)

theorem execExtract_keeps_inv (h : s.Inv) (hs : execExtract s = .next t) : t.Inv := by
  obtain ⟨-, ⟨-, rfl⟩ | ⟨-, -, rfl⟩ | ⟨-, -, rfl⟩ | ⟨-, -, rfl⟩ | ⟨-, rfl⟩⟩ := execExtract_cases hs
  · exact (h.setCursor _).finish .extract (by decide)
  · exact (h.gotPasslen.setCursor _).finish .extract (by decide)
  · exact (h.gotPass.setCursor _).finish .extract (by decide)
  · exact (h.gotMsglen.setCursor _).finish .extract (by decide)
  · exact (h.gotMsg.setCursor _).finish .extract (by decide)

theorem exec_keeps_inv {i : Instr} (h : s.Inv) (hs : exec i s = .next t) : t.Inv := by
  cases i with
  | nop =>
    obtain rfl := Host.Outcome.next.inj hs
    exact h.finish .nop (by decide)
  | encint w => exact execEncint_keeps_inv h hs
  | decint w => exact execDecint_keeps_inv h hs
  | enctxt sel => exact execEnctxt_keeps_inv h hs
  | dectxt sel => exact execDectxt_keeps_inv h hs
  | bqclr =>
    obtain rfl := Host.Outcome.next.inj hs
    have hq : State.Inv { s with bq := [] } := { h with bq_within := Nat.zero_le _ }
    exact hq.finish .bqclr (by decide)
  | embed => exact execEmbed_keeps_inv h hs
  | extract => exact execExtract_keeps_inv h hs

/-! ### The invariant under the transactions -/

theorem issue_keeps_inv {x : BitVec 32} (h : s.Inv) (hs : issue x s = .next t) : t.Inv := by
  unfold issue at hs
  split at hs
  · exact exec_keeps_inv h hs
  · obtain rfl := Host.Outcome.next.inj hs
    exact h.finishIllegal _ _

theorem regWrite_keeps_inv {n : BitVec 4} {v : Nat} (h : s.Inv) (hs : perform (.regWrite n v) s = .next t) :
    t.Inv := by
  obtain hcmd | rfl | ⟨x, rfl⟩ | ⟨x, rfl⟩ | ⟨x, rfl⟩ | ⟨x, rfl⟩ | ⟨x, rfl⟩ | ⟨x, rfl⟩ := regWrite_cases hs
  · exact issue_keeps_inv h hcmd
  · exact h
  all_goals exact { h with }

theorem perform_keeps_inv {op : HostOp} (h : s.Inv) (hs : perform op s = .next t) : t.Inv := by
  obtain ⟨n, v, rfl⟩ | ⟨v, rfl⟩ | ⟨sel, i, b, -, hi, rfl⟩ | ⟨k, x, -, hk, rfl⟩ | ⟨-, rfl⟩ := perform_cases hs
  · exact regWrite_keeps_inv h hs
  · exact h.record v
  · exact h.setBufByte hi b
  · exact h.setSample hk x
  · exact h.applyReset

/-- Settles O50: an idle step changes nothing, and any other performs one transaction, each of which keeps the
invariant. -/
theorem stepKeepsInvariant : Obligations.StepKeepsInvariant := by
  intro s t h hs
  obtain ⟨-, rfl⟩ | ⟨op, rest, -, hop⟩ := step_cases hs
  · exact h
  · exact perform_keeps_inv (s := { s with pending := rest }) { h with } hop

end Sys2Proof.Machine
end

section
/-! PROOFS. The family 10_state.md: what each command leaves unchanged, the parameters, the cursor invariant and the
state after reset. The access summary of R41 is a relation between two states, with one rule per operation on the later
state and one lemma per command. -/

namespace Sys2Proof.Machine

variable {i : Instr} {s t : State}

/-! ### The access summary as a relation -/

/-- The length the container in the grid announces for a text: what EXTRACT reads in PASSLEN and in MSGLEN (R171). -/
def State.announcedLen (s : State) : BufSel → Nat
  | .pass => s.fieldValue 0 16
  | .msg => s.fieldValue (msglenPos s) 32

/-- The byte lies behind the text that the command may deliver into the selected buffer. -/
def State.ByteUnlisted (i : Instr) (s : State) (sel : BufSel) (k : Nat) : Prop :=
  (i = .dectxt sel → s.len sel ≤ k) ∧ (i = .extract → s.announcedLen sel ≤ k)

/-- `t` differs from `s` at most in what the access summary (R41) lists for the command as written. -/
structure KeepsUnlisted (i : Instr) (s t : State) : Prop where
  params : t.params = s.params
  dims : t.rows = s.rows ∧ t.cols = s.cols ∧ t.chans = s.chans
  outside : t.epoch = s.epoch ∧ t.pending = s.pending ∧ t.reads = s.reads
  lens : i ≠ .extract → t.plen = s.plen ∧ t.mlen = s.mlen
  ival : (∀ w, i ≠ .decint w) → t.ival = s.ival
  bq : i ∈ [.nop, .embed, .extract] → t.bq = s.bq
  cursors : usesGrid i = false →
    t.bcur = s.bcur ∧ t.scurR = s.scurR ∧ t.scurC = s.scurC ∧ t.scurCh = s.scurCh
  samples : ∀ k, (i = .embed → s.containerLength ≤ k) → t.sample k = s.sample k
  bytes : ∀ sel k, s.ByteUnlisted i sel k → t.bufByte sel k = s.bufByte sel k

namespace KeepsUnlisted

theorem refl (i : Instr) (s : State) : KeepsUnlisted i s s where
  params := rfl
  dims := ⟨rfl, rfl, rfl⟩
  outside := ⟨rfl, rfl, rfl⟩
  lens _ := ⟨rfl, rfl⟩
  ival _ := rfl
  bq _ := rfl
  cursors _ := ⟨rfl, rfl, rfl, rfl⟩
  samples _ _ := rfl
  bytes _ _ _ := rfl

/-! One rule per operation on the later state. -/

theorem finish (h : KeepsUnlisted i s t) (op : BitVec 8) (o : CmdOutcome) : KeepsUnlisted i s (t.finish op o) :=
  { h with }

theorem withBq (h : KeepsUnlisted i s t) (hi : i ∉ [.nop, .embed, .extract]) (q : Bits) :
    KeepsUnlisted i s { t with bq := q } :=
  { h with bq := fun hmem => absurd hmem hi }

theorem withIval {w : BitVec 8} (h : KeepsUnlisted (.decint w) s t) (x : BitVec 32) :
    KeepsUnlisted (.decint w) s { t with ival := x } :=
  { h with ival := fun hne => absurd rfl (hne w) }

theorem withPlen (h : KeepsUnlisted .extract s t) (x : BitVec 16) : KeepsUnlisted .extract s { t with plen := x } :=
  { h with lens := fun hne => absurd rfl hne }

theorem withMlen (h : KeepsUnlisted .extract s t) (x : BitVec 32) : KeepsUnlisted .extract s { t with mlen := x } :=
  { h with lens := fun hne => absurd rfl hne }

theorem setCursor (h : KeepsUnlisted i s t) (hi : usesGrid i = true) (k : Nat) : KeepsUnlisted i s (t.setCursor k) :=
  { h with cursors := fun hf => absurd hi (by simp [hf]) }

theorem withGrid (h : KeepsUnlisted .embed s t) {g : Memory}
    (hg : ∀ k, s.containerLength ≤ k → State.sample { t with grid := g } k = s.sample k) :
    KeepsUnlisted .embed s { t with grid := g } :=
  { h with samples := fun k hk => hg k (hk rfl) }

/-- A text delivered into a buffer ends where the unlisted bytes begin. -/
theorem storeText (h : KeepsUnlisted i s t) {sel : BufSel} {text : List Byte}
    (hlen : ∀ k, s.ByteUnlisted i sel k → text.length ≤ k) : KeepsUnlisted i s (t.storeText sel text) := by
  have hbytes : ∀ sel' k, s.ByteUnlisted i sel' k → (t.storeText sel text).bufByte sel' k = s.bufByte sel' k := by
    intro sel' k hk
    by_cases hsel : sel' = sel
    · subst hsel
      rw [State.bufByte_storeText, if_neg (Nat.not_lt.2 (hlen k hk)), h.bytes _ k hk]
    · rw [State.bufByte_storeText_ne _ hsel, h.bytes sel' k hk]
  cases sel with
  | pass => exact { h with bytes := hbytes }
  | msg => exact { h with bytes := hbytes }

/-- EMBED's loop ends where the container ends. -/
theorem embedPayload (s : State) : KeepsUnlisted .embed s (embedPayload s) := by
  have hsamples : ∀ k, s.containerLength ≤ k → (Machine.embedPayload s).sample k = s.sample k := fun k hk => by
    rw [sample_embedPayload, if_neg (Nat.not_lt.2 hk)]
  rw [embedPayload_eq] at hsamples ⊢
  exact ((refl .embed s).withGrid hsamples).setCursor rfl _

/-! The stages of EXTRACT. -/

theorem gotPasslen (s : State) : KeepsUnlisted .extract s (gotPasslen s) := by
  rw [Machine.gotPasslen]
  exact (refl .extract s).withPlen _

theorem gotPass (s : State) : KeepsUnlisted .extract s (gotPass s) := by
  rw [Machine.gotPass]
  exact (gotPasslen s).storeText fun k hk => by rw [length_chars]; exact hk.2 rfl

theorem gotMsglen (s : State) : KeepsUnlisted .extract s (gotMsglen s) := by
  rw [Machine.gotMsglen]
  exact (gotPass s).withMlen _

theorem gotMsg (s : State) : KeepsUnlisted .extract s (gotMsg s) := by
  rw [Machine.gotMsg]
  exact (gotMsglen s).storeText fun k hk => by rw [length_chars]; exact hk.2 rfl

end KeepsUnlisted

/-! ### What each command keeps -/

theorem execEncint_keepsUnlisted {w : BitVec 8} (h : execEncint w s = .next t) : KeepsUnlisted (.encint w) s t := by
  have hrefl := KeepsUnlisted.refl (.encint w) s
  obtain ⟨-, rfl⟩ | ⟨-, -, rfl⟩ | ⟨-, -, -, rfl⟩ | ⟨-, -, -, rfl⟩ := execEncint_cases h
  · exact hrefl.finish _ _
  · exact hrefl.finish _ _
  · exact hrefl.finish _ _
  · exact (hrefl.withBq (by simp) _).finish _ _

theorem execDecint_keepsUnlisted {w : BitVec 8} (h : execDecint w s = .next t) : KeepsUnlisted (.decint w) s t := by
  have hrefl := KeepsUnlisted.refl (.decint w) s
  obtain ⟨-, rfl⟩ | ⟨-, -, rfl⟩ | ⟨-, -, rfl⟩ := execDecint_cases h
  · exact hrefl.finish _ _
  · exact hrefl.finish _ _
  · exact ((hrefl.withBq (by simp) _).withIval _).finish _ _

theorem execEnctxt_keepsUnlisted {sel : BufSel} (h : execEnctxt sel s = .next t) :
    KeepsUnlisted (.enctxt sel) s t := by
  have hrefl := KeepsUnlisted.refl (.enctxt sel) s
  obtain ⟨-, rfl⟩ | ⟨-, rfl⟩ := execEnctxt_cases h
  · exact hrefl.finish _ _
  · exact (hrefl.withBq (by simp) _).finish _ _

theorem execDectxt_keepsUnlisted {sel : BufSel} (h : execDectxt sel s = .next t) :
    KeepsUnlisted (.dectxt sel) s t := by
  have hrefl := KeepsUnlisted.refl (.dectxt sel) s
  obtain ⟨-, rfl⟩ | ⟨-, rfl⟩ := execDectxt_cases h
  · exact hrefl.finish _ _
  · have hpop : KeepsUnlisted (.dectxt sel) s (s.pop (8 * s.len sel)) := hrefl.withBq (by simp) _
    exact (hpop.storeText fun k hk => by rw [length_chars]; exact hk.1 rfl).finish _ _

theorem execEmbed_keepsUnlisted (h : execEmbed s = .next t) : KeepsUnlisted .embed s t := by
  obtain ⟨-, ⟨-, rfl⟩ | ⟨-, rfl⟩⟩ := execEmbed_cases h
  · exact ((KeepsUnlisted.refl .embed s).setCursor rfl 0).finish _ _
  · exact (KeepsUnlisted.embedPayload s).finish _ _

theorem execExtract_keepsUnlisted (h : execExtract s = .next t) : KeepsUnlisted .extract s t := by
  obtain ⟨-, ⟨-, rfl⟩ | ⟨-, -, rfl⟩ | ⟨-, -, rfl⟩ | ⟨-, -, rfl⟩ | ⟨-, rfl⟩⟩ := execExtract_cases h
  · exact ((KeepsUnlisted.refl .extract s).setCursor rfl _).finish _ _
  · exact ((KeepsUnlisted.gotPasslen s).setCursor rfl _).finish _ _
  · exact ((KeepsUnlisted.gotPass s).setCursor rfl _).finish _ _
  · exact ((KeepsUnlisted.gotMsglen s).setCursor rfl _).finish _ _
  · exact ((KeepsUnlisted.gotMsg s).setCursor rfl _).finish _ _

theorem exec_keepsUnlisted (h : exec i s = .next t) : KeepsUnlisted i s t := by
  cases i with
  | nop =>
    obtain rfl := Host.Outcome.next.inj h
    exact (KeepsUnlisted.refl .nop s).finish _ _
  | encint w => exact execEncint_keepsUnlisted h
  | decint w => exact execDecint_keepsUnlisted h
  | enctxt sel => exact execEnctxt_keepsUnlisted h
  | dectxt sel => exact execDectxt_keepsUnlisted h
  | bqclr =>
    obtain rfl := Host.Outcome.next.inj h
    exact ((KeepsUnlisted.refl .bqclr s).withBq (by simp) []).finish _ _
  | embed => exact execEmbed_keepsUnlisted h
  | extract => exact execExtract_keepsUnlisted h

/-- The commands on the grid are EMBED and EXTRACT. -/
theorem usesGrid_iff (i : Instr) : usesGrid i = true ↔ i = .embed ∨ i = .extract := by
  cases i <;> simp [usesGrid]

theorem usesGrid_eq_false (hembed : i ≠ .embed) (hextract : i ≠ .extract) : usesGrid i = false := by
  rw [← Bool.not_eq_true, usesGrid_iff]
  exact not_or.2 ⟨hembed, hextract⟩

/-- Settles O33: the fields of the relation that every command keeps. -/
theorem commandsTouchOnlyWhatTheAccessSummaryLists : Obligations.CommandsTouchOnlyWhatTheAccessSummaryLists := by
  intro i s t h
  have hkeep := exec_keepsUnlisted h
  obtain ⟨hrows, hcols, hchans⟩ := hkeep.dims
  exact ⟨⟨hkeep.params, hrows, hcols, hchans, hkeep.outside⟩, hkeep.lens, hkeep.ival, hkeep.bq,
    fun hembed hextract => hkeep.cursors (usesGrid_eq_false hembed hextract), hkeep.samples,
    fun k hdectxt hextract => hkeep.bytes .pass k ⟨hdectxt, hextract⟩,
    fun k hdectxt hextract => hkeep.bytes .msg k ⟨hdectxt, hextract⟩⟩

/-! ### The parameters -/

theorem issue_params {x : BitVec 32} (h : issue x s = .next t) : t.params = s.params := by
  unfold issue at h
  split at h
  · exact (exec_keepsUnlisted h).params
  · obtain rfl := Host.Outcome.next.inj h
    rfl

theorem regWrite_params {n : BitVec 4} {v : Nat} (h : perform (.regWrite n v) s = .next t) : t.params = s.params := by
  obtain hcmd | rfl | ⟨_, rfl⟩ | ⟨_, rfl⟩ | ⟨_, rfl⟩ | ⟨_, rfl⟩ | ⟨_, rfl⟩ | ⟨_, rfl⟩ := regWrite_cases h
  · exact issue_params hcmd
  all_goals rfl

theorem perform_params {op : HostOp} (h : perform op s = .next t) : t.params = s.params := by
  obtain ⟨n, v, rfl⟩ | ⟨v, rfl⟩ | ⟨sel, i, b, -, -, rfl⟩ | ⟨k, x, -, -, rfl⟩ | ⟨-, rfl⟩ := perform_cases h
  · exact regWrite_params h
  · exact s.record_params v
  · exact s.setBuf_params sel _
  · exact s.setSample_params k x
  · exact s.applyReset_params

/-- Settles O52: an idle step changes nothing, and any other performs one transaction. -/
theorem stepKeepsParameters : Obligations.StepKeepsParameters := by
  intro s t h
  obtain ⟨-, rfl⟩ | ⟨op, rest, -, hop⟩ := step_cases h
  · rfl
  · exact perform_params (s := { s with pending := rest }) hop

/-! ### The cursor invariant -/

/-- R36 speaks of the dimensions and the cursors only. -/
theorem State.CursorInv.congr (h : s.CursorInv) (hdims : t.rows = s.rows ∧ t.cols = s.cols ∧ t.chans = s.chans)
    (hcur : t.bcur = s.bcur ∧ t.scurR = s.scurR ∧ t.scurC = s.scurC ∧ t.scurCh = s.scurCh) : t.CursorInv := by
  obtain ⟨hrows, hcols, hchans⟩ := hdims
  obtain ⟨hbcur, hscurR, hscurC, hscurCh⟩ := hcur
  unfold CursorInv numSamples at *
  rwa [hrows, hcols, hchans, hbcur, hscurR, hscurC, hscurCh]

/-- The cursors stand at one position of the traversal or at its end (R34, R35, R36). -/
def State.CursorInGrid (s : State) : Prop := s.CursorInv ∧ s.bcur.toNat ≤ s.numSamples

theorem State.cursorInGrid_setCursor {k : Nat} (hk : k ≤ s.numSamples) (op : BitVec 8) (o : CmdOutcome) :
    ((s.setCursor k).finish op o).CursorInGrid := by
  have hat : (s.setCursor k).CursorAt k := s.cursorAt_setCursor hk
  exact ⟨cursorInv_of_cursorAt _ hat hk, hat.1.trans_le hk⟩

theorem execEmbed_cursorInGrid (h : execEmbed s = .next t) : t.CursorInGrid := by
  obtain ⟨-, ⟨-, rfl⟩ | ⟨hok, rfl⟩⟩ := execEmbed_cases h
  · exact State.cursorInGrid_setCursor (Nat.zero_le _) _ _
  · obtain ⟨-, -, hfit⟩ := (embedCheck_ok_iff s).1 hok
    exact State.cursorInGrid_setCursor (by rwa [State.numSamples_putBits]) _ _

/-- Wherever EXTRACT ends, its last position is no further than the samples it has found to exist. -/
theorem execExtract_cursorInGrid (h : execExtract s = .next t) : t.CursorInGrid := by
  obtain ⟨-, ⟨-, rfl⟩ | ⟨hpos, -, rfl⟩ | ⟨hpos, -, rfl⟩ | ⟨hpos, -, rfl⟩ | ⟨hpos, rfl⟩⟩ := execExtract_cases h
  · exact State.cursorInGrid_setCursor (Nat.zero_le _) _ _
  · exact State.cursorInGrid_setCursor (by rwa [gotPasslen_numSamples]) _ _
  · exact State.cursorInGrid_setCursor (by rwa [gotPass_numSamples]) _ _
  · exact State.cursorInGrid_setCursor (by rwa [gotMsglen_numSamples]) _ _
  · exact State.cursorInGrid_setCursor (by rwa [gotMsg_numSamples]) _ _

theorem exec_cursorInGrid (hi : usesGrid i = true) (h : exec i s = .next t) : t.CursorInGrid := by
  obtain rfl | rfl := (usesGrid_iff i).1 hi
  · exact execEmbed_cursorInGrid h
  · exact execExtract_cursorInGrid h

/-- Settles O51: a command on the grid leaves its cursors in the grid, and any other touches neither the cursors nor
the dimensions. -/
theorem commandsKeepCursorInvariant : Obligations.CommandsKeepCursorInvariant := by
  intro i s t h
  have hkeep := exec_keepsUnlisted h
  refine ⟨fun hinv => ?_, fun hi => exec_cursorInGrid ((usesGrid_iff i).2 hi) h⟩
  cases hi : usesGrid i with
  | true => exact (exec_cursorInGrid hi h).1
  | false => exact hinv.congr hkeep.dims (hkeep.cursors hi)

/-! ### The state after reset -/

/-- Settles O46: no byte is listed after reset, so every read falls back to the free value. -/
theorem resetStateIsTheTablesState : Obligations.ResetStateIsTheTablesState := by
  have hbytes : ∀ sel i, State.reset.bufByte sel i = Config.unwritten State.reset.epoch (bufSpace sel) i := by
    intro sel i
    cases sel <;> rfl
  exact ⟨rfl, rfl, rfl, rfl, rfl, rfl, rfl, rfl, rfl, rfl, rfl, rfl, rfl, hbytes, fun _ => rfl⟩

theorem reset_inv : State.reset.Inv where
  params_wf := by decide
  pbuf_wf := List.Pairwise.nil
  pbuf_below := List.forall_mem_nil _
  mbuf_wf := List.Pairwise.nil
  mbuf_below := List.forall_mem_nil _
  grid_wf := List.Pairwise.nil
  grid_below := List.forall_mem_nil _
  bq_within := Nat.zero_le _
  status_reachable := statusReachable_zero

/-- Settles O49: the memories and the queue are empty, and the cursors stand at position 0. -/
theorem resetMeetsInvariant : Obligations.ResetMeetsInvariant := by
  have hat : State.reset.CursorAt 0 := ⟨rfl, (coords_zero _ _).symm⟩
  exact ⟨reset_inv, State.reset.cursorInv_of_cursorAt hat (Nat.zero_le _)⟩

namespace State.Launch

theorem numSamples_eq_zero (h : s.Launch) : s.numSamples = 0 := by
  obtain ⟨hrows, -, -⟩ := h.dims_zero
  simp [numSamples, hrows]

/-- The grid of no samples always exists. -/
theorem grid_exists (h : s.Launch) : s.numSamples ≤ s.params.gridCap := by
  rw [h.numSamples_eq_zero]
  exact Nat.zero_le _

theorem embedCheck_eq (h : s.Launch) : embedCheck s = .emptyPasscode := by
  obtain ⟨hplen, -⟩ := h.lens_zero
  rw [embedCheck, if_pos hplen]

/-- The cursors already stand where a command that fails at once puts them. -/
theorem setCursor_zero_eq (h : s.Launch) : s.setCursor 0 = s := by
  obtain ⟨hbcur, hscurR, hscurC, hscurCh⟩ := h.cursors_zero
  have hat : s.CursorAt 0 := by simp [CursorAt, coords_zero, hbcur, hscurR, hscurC, hscurCh]
  exact (State.eq_setCursor_of_cursorAt hat (Nat.zero_le _) rfl).symm

theorem exec_embed_eq (h : s.Launch) : exec .embed s = .next { s with status := 0x00001011#32 } := by
  have hfail : embedCheck s ≠ .ok := by simp [h.embedCheck_eq]
  rw [exec_embed, execEmbed_fail h.grid_exists hfail, h.setCursor_zero_eq, h.embedCheck_eq]
  rfl

theorem exec_extract_eq (h : s.Launch) : exec .extract s = .next { s with status := 0x00001113#32 } := by
  have hshort : s.numSamples < 16 := by simp [h.numSamples_eq_zero]
  rw [exec_extract, execExtract_eq, if_neg (Nat.not_lt.2 h.grid_exists), if_pos hshort, truncateAt,
    h.setCursor_zero_eq]
  rfl

end State.Launch

/-- Settles O48: the first check of each command fails, and the cursors are 0 already. -/
theorem launchCommandsFailSafely : Obligations.LaunchCommandsFailSafely :=
  fun _ h => ⟨h.exec_embed_eq, h.exec_extract_eq⟩

end Sys2Proof.Machine
end

section
/-! PROOFS. The family 20_memory.md: the grid's order and its bound, the order of EMBED's writes, and a script run step
by step. -/

namespace Sys2Proof.Machine

variable {s t : State}

/-! ### The bound of the grid store -/

/-- Settles O22: the bound is the first thing both commands look at. -/
theorem gridBeyondStoreRefused : Obligations.GridBeyondStoreRefused := by
  intro s hbeyond
  constructor
  · rw [exec_embed, execEmbed]
    exact if_pos hbeyond
  · rw [exec_extract, execExtract]
    exact if_pos hbeyond

/-! ### The grid's order -/

/-- The numbers below n · m, counted as n runs of m. -/
theorem range_mul_eq_flatMap (n m : Nat) :
    List.range (n * m) = (List.range n).flatMap fun i => (List.range m).map fun j => i * m + j := by
  induction n with
  | zero => simp
  | succ n ih =>
    rw [Nat.succ_mul, List.range_add, List.range_succ, List.flatMap_append, ← ih]
    simp

/-- Each sample of the nested loops is the `coords` of its own linear index (R62, R63). -/
theorem traversal_eq_map_coords (rows cols chans : Nat) :
    traversal rows cols chans = (List.range (rows * cols * chans)).map (coords cols chans) := by
  rw [range_mul_eq_flatMap (rows * cols), range_mul_eq_flatMap rows]
  simp only [traversal, List.map_flatMap, List.flatMap_assoc, List.flatMap_map, List.map_map]
  refine List.flatMap_congr fun r _ => List.flatMap_congr fun c hc => List.map_congr_left fun ch hch => ?_
  exact (coords_linearIndex (List.mem_range.1 hc) (List.mem_range.1 hch)).symm

/-- Settles O37: `coords` and `linearIndex` are inverse to each other, and the traversal lists `coords`. -/
theorem traversalIsAscendingLinearIndex : Obligations.TraversalIsAscendingLinearIndex := by
  intro rows cols chans
  refine ⟨traversal_eq_map_coords rows cols chans, ?_, ?_, coords_end⟩
  · intro r c ch hr hc hch
    exact ⟨linearIndex_lt hr hc hch, coords_linearIndex hc hch⟩
  · intro k hk
    obtain ⟨hr, hc, hch⟩ := coords_lt hk
    exact ⟨_, _, _, rfl, hr, hc, hch, linearIndex_coords cols chans k⟩

/-! ### Writes of samples in any order -/

/-- Write samples at the positions of a list, in its order, each with the value its position has. -/
def State.setSamples (s : State) (x : Nat → Byte) (ks : List Nat) : State :=
  ks.foldl (fun g k => g.setSample k (x k)) s

/-- The sample EMBED leaves at a position of the container (R68, R151). -/
def State.embeddedSample (s : State) (k : Nat) : Byte := setLsb (s.sample k) (s.containerBitAt k)

namespace State

variable (x : Nat → Byte)

theorem setSamples_cons (s : State) (k : Nat) (ks : List Nat) :
    s.setSamples x (k :: ks) = (s.setSample k (x k)).setSamples x ks := (rfl)

theorem setSamples_concat (s : State) (ks : List Nat) (k : Nat) :
    s.setSamples x (ks ++ [k]) = (s.setSamples x ks).setSample k (x k) := List.foldl_concat ..

theorem grid_wf_setSamples (hwf : s.grid.wf) (ks : List Nat) : (s.setSamples x ks).grid.wf := by
  induction ks generalizing s with
  | nil => exact hwf
  | cons k ks ih => exact ih (Memory.wf_set hwf k (x k))

/-- What is listed after the writes depends on which positions were written, not on their order. -/
theorem get?_setSamples (s : State) (ks : List Nat) (a : Nat) :
    (s.setSamples x ks).grid.get? a = if a ∈ ks then some (x a) else s.grid.get? a := by
  induction ks generalizing s with
  | nil => rfl
  | cons k ks ih =>
    rw [setSamples_cons, ih, setSample_grid, Memory.get?_set]
    by_cases hks : a ∈ ks
    · simp [hks]
    · by_cases hk : a = k <;> simp [hks, hk]

/-- The order of the writes has no influence on the grid (R75). -/
theorem setSamples_grid_of_perm (hwf : s.grid.wf) {ks ls : List Nat} (hperm : ks.Perm ls) :
    (s.setSamples x ks).grid = (s.setSamples x ls).grid := by
  refine Memory.ext (grid_wf_setSamples x hwf ks) (grid_wf_setSamples x hwf ls) fun a => ?_
  simp only [get?_setSamples, hperm.mem_iff]

/-- EMBED's loop over the first n container bits is the ascending order of the writes. -/
theorem putBits_take_container {n : Nat} (hn : n ≤ s.containerLength) :
    putBits (s.container.take n) 0 s = s.setSamples s.embeddedSample (List.range n) := by
  induction n with
  | zero => rfl
  | succ n ih =>
    have hbits : s.container.take (n + 1) = s.container.take n ++ [s.containerBitAt n] := by
      rw [List.take_add_one, getElem?_container s hn]
      rfl
    have hlen : (s.container.take n).length = n := by simp; omega
    have hunread : (putBits (s.container.take n) 0 s).sample n = s.sample n := by
      rw [sample_putBits, hlen, if_neg (by omega)]
    rw [hbits, putBits_concat, hlen, Nat.zero_add, hunread, ih (by omega), List.range_succ, setSamples_concat]
    rfl

end State

theorem embedPayload_grid (s : State) :
    (embedPayload s).grid = (s.setSamples s.embeddedSample (List.range s.containerLength)).grid := by
  rw [← State.putBits_take_container le_rfl, List.take_of_length_le (State.length_container s).le]
  rfl

/-- OK is the only outcome of EMBED with this status word, so the container has been written. -/
theorem execEmbed_eq_payload (hexec : execEmbed s = .next t) (hstatus : t.status = 0x00001000#32) :
    t = (embedPayload s).finish opEmbed .ok := by
  obtain ⟨-, ⟨hfail, rfl⟩ | ⟨-, rfl⟩⟩ := execEmbed_cases hexec
  · have hword : ∀ o ∈ outcomesOf .embed, statusWord opEmbed o = 0x00001000#32 → o = .ok := by decide
    exact absurd (hword _ (embedCheck_mem s) hstatus) hfail
  · rfl

/-- Settles O26: EMBED's loop is one order of the writes, and the grid is the same for all of them. -/
theorem embedWriteOrderIrrelevant : Obligations.EmbedWriteOrderIrrelevant := by
  intro s t hwf hexec hstatus ks hperm
  calc (s.setSamples s.embeddedSample ks).grid
      = (s.setSamples s.embeddedSample (List.range s.containerLength)).grid :=
        State.setSamples_grid_of_perm _ hwf hperm
    _ = (embedPayload s).grid := (embedPayload_grid s).symm
    _ = t.grid := by rw [execEmbed_eq_payload hexec hstatus, State.finish_grid]

/-! ### A script, step by step -/

/-- One step performs the head of the script and leaves the rest of it in place. -/
theorem step_withScript_cons (s : State) (op : HostOp) (ops : List HostOp) :
    step (s.withScript (op :: ops)) = Result.map (State.withScript · ops) (perform op s) := by
  have hstep : step (s.withScript (op :: ops)) = Result.map (State.setPending (ops ++ s.pending)) (perform op s) := by
    rw [← perform_setPending]
    exact step_of_pending rfl
  rw [hstep]
  cases hop : perform op s with
  | next t =>
    have hpending : t.pending = s.pending := perform_pending hop
    rw [← hpending]
    rfl
  | fault r => rfl
  | refused r => rfl

/-- Settles O45, by induction on the script. -/
theorem stepsPerformScriptInOrder : Obligations.StepsPerformScriptInOrder := by
  intro s script
  induction script generalizing s with
  | nil => rfl
  | cons op ops ih =>
    rw [List.length_cons, core_run_succ, step_withScript_cons, performAll]
    cases perform op s with
    | next t => exact ih t
    | fault r => rfl
    | refused r => rfl

end Sys2Proof.Machine
end

section
/-! PROOFS. The family 30_encoding.md: the decoder and the encoder are inverse to each other on the well-formed
commands, which are 72, and the container bit by bit. -/

namespace Sys2Proof

variable {x : BitVec 32} {i : Instr}

/-! ### The fields of a word -/

theorem toNat_opOf (x : BitVec 32) : (opOf x).toNat = x.toNat % 256 := by
  simp [opOf]

theorem toNat_argOf (x : BitVec 32) : (argOf x).toNat = x.toNat / 256 % 256 := by
  simp [argOf, Nat.shiftRight_eq_div_pow]

theorem toNat_rsvOf (x : BitVec 32) : (rsvOf x).toNat = x.toNat / 65536 := by
  have hlt : x.toNat / 65536 < 65536 := Nat.div_lt_of_lt_mul x.isLt
  simp [rsvOf, Nat.shiftRight_eq_div_pow, Nat.mod_eq_of_lt hlt]

theorem wordFields (i : Instr) : Laws.WordFields.Statement i := by
  cases i with
  | nop => exact Laws.WordFields.nop
  | encint w => exact Laws.WordFields.encint w
  | decint w => exact Laws.WordFields.decint w
  | enctxt sel => exact Laws.WordFields.enctxt sel
  | dectxt sel => exact Laws.WordFields.dectxt sel
  | bqclr => exact Laws.WordFields.bqclr
  | embed => exact Laws.WordFields.embed
  | extract => exact Laws.WordFields.extract

/-- The three fields leave no bit of a word out (R96). -/
theorem word_ext {x y : BitVec 32} (hop : opOf x = opOf y) (harg : argOf x = argOf y) (hrsv : rsvOf x = rsvOf y) :
    x = y := by
  have hlow : x.toNat % 256 = y.toNat % 256 := by rw [← toNat_opOf, hop, toNat_opOf]
  have hmid : x.toNat / 256 % 256 = y.toNat / 256 % 256 := by rw [← toNat_argOf, harg, toNat_argOf]
  have hhigh : x.toNat / 65536 = y.toNat / 65536 := by rw [← toNat_rsvOf, hrsv, toNat_rsvOf]
  exact BitVec.eq_of_toNat_eq (by omega)

theorem encode_eq_iff : encode i = x ↔ opOf x = i.op ∧ argOf x = i.arg ∧ rsvOf x = 0#16 := by
  obtain ⟨hop, harg, hrsv⟩ := wordFields i
  constructor
  · rintro rfl
    exact ⟨hop, harg, hrsv⟩
  · rintro ⟨hop', harg', hrsv'⟩
    exact word_ext (hop.trans hop'.symm) (harg.trans harg'.symm) (hrsv.trans hrsv'.symm)

/-! ### The decoder -/

theorem op_mem_knownOps (i : Instr) : i.op ∈ knownOps := by
  cases i <;> simp [Instr.op, knownOps]

theorem decodeSel_eq_some_iff {arg : BitVec 8} {sel : BufSel} : decodeSel arg = some sel ↔ arg = encodeSel sel := by
  unfold decodeSel
  split
  case isTrue h0 => subst h0; cases sel <;> decide
  case isFalse h0 =>
    split
    case isTrue h1 => subst h1; cases sel <;> decide
    case isFalse h1 => cases sel <;> simpa [encodeSel]

section
variable (arg : BitVec 8)

@[simp] theorem decodeForm_opNop : decodeForm opNop arg = if arg = 0#8 then some .nop else none := (rfl)
@[simp] theorem decodeForm_opEncint :
    decodeForm opEncint arg = if widthOk arg then some (.encint arg) else none := (rfl)
@[simp] theorem decodeForm_opDecint :
    decodeForm opDecint arg = if widthOk arg then some (.decint arg) else none := (rfl)
@[simp] theorem decodeForm_opEnctxt : decodeForm opEnctxt arg = (decodeSel arg).map .enctxt := (rfl)
@[simp] theorem decodeForm_opDectxt : decodeForm opDectxt arg = (decodeSel arg).map .dectxt := (rfl)
@[simp] theorem decodeForm_opBqclr : decodeForm opBqclr arg = if arg = 0#8 then some .bqclr else none := (rfl)
@[simp] theorem decodeForm_opEmbed : decodeForm opEmbed arg = if arg = 0#8 then some .embed else none := (rfl)
@[simp] theorem decodeForm_opExtract : decodeForm opExtract arg = if arg = 0#8 then some .extract else none := (rfl)

end

/-- The table of R96 from a command to its fields. -/
theorem decodeForm_op_arg (hwf : i.wf = true) : decodeForm i.op i.arg = some i := by
  cases i with
  | nop => rfl
  | encint w => exact if_pos hwf
  | decint w => exact if_pos hwf
  | enctxt sel => cases sel <;> rfl
  | dectxt sel => cases sel <;> rfl
  | bqclr => rfl
  | embed => rfl
  | extract => rfl

/-- The table of R96 from the fields to the command. -/
theorem fields_of_decodeForm {op arg : BitVec 8} (hop : op ∈ knownOps) (h : decodeForm op arg = some i) :
    i.wf = true ∧ op = i.op ∧ arg = i.arg := by
  simp only [knownOps, List.mem_cons, List.not_mem_nil, or_false] at hop
  obtain rfl | rfl | rfl | rfl | rfl | rfl | rfl | rfl := hop
  · obtain ⟨harg, rfl⟩ : arg = 0#8 ∧ Instr.nop = i := by simpa using h
    exact ⟨rfl, rfl, harg⟩
  · obtain ⟨hwidth, rfl⟩ : widthOk arg = true ∧ Instr.encint arg = i := by simpa using h
    exact ⟨hwidth, rfl, rfl⟩
  · obtain ⟨hwidth, rfl⟩ : widthOk arg = true ∧ Instr.decint arg = i := by simpa using h
    exact ⟨hwidth, rfl, rfl⟩
  · obtain ⟨sel, hsel, rfl⟩ : ∃ sel, arg = encodeSel sel ∧ Instr.enctxt sel = i := by
      simpa [decodeSel_eq_some_iff] using h
    exact ⟨rfl, rfl, hsel⟩
  · obtain ⟨sel, hsel, rfl⟩ : ∃ sel, arg = encodeSel sel ∧ Instr.dectxt sel = i := by
      simpa [decodeSel_eq_some_iff] using h
    exact ⟨rfl, rfl, hsel⟩
  · obtain ⟨harg, rfl⟩ : arg = 0#8 ∧ Instr.bqclr = i := by simpa using h
    exact ⟨rfl, rfl, harg⟩
  · obtain ⟨harg, rfl⟩ : arg = 0#8 ∧ Instr.embed = i := by simpa using h
    exact ⟨rfl, rfl, harg⟩
  · obtain ⟨harg, rfl⟩ : arg = 0#8 ∧ Instr.extract = i := by simpa using h
    exact ⟨rfl, rfl, harg⟩

/-- The three tests of R97, each reached when those before it pass. -/
theorem decode_cases (x : BitVec 32) :
    (opOf x ∉ knownOps ∧ decode x = .illegal .reservedOpcode) ∨
    (opOf x ∈ knownOps ∧ rsvOf x ≠ 0#16 ∧ decode x = .illegal .reservedBits) ∨
    (opOf x ∈ knownOps ∧ rsvOf x = 0#16 ∧ decode x = .illegal .badOperand) ∨
    (opOf x ∈ knownOps ∧ rsvOf x = 0#16 ∧ ∃ i, decodeForm (opOf x) (argOf x) = some i ∧ decode x = .cmd i) := by
  by_cases hop : opOf x ∈ knownOps
  case neg => exact .inl ⟨hop, if_pos hop⟩
  by_cases hrsv : rsvOf x = 0#16
  case neg => exact .inr (.inl ⟨hop, hrsv, by simp [decode, hop, hrsv]⟩)
  cases hform : decodeForm (opOf x) (argOf x) with
  | none => exact .inr (.inr (.inl ⟨hop, hrsv, by simp [decode, hop, hrsv, hform]⟩))
  | some i => exact .inr (.inr (.inr ⟨hop, hrsv, i, rfl, by simp [decode, hop, hrsv, hform]⟩))

/-- The decoder answers a command on that command's word only (R97, R99). -/
theorem decode_eq_cmd_iff : decode x = .cmd i ↔ i.wf = true ∧ encode i = x := by
  rw [encode_eq_iff]
  constructor
  · intro h
    obtain ⟨-, hx⟩ | ⟨-, -, hx⟩ | ⟨-, -, hx⟩ | ⟨hop, hrsv, j, hform, hx⟩ := decode_cases x
    · cases h.symm.trans hx
    · cases h.symm.trans hx
    · cases h.symm.trans hx
    · obtain rfl := Decoded.cmd.inj (h.symm.trans hx)
      obtain ⟨hwf, hop', harg⟩ := fields_of_decodeForm hop hform
      exact ⟨hwf, hop', harg, hrsv⟩
  · rintro ⟨hwf, hop, harg, hrsv⟩
    simp [decode, hop, harg, hrsv, op_mem_knownOps, decodeForm_op_arg hwf]

/-- Settles O2: the decoder answers each well-formed command on its own word. -/
theorem decodeOfEncode : Obligations.DecodeOfEncode :=
  fun _ hwf => decode_eq_cmd_iff.2 ⟨hwf, rfl⟩

/-- Settles O3: the decoder answers a command on no other word. -/
theorem encodeOfDecode : Obligations.EncodeOfDecode :=
  fun _ _ => decode_eq_cmd_iff.1

/-! ### The commands of given words -/

theorem toNat_encode (i : Instr) : (encode i).toNat = i.op.toNat + i.arg.toNat * 256 := by
  obtain ⟨hop, harg, hrsv⟩ := wordFields i
  have hzero : (encode i).toNat / 65536 = 0 := by rw [← toNat_rsvOf, hrsv]; rfl
  rw [← hop, ← harg, toNat_opOf, toNat_argOf]
  omega

theorem decode_of_toNat (hwf : i.wf = true) (hx : x.toNat = i.op.toNat + i.arg.toNat * 256) : decode x = .cmd i :=
  decode_eq_cmd_iff.2 ⟨hwf, BitVec.eq_of_toNat_eq ((toNat_encode i).trans hx.symm)⟩

theorem toNat_ofNat_width {w : Nat} (hw : w ≤ 32) : (BitVec.ofNat 8 w).toNat = w := by
  rw [BitVec.toNat_ofNat, Nat.mod_eq_of_lt (by omega)]

theorem widthOk_ofNat {w : Nat} (hw : 1 ≤ w) (hw' : w ≤ 32) : widthOk (BitVec.ofNat 8 w) = true := by
  simp [widthOk, toNat_ofNat_width hw', hw, hw']

theorem decode_encint {w : Nat} (hw : 1 ≤ w) (hw' : w ≤ 32) (hx : x.toNat = 0x01 + w * 256) :
    decode x = .cmd (.encint (BitVec.ofNat 8 w)) := by
  refine decode_of_toNat (widthOk_ofNat hw hw') ?_
  rwa [Instr.arg, toNat_ofNat_width hw']

theorem decode_decint {w : Nat} (hw : 1 ≤ w) (hw' : w ≤ 32) (hx : x.toNat = 0x02 + w * 256) :
    decode x = .cmd (.decint (BitVec.ofNat 8 w)) := by
  refine decode_of_toNat (widthOk_ofNat hw hw') ?_
  rwa [Instr.arg, toNat_ofNat_width hw']

/-- Settles O1: the widths' words by their value, the other words one by one. -/
theorem commandWordsDecode : Obligations.CommandWordsDecode := by
  have hword : ∀ op w : Nat, op ≤ 2 → w ≤ 32 → (BitVec.ofNat 32 (op + w * 2 ^ 8)).toNat = op + w * 256 := by
    intro op w hop hw
    rw [BitVec.toNat_ofNat]
    exact Nat.mod_eq_of_lt (by omega)
  refine ⟨decode_of_toNat rfl rfl, ?_, ?_, decode_of_toNat rfl rfl, decode_of_toNat rfl rfl, decode_of_toNat rfl rfl,
    decode_of_toNat rfl rfl, decode_of_toNat rfl rfl, decode_of_toNat rfl rfl, decode_of_toNat rfl rfl⟩
  · exact fun w hw hw' => decode_encint hw hw' (hword _ w (by decide) hw')
  · exact fun w hw hw' => decode_decint hw hw' (hword _ w (by decide) hw')

/-! ### The tests in order -/

/-- The eight opcodes as R97 writes them. -/
theorem opOf_mem_knownOps_iff :
    opOf x ∈ knownOps ↔ x.toNat % 256 ∈ [0x00, 0x01, 0x02, 0x03, 0x04, 0x05, 0x10, 0x11] := by
  simp [knownOps, ← BitVec.toNat_inj, toNat_opOf, opNop, opEncint, opDecint, opEnctxt, opDectxt, opBqclr, opEmbed,
    opExtract]

theorem rsvOf_eq_zero_iff : rsvOf x = 0#16 ↔ x.toNat / 65536 = 0 := by
  rw [← BitVec.toNat_inj, toNat_rsvOf]
  rfl

theorem decode_eq_reservedOpcode (hop : opOf x ∉ knownOps) : decode x = .illegal .reservedOpcode :=
  if_pos hop

theorem decode_eq_reservedBits (hop : opOf x ∈ knownOps) (hrsv : rsvOf x ≠ 0#16) :
    decode x = .illegal .reservedBits := by
  rw [decode, if_neg (not_not.2 hop), if_pos hrsv]

/-- A word that passes the first two tests and is no command's word fails the third. -/
theorem decode_eq_badOperand (hop : opOf x ∈ knownOps) (hrsv : rsvOf x = 0#16)
    (hno : ∀ i : Instr, i.wf = true → encode i ≠ x) : decode x = .illegal .badOperand := by
  obtain ⟨hop', -⟩ | ⟨-, hrsv', -⟩ | ⟨-, -, hx⟩ | ⟨-, -, i, -, hx⟩ := decode_cases x
  · exact absurd hop hop'
  · exact absurd hrsv hrsv'
  · exact hx
  · obtain ⟨hwf, henc⟩ := decode_eq_cmd_iff.1 hx
    exact absurd henc (hno i hwf)

/-- The operand ranges of R97, by opcode. -/
theorem arg_range_of_wf (hwf : i.wf = true) :
    (i.op.toNat ∈ [0x01, 0x02] → 1 ≤ i.arg.toNat ∧ i.arg.toNat ≤ 32) ∧
    (i.op.toNat ∈ [0x03, 0x04] → i.arg.toNat ≤ 1) ∧
    (i.op.toNat ∈ [0x00, 0x05, 0x10, 0x11] → i.arg.toNat = 0) := by
  cases i with
  | nop => decide
  | encint w => simpa [Instr.op, opEncint, Instr.arg, Instr.wf, widthOk] using hwf
  | decint w => simpa [Instr.op, opDecint, Instr.arg, Instr.wf, widthOk] using hwf
  | enctxt sel => cases sel <;> decide
  | dectxt sel => cases sel <;> decide
  | bqclr => decide
  | embed => decide
  | extract => decide

/-! ### The legal words -/

/-- The widths of ENCINT and DECINT (R97), each once. -/
def widths : List (BitVec 8) := (List.range' 1 32).map (BitVec.ofNat 8)

theorem mem_widths_iff {w : BitVec 8} : w ∈ widths ↔ widthOk w = true := by
  simp only [widths, List.mem_map, List.mem_range'_1]
  constructor
  · rintro ⟨v, ⟨hv, hv'⟩, rfl⟩
    exact widthOk_ofNat hv (Nat.le_of_lt_succ hv')
  · intro hw
    obtain ⟨hpos, hle⟩ : 1 ≤ w.toNat ∧ w.toNat ≤ 32 := by simpa [widthOk] using hw
    exact ⟨w.toNat, ⟨hpos, Nat.lt_succ_of_le hle⟩, by rw [BitVec.ofNat_toNat, BitVec.setWidth_eq]⟩

/-- The well-formed commands, each once. -/
def wfCommands : List Instr :=
  [Instr.nop, Instr.bqclr, Instr.embed, Instr.extract] ++ [BufSel.pass, BufSel.msg].map Instr.enctxt ++
    [BufSel.pass, BufSel.msg].map Instr.dectxt ++ widths.map Instr.encint ++ widths.map Instr.decint

theorem nodup_wfCommands : wfCommands.Nodup := by decide

theorem mem_wfCommands_iff : i ∈ wfCommands ↔ i.wf = true := by
  cases i with
  | nop => decide
  | encint w => simp [wfCommands, Instr.wf, mem_widths_iff]
  | decint w => simp [wfCommands, Instr.wf, mem_widths_iff]
  | enctxt sel => cases sel <;> decide
  | dectxt sel => cases sel <;> decide
  | bqclr => decide
  | embed => decide
  | extract => decide

/-- The words of the well-formed commands are the legal words. -/
theorem mem_map_encode_wfCommands_iff : x ∈ wfCommands.map encode ↔ ∃ i, decode x = .cmd i := by
  simp only [List.mem_map, mem_wfCommands_iff, decode_eq_cmd_iff]

theorem nodup_map_encode_wfCommands : (wfCommands.map encode).Nodup := by
  refine nodup_wfCommands.map_on fun i hi j hj h => ?_
  have hi' := decodeOfEncode i (mem_wfCommands_iff.1 hi)
  have hj' := decodeOfEncode j (mem_wfCommands_iff.1 hj)
  rw [h, hj'] at hi'
  exact (Decoded.cmd.inj hi').symm

/-- Settles O4: a word with a zero RSV is the sum of its OP and ARG, and the legal words are those of `wfCommands`. -/
theorem decoderTestsInOrder : Obligations.DecoderTestsInOrder := by
  refine ⟨?_, wfCommands.map encode, nodup_map_encode_wfCommands, rfl, fun x => mem_map_encode_wfCommands_iff⟩
  intro x op arg rsv hop harg hrsv
  have hknown : op ∈ [0x00, 0x01, 0x02, 0x03, 0x04, 0x05, 0x10, 0x11] ↔ opOf x ∈ knownOps := by
    rw [hop, opOf_mem_knownOps_iff]
  have hx : rsv = 0 → x.toNat = op + arg * 256 := by omega
  have hzero : rsv = 0 ↔ rsvOf x = 0#16 := by rw [hrsv, rsvOf_eq_zero_iff]
  have hbad : op ∈ [0x00, 0x01, 0x02, 0x03, 0x04, 0x05, 0x10, 0x11] → rsv = 0 →
      (∀ i : Instr, i.wf = true → i.op.toNat = op → i.arg.toNat ≠ arg) → decode x = .illegal .badOperand := by
    intro hmem hrsv0 hno
    refine decode_eq_badOperand (hknown.1 hmem) (hzero.1 hrsv0) fun i hwf hi => ?_
    obtain ⟨hopi, hargi, -⟩ := encode_eq_iff.1 hi
    exact hno i hwf (by rw [← hopi, toNat_opOf, hop]) (by rw [← hargi, toNat_argOf, harg])
  refine ⟨?_, ?_, ?_, ?_, ?_, ?_, ?_, ?_, ?_, ?_, ?_, ?_, ?_, ?_, ?_⟩
  · exact fun hop => decode_eq_reservedOpcode (hknown.not.1 hop)
  · exact fun hop hrsv => decode_eq_reservedBits (hknown.1 hop) (hzero.not.1 hrsv)
  · intro hop hrsv hout
    refine hbad ((by decide : [0x01, 0x02] ⊆ _) hop) hrsv fun i hwf hopi hargi => ?_
    obtain ⟨hwidth, -, -⟩ := arg_range_of_wf hwf
    exact hout (hargi ▸ hwidth (hopi ▸ hop))
  · intro hop hrsv hout
    refine hbad ((by decide : [0x03, 0x04] ⊆ _) hop) hrsv fun i hwf hopi hargi => ?_
    obtain ⟨-, hsel, -⟩ := arg_range_of_wf hwf
    exact hout.not_ge (hargi ▸ hsel (hopi ▸ hop))
  · intro hop hrsv hout
    refine hbad ((by decide : [0x00, 0x05, 0x10, 0x11] ⊆ _) hop) hrsv fun i hwf hopi hargi => ?_
    obtain ⟨-, -, hnone⟩ := arg_range_of_wf hwf
    exact hout (hargi ▸ hnone (hopi ▸ hop))
  · exact fun hop hrsv harg => decode_of_toNat rfl (by rw [hx hrsv, hop, harg]; rfl)
  · exact fun hop hrsv hw hw' => decode_encint hw hw' (hop ▸ hx hrsv)
  · exact fun hop hrsv hw hw' => decode_decint hw hw' (hop ▸ hx hrsv)
  all_goals exact fun hop hrsv harg => decode_of_toNat rfl (by rw [hx hrsv, hop, harg]; rfl)

end Sys2Proof

namespace Sys2Proof.Machine

/-! ### The container -/

/-- Positions behind a field of known length are counted from its end. -/
theorem getElem?_append_add {as : Bits} {n : Nat} (hn : as.length = n) (bs : Bits) (j : Nat) :
    (as ++ bs)[n + j]? = bs[j]? := by
  rw [List.getElem?_append_right (by omega), hn, Nat.add_sub_cancel_left]

section
variable (pl : BitVec 16) (p : List Byte) (ml : BitVec 32) (m : List Byte)

theorem getElem?_containerBits_plen {k : Nat} (hk : k < 16) :
    (containerBits pl p ml m)[k]? = some (pl.getLsbD (15 - k)) := by
  rw [containerBits, List.append_assoc, List.append_assoc, List.getElem?_append_left (by rwa [length_bitsOf]),
    getElem?_bitsOf, if_pos hk]

theorem getElem?_containerBits_pass {j : Nat} (hj : j < 8 * p.length) :
    (containerBits pl p ml m)[16 + j]? = p[j / 8]?.map fun c => c.getLsbD (7 - j % 8) := by
  rw [containerBits, List.append_assoc, List.append_assoc, getElem?_append_add (length_bitsOf pl),
    List.getElem?_append_left (by rwa [length_encodeText]), getElem?_encodeText]

theorem getElem?_containerBits_mlen {j : Nat} (hj : j < 32) :
    (containerBits pl p ml m)[16 + 8 * p.length + j]? = some (ml.getLsbD (31 - j)) := by
  rw [containerBits, List.append_assoc, getElem?_append_add (by simp),
    List.getElem?_append_left (by rwa [length_bitsOf]), getElem?_bitsOf, if_pos hj]

theorem getElem?_containerBits_msg (j : Nat) :
    (containerBits pl p ml m)[48 + 8 * p.length + j]? = m[j / 8]?.map fun c => c.getLsbD (7 - j % 8) := by
  have hlen : (bitsOf pl ++ encodeText p ++ bitsOf ml).length = 48 + 8 * p.length := by simp; omega
  rw [containerBits, getElem?_append_add hlen, getElem?_encodeText]

end

/-- Bit i of a length field is bit i of the length. -/
theorem getLsbD_ofNat_of_lt {w i : Nat} (hi : i < w) (v : Nat) : (BitVec.ofNat w v).getLsbD i = v.testBit i := by
  rw [BitVec.getLsbD_ofNat, decide_eq_true hi, Bool.true_and]

/-- Settles O11: the fields stand one after the other, and the length fields hold the lengths. -/
theorem containerBitByBit : Obligations.ContainerBitByBit := by
  constructor
  · intro p m hp hm
    have hp' : p.length < 2 ^ 16 := by omega
    have hm' : m.length < 2 ^ 32 := by omega
    refine ⟨_, containerOf_eq hp' hm', length_containerBits .., ?_, ?_, ?_, ?_, ?_⟩
    · intro pl ml hpl hml
      rw [encodeInt_of_lt hp'] at hpl
      rw [encodeInt_of_lt hm'] at hml
      rw [← Option.some.inj hpl, ← Option.some.inj hml, containerBits]
    · intro k hk
      rw [getElem?_containerBits_plen _ _ _ _ hk, getLsbD_ofNat_of_lt (by omega)]
    · exact fun j hj => getElem?_containerBits_pass _ _ _ _ hj
    · intro j hj
      rw [getElem?_containerBits_mlen _ _ _ _ hj, getLsbD_ofNat_of_lt (by omega)]
    · exact fun j _ => getElem?_containerBits_msg _ _ _ _ j
  · intro s
    have hbytes : ∀ sel, ∀ i < s.len sel, (s.text sel)[i]? = some (s.bufByte sel i) := by
      intro sel i hi
      rw [State.getElem?_text, if_pos hi]
    exact ⟨s.length_text .pass, hbytes .pass, s.length_text .msg, hbytes .msg, s.containerOf_text⟩

end Sys2Proof.Machine
end

section
/-! PROOFS. The family 41_bit_codec.md: the functions of the Bit Codec, its five commands one by one, and the host
scripts that build a container in the queue and take one apart, field by field. -/

namespace Sys2Proof.Machine

/-! ### The codec functions -/

/-- Settles O6: position i of the word's bits is register bit width-1-i. -/
theorem encodeIntBits : Obligations.EncodeIntBits := by
  intro value width
  refine ⟨fun hfits => ⟨_, encodeInt_of_lt hfits, length_bitsOf _, fun i hi => ?_⟩, encodeInt_of_le⟩
  rw [getElem?_bitsOf, if_pos hi, getLsbD_ofNat_of_lt (by omega), Nat.testBit_eq_decide_div_mod_eq]

theorem decodeInt_eq_sum (bits : Bits) :
    decodeInt bits = ∑ i ∈ Finset.range bits.length, (bits.getD i false).toNat * 2 ^ (bits.length - 1 - i) := by
  induction bits with
  | nil => rfl
  | cons b bs ih =>
    rw [decodeInt_cons, ih, List.length_cons, Finset.sum_range_succ', Nat.add_comm]
    simp [Nat.sub_sub, Nat.add_comm]

/-- Settles O7: the weighted sum by induction on the sequence. -/
theorem decodeIntWeighsBits : Obligations.DecodeIntWeighsBits :=
  ⟨fun bits => ⟨decodeInt_eq_sum bits, decodeInt_lt bits⟩, decodeInt_nil, decodeInt_concat⟩

/-- Settles O8: a character's code is its eight bits. -/
theorem encodeTextConcatenates : Obligations.EncodeTextConcatenates :=
  ⟨encodeText_nil, fun c s => ⟨bitsOf c, encodeInt_toNat c, encodeText_cons c s⟩, length_encodeText⟩

theorem decodeText_encodeText (s : List Byte) : decodeText (encodeText s) = some s := by
  rw [decodeText_of_length (length_encodeText s), chars_encodeText]

theorem decodeText_eq_none {bits : Bits} (h : bits.length % 8 ≠ 0) : decodeText bits = none := if_neg h

/-- A sequence of at most w bits has a value that w bits hold. -/
theorem decodeInt_take_lt (bits : Bits) (w : Nat) : decodeInt (bits.take w) < 2 ^ w :=
  (decodeInt_lt _).trans_le (Nat.pow_le_pow_right Nat.two_pos (List.length_take_le w bits))

theorem toNat_char (bits : Bits) : (BitVec.ofNat 8 (decodeInt (bits.take 8))).toNat = decodeInt (bits.take 8) := by
  rw [BitVec.toNat_ofNat, Nat.mod_eq_of_lt (decodeInt_take_lt bits 8)]

/-- Settles O9: no group of 8 bits is too large for a character. -/
theorem decodeTextGroups : Obligations.DecodeTextGroups := by
  refine ⟨fun bits => ⟨fun n hlen => ?_, decodeText_eq_none⟩, decodeText_encodeText⟩
  refine ⟨_, decodeText_of_length hlen, length_chars n bits, fun i hi => ?_⟩
  exact ⟨_, by rw [getElem?_chars, if_pos hi], toNat_char _⟩

theorem encodeInt_decodeInt (bits : Bits) : encodeInt (decodeInt bits) bits.length = some bits := by
  rw [encodeInt_of_lt (decodeInt_lt bits), bitsOf_decodeInt]

theorem encodeInt_eq_some_iff {v w : Nat} {bits : Bits} :
    encodeInt v w = some bits ↔ bits.length = w ∧ decodeInt bits = v := by
  constructor
  · intro h
    have hfits : v < 2 ^ w := by
      by_contra hv
      rw [encodeInt_of_le (Nat.not_lt.1 hv)] at h
      cases h
    rw [encodeInt_of_lt hfits] at h
    obtain rfl := Option.some.inj h
    rw [length_bitsOf, decodeInt_bitsOf, BitVec.toNat_ofNat, Nat.mod_eq_of_lt hfits]
    exact ⟨rfl, rfl⟩
  · rintro ⟨rfl, rfl⟩
    exact encodeInt_decodeInt bits

theorem decodeText_eq_some_iff {bits : Bits} {cs : List Byte} : decodeText bits = some cs ↔ encodeText cs = bits := by
  constructor
  · intro h
    by_cases hlen : bits.length % 8 = 0
    case neg =>
      rw [decodeText_eq_none hlen] at h
      cases h
    have hgroups : bits.length = 8 * (bits.length / 8) := by omega
    rw [decodeText_of_length hgroups] at h
    rw [← Option.some.inj h, encodeText_chars _ bits hgroups]
  · rintro rfl
    exact decodeText_encodeText cs

/-- Sequences of one length are ordered as their values are: the first bit in which they differ outweighs the rest. -/
theorem decodeInt_lt_iff_lex {bits bits' : Bits} (hlen : bits.length = bits'.length) :
    decodeInt bits < decodeInt bits' ↔ List.Lex (fun a b => a = false ∧ b = true) bits bits' := by
  induction bits generalizing bits' with
  | nil =>
    obtain rfl := List.length_eq_zero_iff.1 hlen.symm
    simp
  | cons b bs ih =>
    obtain _ | ⟨b', bs'⟩ := bits'
    case nil => cases hlen
    have hlen' : bs.length = bs'.length := Nat.succ.inj hlen
    have hlt := decodeInt_lt bs
    have hlt' := decodeInt_lt bs'
    rw [List.cons_lex_cons_iff, ← ih hlen', decodeInt_cons, decodeInt_cons, hlen']
    rw [hlen'] at hlt
    cases b with
    | false =>
      cases b' with
      | false => simp
      | true => simp; omega
    | true =>
      cases b' with
      | false => simp; omega
      | true => simp

/-- Settles O10: a value and its sequence, a text and its sequence determine each other. -/
theorem codecFunctionsInverse : Obligations.CodecFunctionsInverse := by
  refine ⟨?_, encodeInt_decodeInt, decodeText_encodeText, fun _ _ => decodeText_eq_some_iff.1, ?_⟩
  · intro v w hfits
    obtain ⟨-, hvalue⟩ := encodeInt_eq_some_iff.1 (encodeInt_of_lt hfits)
    exact ⟨_, encodeInt_of_lt hfits, hvalue⟩
  · intro w v v' bits bits' h h'
    obtain ⟨hlen, rfl⟩ := encodeInt_eq_some_iff.1 h
    obtain ⟨hlen', rfl⟩ := encodeInt_eq_some_iff.1 h'
    exact decodeInt_lt_iff_lex (hlen.trans hlen'.symm)

/-! ### The words of the codec commands -/

/-- ARG stands in bits 15:8, above OP (R96). -/
theorem encode_eq_ofNat (i : Instr) : encode i = BitVec.ofNat 32 (i.op.toNat + i.arg.toNat * 2 ^ 8) := by
  refine BitVec.eq_of_toNat_eq ?_
  rw [toNat_encode, BitVec.toNat_ofNat, Nat.mod_eq_of_lt (by omega)]
  rfl

/-- The word of ENCINT or DECINT with a width out of range is no other command's word either (R97). -/
theorem decode_encode_eq_badOperand {i : Instr} (hop : i.op.toNat ∈ [0x01, 0x02])
    (hwidth : ¬ (1 ≤ i.arg.toNat ∧ i.arg.toNat ≤ 32)) : decode (encode i) = .illegal .badOperand := by
  obtain ⟨hopi, hargi, hrsv⟩ := wordFields i
  refine decode_eq_badOperand (hopi ▸ op_mem_knownOps i) hrsv fun j hwf henc => hwidth ?_
  obtain ⟨hopj, hargj, -⟩ := encode_eq_iff.1 henc
  obtain ⟨hrange, -, -⟩ := arg_range_of_wf hwf
  rw [hopi] at hopj
  rw [hargi] at hargj
  rw [hargj]
  exact hrange (hopj ▸ hop)

theorem decode_widthWord {i : Instr} (hop : i.op.toNat ∈ [0x01, 0x02]) (hwf : i.wf = widthOk i.arg) :
    (1 ≤ i.arg.toNat ∧ i.arg.toNat ≤ 32 →
      decode (BitVec.ofNat 32 (i.op.toNat + i.arg.toNat * 2 ^ 8)) = .cmd i) ∧
    (¬ (1 ≤ i.arg.toNat ∧ i.arg.toNat ≤ 32) →
      decode (BitVec.ofNat 32 (i.op.toNat + i.arg.toNat * 2 ^ 8)) = .illegal .badOperand) := by
  rw [← encode_eq_ofNat]
  exact ⟨fun hw => decodeOfEncode i (hwf.trans ((widthOk_iff _).2 hw)), decode_encode_eq_badOperand hop⟩

/-! ### Where the codec commands end with an error -/

theorem execEncint_rangeError {w : BitVec 8} {s : State} (hw : widthOk w = true) (hr : 2 ^ w.toNat ≤ s.ival.toNat) :
    execEncint w s = .next (s.finish opEncint .rangeError) := by
  rw [execEncint, if_pos hw, encintLegal, encodeInt_of_le hr]
  rfl

theorem execEncint_overflow {w : BitVec 8} {s : State} (hw : widthOk w = true) (hr : s.ival.toNat < 2 ^ w.toNat)
    (hroom : ¬ s.hasRoom w.toNat = true) : execEncint w s = .next (s.finish opEncint .overflow) := by
  rw [execEncint, if_pos hw, encintLegal, encodeInt_of_lt hr]
  exact if_neg hroom

theorem execDecint_underflow {w : BitVec 8} {s : State} (hw : widthOk w = true) (hr : s.bq.length < w.toNat) :
    execDecint w s = .next (s.finish opDecint .underflow) := by
  rw [execDecint, if_pos hw, decintLegal, if_pos hr]
  rfl

theorem execEnctxt_overflow {sel : BufSel} {s : State} (hroom : ¬ s.hasRoom (8 * s.len sel) = true) :
    execEnctxt sel s = .next (s.finish opEnctxt .overflow) := if_neg hroom

theorem execDectxt_underflow {sel : BufSel} {s : State} (hr : s.bq.length < 8 * s.len sel) :
    execDectxt sel s = .next (s.finish opDectxt .underflow) := if_pos hr

/-! ### The codec commands one by one -/

/-- Settles O13: the range test comes before the room test, and no word but a legal width's is ENCINT. -/
theorem encintAppendsInteger : Obligations.EncintAppendsInteger := by
  constructor
  · intro s w hpos hle
    have hw : widthOk w = true := (widthOk_iff w).2 ⟨hpos, hle⟩
    refine ⟨fun hr => execEncint_rangeError hw hr, fun hr hfull => ?_, fun hr hroom => ?_⟩
    · exact execEncint_overflow hw hr fun hroom => hfull.not_ge ((s.hasRoom_iff _).1 hroom)
    · exact ⟨_, encodeInt_of_lt hr, execEncint_ok hw hr ((s.hasRoom_iff _).2 hroom)⟩
  · exact fun w => decode_widthWord (i := .encint w) (by simp [Instr.op, opEncint]) rfl

/-- At most 32 bits taken from the queue fit IVAL whole (R125: "zero-extended"). -/
theorem toNat_ofNat_decodeInt_take (bits : Bits) {w : Nat} (hw : w ≤ 32) :
    (BitVec.ofNat 32 (decodeInt (bits.take w))).toNat = decodeInt (bits.take w) := by
  have hfits := (decodeInt_take_lt bits w).trans_le (Nat.pow_le_pow_right Nat.two_pos hw)
  rw [BitVec.toNat_ofNat, Nat.mod_eq_of_lt hfits]

/-- Settles O14: the value of the w oldest bits, which IVAL holds. -/
theorem decintRemovesInteger : Obligations.DecintRemovesInteger := by
  constructor
  · intro s w hpos hle
    have hw : widthOk w = true := (widthOk_iff w).2 ⟨hpos, hle⟩
    have hvalue := toNat_ofNat_decodeInt_take s.bq hle
    exact ⟨fun hr => execDecint_underflow hw hr,
      fun hr => ⟨_, hvalue, hvalue.trans_lt (decodeInt_take_lt s.bq _), execDecint_ok hw hr⟩⟩
  · exact fun w => decode_widthWord (i := .decint w) (by simp [Instr.op, opDecint]) rfl

/-- Settles O15: the room test is the only one. -/
theorem enctxtAppendsText : Obligations.EnctxtAppendsText := by
  refine ⟨decodeOfEncode (.enctxt .pass) rfl, decodeOfEncode (.enctxt .msg) rfl, fun s sel => ⟨fun hfull => ?_, ?_⟩⟩
  · exact execEnctxt_overflow fun hroom => hfull.not_ge ((s.hasRoom_iff _).1 hroom)
  · exact fun hroom => execEnctxt_ok ((s.hasRoom_iff _).2 hroom)

/-- Character i of the first n comes from bits 8i to 8i+7, all of which stand among the first 8n. -/
theorem toNat_getD_chars_take {n i : Nat} (hi : i < n) (bits : Bits) :
    ((chars n (bits.take (8 * n))).getD i 0).toNat = decodeInt ((bits.drop (8 * i)).take 8) := by
  have hgroup : ((bits.take (8 * n)).drop (8 * i)).take 8 = (bits.drop (8 * i)).take 8 := by
    rw [List.drop_take, List.take_take, Nat.min_eq_left (by omega)]
  rw [List.getD_eq_getElem?_getD, getElem?_chars, if_pos hi, Option.getD_some, toNat_char, hgroup]

/-- A delivered text that leaves the queue changes one buffer, the queue and STATUS. -/
theorem setBuf_finish_storeText_pop (s : State) (n : Nat) (sel : BufSel) (text : List Byte) (op : BitVec 8)
    (o : CmdOutcome) :
    State.setBuf { ((s.pop n).storeText sel text).finish op o with status := s.status, bq := s.bq } sel (s.buf sel) =
      s := by
  cases sel <;> rfl

/-- Settles O16: the delivered text is the characters of the removed bits. -/
theorem dectxtWritesText : Obligations.DectxtWritesText := by
  refine ⟨decodeOfEncode (.dectxt .pass) rfl, decodeOfEncode (.dectxt .msg) rfl, fun s sel => ⟨?_, fun hr => ?_⟩⟩
  · exact fun hr => execDectxt_underflow hr
  · refine ⟨_, execDectxt_ok hr, rfl, by simp, fun i hi => ?_, fun i hi => ?_, setBuf_finish_storeText_pop ..⟩
    · rw [State.bufByte_finish, State.bufByte_storeText, length_chars, if_pos hi, toNat_getD_chars_take hi]
    · rw [State.bufByte_finish, State.bufByte_storeText, length_chars, if_neg hi.not_gt, State.bufByte_pop]

/-- Settles O17: the queue is emptied and the command ends with OK. -/
theorem bqclrEmptiesQueue : Obligations.BqclrEmptiesQueue :=
  ⟨decodeOfEncode .bqclr rfl, fun s => exec_bqclr s⟩

/-! ### The integers and texts of the queue -/

theorem execEncint_of_encodeInt {w : BitVec 8} {s : State} {bits : Bits} (hw : widthOk w = true)
    (hbits : encodeInt s.ival.toNat w.toNat = some bits) (hroom : s.bq.length + w.toNat ≤ s.params.bqCap) :
    execEncint w s = .next { s with bq := s.bq ++ bits, status := 0x00000100#32 } := by
  rw [execEncint, if_pos hw, encintLegal, hbits]
  exact if_pos ((s.hasRoom_iff _).2 hroom)

/-- DECINT takes an encoded integer off the head of the queue. -/
theorem execDecint_of_encodeInt {w : BitVec 8} {s : State} {n : Nat} {bits rest : Bits} (hw : widthOk w = true)
    (hbits : encodeInt n w.toNat = some bits) (hbq : s.bq = bits ++ rest) :
    execDecint w s = .next { s with bq := rest, ival := BitVec.ofNat 32 n, status := 0x00000200#32 } := by
  obtain ⟨hlen, rfl⟩ := encodeInt_eq_some_iff.1 hbits
  have hpop : s.pop w.toNat = { s with bq := rest } := by rw [State.pop, hbq, List.drop_left' hlen]
  rw [execDecint_ok hw (by simp [hbq, hlen]), hpop, hbq, List.take_left' hlen]
  rfl

/-- DECTXT takes an encoded text off the head of the queue. -/
theorem execDectxt_of_encodeText {sel : BufSel} {s : State} {text : List Byte} {rest : Bits}
    (hlen : s.len sel = text.length) (hbq : s.bq = encodeText text ++ rest) :
    execDectxt sel s = .next ((State.storeText { s with bq := rest } sel text).finish opDectxt .ok) := by
  have hcode : (encodeText text).length = 8 * s.len sel := by rw [length_encodeText, hlen]
  have hpop : s.pop (8 * s.len sel) = { s with bq := rest } := by rw [State.pop, hbq, List.drop_left' hcode]
  rw [execDectxt_ok (by simp [hbq, hcode]), hpop, hbq, List.take_left' hcode, hlen, chars_encodeText]

/-- A text stored over itself is read as before. -/
theorem State.bufByte_storeText_text (s : State) (sel : BufSel) (i : Nat) :
    (s.storeText sel (s.text sel)).bufByte sel i = s.bufByte sel i := by
  rw [bufByte_storeText, length_text]
  split
  case isTrue hi => rw [List.getD_eq_getElem?_getD, getElem?_text, if_pos hi, Option.getD_some]
  case isFalse => rfl

/-- Settles O18: on an empty queue the command that decodes finds what the one before it has encoded. -/
theorem codecCommandsInverse : Obligations.CodecCommandsInverse := by
  constructor
  · intro s w hpos hle hempty hroom hfits
    have hw : widthOk w = true := (widthOk_iff w).2 ⟨hpos, hle⟩
    have hbits := encodeInt_of_lt hfits
    have hival : BitVec.ofNat 32 s.ival.toNat = s.ival := by rw [BitVec.ofNat_toNat, BitVec.setWidth_eq]
    refine ⟨_, execEncint_of_encodeInt hw hbits (by simpa [hempty] using hroom), rfl, ?_⟩
    refine (execDecint_of_encodeInt (rest := []) hw hbits (by simp [hempty])).trans ?_
    rw [hival, ← hempty]
  · intro s sel hempty hroom
    have hencoded := execEnctxt_ok ((s.hasRoom_iff (8 * s.len sel)).2 (by simpa [hempty] using hroom))
    have hdecoded := execDectxt_of_encodeText (s := (s.push (encodeText (s.text sel))).finish opEnctxt .ok) (rest := [])
      (s.length_text sel).symm (by simp [hempty])
    refine ⟨_, _, hencoded, rfl, hdecoded, rfl, by simp, fun i => ?_⟩
    rw [State.bufByte_finish]
    exact State.bufByte_storeText_text _ sel i

/-! ### Scripts -/

theorem performAll_append {ops : List HostOp} (ops' : List HostOp) {s t : State} (h : performAll ops s = .next t) :
    performAll (ops ++ ops') s = performAll ops' t := by
  induction ops generalizing s with
  | nil =>
    obtain rfl := Host.Outcome.next.inj h
    rfl
  | cons op ops ih =>
    cases hop : perform op s with
    | next u =>
      rw [performAll_cons ops hop] at h
      rw [List.cons_append, performAll_cons _ hop, ih h]
    | fault r => cases r
    | refused r =>
      rw [performAll, hop] at h
      cases h

theorem Reg.ofNumber_number (r : Reg) : Reg.ofNumber r.number = some r := by
  cases r <;> rfl

theorem perform_scriptWr {r : Reg} {v : Nat} (hv : r.carries v = true) (s : State) :
    perform (Script.wr r v) s = r.write v s :=
  perform_regWrite (Reg.ofNumber_number r) hv s

theorem perform_scriptCmd {i : Instr} (hwf : i.wf = true) (s : State) : perform (Script.cmd i) s = exec i s :=
  (perform_cmd (encode i) s).trans (by rw [issue, decodeOfEncode i hwf])

/-! ### The container built in the queue -/

/-- The lines of R130 that build a length field and its text. -/
def Script.encodeField (w : BitVec 8) (sel : BufSel) (n : Nat) : List HostOp :=
  [wr .ival n, cmd (.encint w), cmd (.enctxt sel)]

/-- The state with a length field, given by its bits, and its text behind the queue. -/
def State.pushField (s : State) (sel : BufSel) (bits : Bits) : State :=
  { s with
    ival := BitVec.ofNat 32 (s.len sel)
    bq := s.bq ++ (bits ++ encodeText (s.text sel))
    status := 0x00000300#32 }

namespace State

variable (s : State) (sel : BufSel) (bits : Bits)

@[simp] theorem pushField_params : (s.pushField sel bits).params = s.params := (rfl)
@[simp] theorem pushField_bq : (s.pushField sel bits).bq = s.bq ++ (bits ++ encodeText (s.text sel)) := (rfl)
@[simp] theorem pushField_len (sel' : BufSel) : (s.pushField sel bits).len sel' = s.len sel' := (rfl)
@[simp] theorem pushField_text (sel' : BufSel) : (s.pushField sel bits).text sel' = s.text sel' := (rfl)

theorem len_lt_two_pow_32 : s.len sel < 2 ^ 32 := by
  cases sel with
  | pass => exact s.plen.isLt.trans (by decide)
  | msg => exact s.mlen.isLt

end State

theorem performAll_encodeField {w : BitVec 8} {sel : BufSel} {s : State} {bits : Bits} (hw : widthOk w = true)
    (hbits : encodeInt (s.len sel) w.toNat = some bits)
    (hroom : s.bq.length + (w.toNat + 8 * s.len sel) ≤ s.params.bqCap) :
    performAll (Script.encodeField w sel (s.len sel)) s = .next (s.pushField sel bits) := by
  have hlen := s.len_lt_two_pow_32 sel
  have hival : (BitVec.ofNat 32 (s.len sel)).toNat = s.len sel := by rw [BitVec.toNat_ofNat, Nat.mod_eq_of_lt hlen]
  obtain ⟨hwidth, -⟩ := encodeInt_eq_some_iff.1 hbits
  have hwr : perform (Script.wr .ival (s.len sel)) s = .next { s with ival := BitVec.ofNat 32 (s.len sel) } :=
    perform_scriptWr (r := .ival) (decide_eq_true hlen) s
  have hencint : exec (.encint w) { s with ival := BitVec.ofNat 32 (s.len sel) } =
      .next { s with ival := BitVec.ofNat 32 (s.len sel), bq := s.bq ++ bits, status := 0x00000100#32 } :=
    execEncint_of_encodeInt hw (by rwa [hival]) ((Nat.add_le_add_left (Nat.le_add_right _ _) _).trans hroom)
  have henctxt : exec (.enctxt sel)
      { s with ival := BitVec.ofNat 32 (s.len sel), bq := s.bq ++ bits, status := 0x00000100#32 } =
      .next (s.pushField sel bits) := by
    rw [State.pushField, ← List.append_assoc]
    refine execEnctxt_ok ((State.hasRoom_iff _ _).2 ?_)
    rwa [List.length_append, hwidth, Nat.add_assoc]
  rw [Script.encodeField, performAll_cons _ hwr,
    performAll_cons _ ((perform_scriptCmd (i := .encint w) hw _).trans hencint),
    performAll_cons _ ((perform_scriptCmd rfl _).trans henctxt)]
  rfl

/-- Settles O19: the first length field and its text, then the second behind them. -/
theorem codecCommandsBuildContainer : Obligations.CodecCommandsBuildContainer := by
  intro s hempty hroom
  have hroom' : 48 + 8 * s.len .pass + 8 * s.len .msg ≤ s.params.bqCap := by
    simp only [State.containerLength, State.len] at hroom ⊢
    omega
  have hpass := performAll_encodeField (w := 16#8) (sel := .pass) rfl (encodeInt_toNat s.plen)
    (by simp [hempty]; omega)
  have hmsg := performAll_encodeField (w := 32#8) (sel := .msg) (s := s.pushField .pass (bitsOf s.plen)) rfl
    (encodeInt_toNat s.mlen) (by simp [hempty]; omega)
  refine ⟨_, s.container, (performAll_append _ hpass).trans hmsg, s.containerOf_text, ?_, rfl⟩
  simp [hempty, State.container, containerBits]

/-! ### The container taken apart -/

/-- The state with an integer taken from the queue into IVAL, and what is left of the queue. -/
def State.takeInt (s : State) (n : Nat) (rest : Bits) : State :=
  { s with bq := rest, ival := BitVec.ofNat 32 n, status := 0x00000200#32 }

/-- The state with another length of the selected buffer. -/
def State.setLen (s : State) (sel : BufSel) (n : Nat) : State :=
  match sel with
  | .pass => { s with plen := BitVec.ofNat 16 n }
  | .msg => { s with mlen := BitVec.ofNat 32 n }

/-- The state with a text taken from the queue into its buffer, its length in the length register, and what is left of
the queue. -/
def State.takeText (s : State) (sel : BufSel) (text : List Byte) (rest : Bits) : State :=
  (State.storeText { s.setLen sel text.length with bq := rest } sel text).finish opDectxt .ok

namespace State

variable (s : State) {sel : BufSel}

theorem toNat_takeInt_ival {n : Nat} (hn : n < 2 ^ 32) (rest : Bits) : (s.takeInt n rest).ival.toNat = n := by
  rw [takeInt, BitVec.toNat_ofNat, Nat.mod_eq_of_lt hn]

@[simp] theorem takeInt_bq (n : Nat) (rest : Bits) : (s.takeInt n rest).bq = rest := (rfl)
@[simp] theorem takeInt_text (n : Nat) (rest : Bits) (sel : BufSel) : (s.takeInt n rest).text sel = s.text sel := (rfl)

@[simp] theorem setLen_bq (sel : BufSel) (n : Nat) : (s.setLen sel n).bq = s.bq := by
  cases sel <;> rfl

theorem len_setLen {n : Nat} (hn : n ≤ bufSize sel) : (s.setLen sel n).len sel = n := by
  cases sel with
  | pass => exact (BitVec.toNat_ofNat n 16).trans (Nat.mod_eq_of_lt (Nat.lt_succ_of_le hn))
  | msg => exact (BitVec.toNat_ofNat n 32).trans (Nat.mod_eq_of_lt (Nat.lt_succ_of_le hn))

@[simp] theorem takeText_bq (sel : BufSel) (text : List Byte) (rest : Bits) : (s.takeText sel text rest).bq = rest := by
  rw [takeText, finish_bq, storeText_bq]

theorem takeText_text {text : List Byte} (hlen : text.length ≤ bufSize sel) (rest : Bits) :
    (s.takeText sel text rest).text sel = text := by
  have hl : (s.takeText sel text rest).len sel = text.length := by
    rw [takeText, len_finish, len_storeText]
    exact s.len_setLen hlen
  refine text_eq_of_bytes hl fun i hi => ?_
  rw [takeText, bufByte_finish, bufByte_storeText, if_pos hi, List.getD_eq_getElem _ _ hi]

/-- A message taken from the queue leaves the passcode alone. -/
@[simp] theorem takeText_msg_text_pass (text : List Byte) (rest : Bits) :
    (s.takeText .msg text rest).text .pass = s.text .pass := (rfl)

end State

/-- DECINT where an encoded integer stands at the head of the queue. -/
theorem performAll_decint {w : BitVec 8} {s : State} {n : Nat} {bits rest : Bits} (hw : widthOk w = true)
    (hbits : encodeInt n w.toNat = some bits) (hbq : s.bq = bits ++ rest) :
    performAll [Script.cmd (.decint w)] s = .next (s.takeInt n rest) :=
  performAll_cons [] ((perform_scriptCmd (i := .decint w) hw s).trans (execDecint_of_encodeInt hw hbits hbq))

theorem perform_writeLen {sel : BufSel} {n : Nat} (hn : n ≤ bufSize sel) (s : State) :
    perform (Script.wr (Script.lenReg sel) n) s = .next (s.setLen sel n) := by
  cases sel with
  | pass => exact perform_scriptWr (r := .plen) (decide_eq_true (Nat.lt_succ_of_le hn)) s
  | msg => exact perform_scriptWr (r := .mlen) (decide_eq_true (Nat.lt_succ_of_le hn)) s

/-- The lines of R130 that take the text behind a length field from the queue. -/
theorem performAll_decodeText {sel : BufSel} {s : State} {text : List Byte} {rest : Bits}
    (hlen : text.length ≤ bufSize sel) (hbq : s.bq = encodeText text ++ rest) :
    performAll [Script.wr (Script.lenReg sel) text.length, Script.cmd (.dectxt sel)] s =
      .next (s.takeText sel text rest) := by
  have hdectxt : exec (.dectxt sel) (s.setLen sel text.length) = .next (s.takeText sel text rest) :=
    execDectxt_of_encodeText (s.len_setLen hlen) ((s.setLen_bq sel _).trans hbq)
  rw [performAll_cons _ (perform_writeLen hlen s), performAll_cons _ ((perform_scriptCmd rfl _).trans hdectxt)]
  rfl

theorem containerOf_eq_some {p m : List Byte} {cb : Bits} (h : containerOf p m = some cb) :
    ∃ pl ml, encodeInt p.length 16 = some pl ∧ encodeInt m.length 32 = some ml ∧
      cb = pl ++ (encodeText p ++ (ml ++ encodeText m)) := by
  unfold containerOf at h
  split at h
  case h_1 pl ml hpl hml => exact ⟨pl, ml, hpl, hml, by simpa using h.symm⟩
  case h_2 => cases h

/-- Settles O20: each command finds its field at the head of the queue. -/
theorem codecCommandsTakeContainerApart : Obligations.CodecCommandsTakeContainerApart := by
  intro s p m cb rest hp hm hcb hbq
  obtain ⟨pl, ml, hpl, hml, rfl⟩ := containerOf_eq_some hcb
  simp only [List.append_assoc] at hbq
  let s₁ := s.takeInt p.length (encodeText p ++ (ml ++ (encodeText m ++ rest)))
  let s₂ := (s₁.takeText .pass p (ml ++ (encodeText m ++ rest))).takeInt m.length (encodeText m ++ rest)
  have hival₁ : s₁.ival.toNat = p.length := s.toNat_takeInt_ival (by omega) _
  have hival₂ : s₂.ival.toNat = m.length := State.toNat_takeInt_ival _ (by omega) _
  have hplen : performAll [Script.cmd (.decint 16#8)] s = .next s₁ := performAll_decint rfl hpl hbq
  have hpass := performAll_decodeText (sel := .pass) (s := s₁) hp (State.takeInt_bq ..)
  have hmlen : performAll [Script.cmd (.decint 32#8)] (s₁.takeText .pass p _) = .next s₂ :=
    performAll_decint rfl hml (State.takeText_bq ..)
  have hmsg := performAll_decodeText (sel := .msg) (s := s₂) hm (State.takeInt_bq ..)
  refine ⟨s₁, s₂, s₂.takeText .msg m rest, hplen, hival₁, ?_, hival₂, ?_, ?_, s₂.takeText_text hm rest,
    s₂.takeText_bq .msg m rest, rfl⟩
  · rw [hival₁]
    exact (performAll_append _ hpass).trans hmlen
  · rw [hival₂]
    exact hmsg
  · rw [State.takeText_msg_text_pass, State.takeInt_text, s₁.takeText_text hp]

end Sys2Proof.Machine
end

section
/-! PROOFS. The family 42_embed.md: the grid after EMBED, the round trip through EXTRACT, EMBED issued again or over a
longer container, its sequencer, and the bytes it does not read. -/

namespace Sys2Proof.Machine

variable {s t u : State}

/-! ### The outcome -/

/-- STATUS names the outcome of the checks, OK among them. -/
theorem status_execEmbed (h : execEmbed s = .next t) : t.status = statusWord opEmbed (embedCheck s) := by
  obtain ⟨-, ⟨-, rfl⟩ | ⟨hok, rfl⟩⟩ := execEmbed_cases h
  · rfl
  · rw [hok, State.finish_status]

/-- An EMBED that ended OK has found a container that fits the grid, and has written it. -/
theorem execEmbed_ok_cases (h : execEmbed s = .next t) (hstatus : t.status = 0x00001000#32) :
    s.numSamples ≤ s.params.gridCap ∧ s.containerLength ≤ s.numSamples ∧ t = (embedPayload s).finish opEmbed .ok := by
  have hword : ∀ o ∈ outcomesOf .embed, statusWord opEmbed o = 0x00001000#32 → o = .ok := by decide
  have hok : embedCheck s = .ok := hword _ (embedCheck_mem s) ((status_execEmbed h).symm.trans hstatus)
  obtain ⟨-, -, hfit⟩ := (embedCheck_ok_iff s).1 hok
  exact ⟨(execEmbed_cases h).1, hfit, execEmbed_eq_payload h hstatus⟩

theorem exec_embed_fail {o : CmdOutcome} (hgrid : s.numSamples ≤ s.params.gridCap) (hcheck : embedCheck s = o)
    (ho : o ≠ .ok) : exec .embed s = .next { s.zeroCursors with status := statusWord opEmbed o } := by
  subst hcheck
  rw [exec_embed, execEmbed_fail hgrid ho, State.setCursor_zero]
  rfl

/-! The checks as they read the length registers, in their order. -/

theorem embedCheck_of_plen (hplen : s.plen.toNat = 0) : embedCheck s = .emptyPasscode :=
  if_pos (BitVec.eq_of_toNat_eq hplen)

theorem embedCheck_of_mlen (hplen : s.plen.toNat ≠ 0) (hmlen : s.mlen.toNat = 0) : embedCheck s = .emptyMessage := by
  rw [embedCheck, if_neg (fun h => hplen (by rw [h]; rfl)), if_pos (BitVec.eq_of_toNat_eq hmlen)]

theorem embedCheck_of_lens (hplen : s.plen.toNat ≠ 0) (hmlen : s.mlen.toNat ≠ 0) :
    embedCheck s = if s.numSamples < s.containerLength then .capacityError else .ok := by
  rw [embedCheck, if_neg (fun h => hplen (by rw [h]; rfl)), if_neg (fun h => hmlen (by rw [h]; rfl))]

/-- The checks read the length registers and the dimensions only. -/
theorem embedCheck_congr (hdims : t.rows = s.rows ∧ t.cols = s.cols ∧ t.chans = s.chans)
    (hlens : t.plen = s.plen ∧ t.mlen = s.mlen) : embedCheck t = embedCheck s := by
  obtain ⟨hrows, hcols, hchans⟩ := hdims
  obtain ⟨hplen, hmlen⟩ := hlens
  unfold embedCheck State.containerLength
  rw [State.numSamples_congr hrows hcols hchans, hplen, hmlen]

/-! ### The grid after EMBED -/

/-- Every sample of the container carries its bit (R155 (a)). -/
theorem carriesBits_embedPayload (s : State) : (embedPayload s).carriesBits s.container := by
  intro k hk
  rw [State.lsb, sample_embedPayload, if_pos (by rwa [← s.length_container]), setLsb_getLsbD_zero,
    List.getD_eq_getElem _ _ hk]

/-- The change of one sample: the upper seven bits stay, so it moves by 1 at most, and only within its pair (R154). -/
theorem setLsb_moves_by_one (x : Byte) (b : Bit) :
    (x.toNat % 2 = 0 → (setLsb x b).toNat = x.toNat ∨ (setLsb x b).toNat = x.toNat + 1) ∧
      (x.toNat % 2 = 1 → (setLsb x b).toNat = x.toNat ∨ (setLsb x b).toNat + 1 = x.toNat) := by
  rw [setLsb_toNat]
  have hbit := b.toNat_le
  constructor <;> intro hpar <;> omega

/-- Settles O21: each failed check by its outcome; otherwise the loop has put each bit of the container into its
sample. -/
theorem embedWritesContainer : Obligations.EmbedWritesContainer := by
  refine ⟨by decide, fun s hgrid => ⟨fun hplen => ?_, fun hplen hmlen => ?_, fun hplen hmlen hshort => ?_,
    fun hplen hmlen hfit => ?_⟩⟩
  · exact exec_embed_fail hgrid (embedCheck_of_plen hplen) (by decide)
  · exact exec_embed_fail hgrid (embedCheck_of_mlen hplen hmlen) (by decide)
  · exact exec_embed_fail hgrid ((embedCheck_of_lens hplen hmlen).trans (if_pos hshort)) (by decide)
  · have hok : embedCheck s = .ok := (embedCheck_of_lens hplen hmlen).trans (if_neg (Nat.not_lt.2 hfit))
    refine ⟨_, s.container, execEmbed_ok hgrid hok, s.containerOf_text, s.length_container, fun k hk => ?_,
      fun k hk => ?_, ?_, rfl, ?_⟩
    · have hwritten : (embedPayload s).sample k = setLsb (s.sample k) (s.container.getD k false) := by
        rw [sample_embedPayload, if_pos (by rwa [← s.length_container])]
      rw [State.lsb_finish, State.sample_finish, hwritten]
      exact ⟨carriesBits_embedPayload s k hk, setLsb_div_two _ _, setLsb_moves_by_one _ _⟩
    · rw [State.sample_finish, sample_embedPayload, if_neg (by rw [← s.length_container]; omega)]
    · rw [s.length_container, State.cursorAt_finish]
      exact embedPayload_cursorAt hfit
    · rw [embedPayload_eq]
      rfl

/-- Settles O25: the second EMBED writes no sample behind its own container. -/
theorem shorterContainerLeavesStaleBits : Obligations.ShorterContainerLeavesStaleBits := by
  intro s t u v hfirst hstatus _ _ _ _ hsamples hsecond _
  obtain ⟨-, -, rfl⟩ := execEmbed_ok_cases hfirst hstatus
  refine ⟨s.container, s.containerOf_text, fun k hk hbehind => ?_⟩
  have hkept : v.sample k = u.sample k := (exec_keepsUnlisted hsecond).samples k fun _ => hbehind
  rw [State.lsb, hkept, hsamples]
  exact carriesBits_embedPayload s k hk

/-! ### EXTRACT of a grid that carries a container -/

namespace State

theorem bitsFrom_of_carriesBits {bits : Bits} (h : s.carriesBits bits) : s.bitsFrom 0 bits.length = bits := by
  refine List.ext_getElem (s.length_bitsFrom 0 _) fun k hk hk' => ?_
  rw [← h k hk']
  simp [bitsFrom]

/-- Two sequences that stand one after the other are read one after the other. -/
theorem bitsFrom_of_append {k : Nat} {as bs : Bits} (h : s.bitsFrom k (as ++ bs).length = as ++ bs) :
    s.bitsFrom k as.length = as ∧ s.bitsFrom (k + as.length) bs.length = bs := by
  rw [List.length_append, bitsFrom_append] at h
  exact List.append_inj h (s.length_bitsFrom k _)

/-- A text field is decoded to the bytes of the text. -/
theorem getD_chars_encodeText (s : State) (sel : BufSel) {i : Nat} (hi : i < s.len sel) :
    (chars (s.len sel) (encodeText (s.text sel))).getD i 0 = s.bufByte sel i := by
  have hdecode := chars_encodeText (s.text sel)
  rw [length_text] at hdecode
  rw [hdecode, List.getD_eq_getElem?_getD, getElem?_text, if_pos hi, Option.getD_some]

end State

section
variable (h : u.carriesBits s.container)
include h

/-- The four fields of the container, each at its place in the grid. -/
theorem bitsFrom_of_carries_container :
    u.bitsFrom 0 16 = bitsOf s.plen ∧
      u.bitsFrom 16 (8 * s.plen.toNat) = encodeText (s.text .pass) ∧
      u.bitsFrom (16 + 8 * s.plen.toNat) 32 = bitsOf s.mlen ∧
      u.bitsFrom (16 + 8 * s.plen.toNat + 32) (8 * s.mlen.toNat) = encodeText (s.text .msg) := by
  obtain ⟨hfront, hmsg⟩ := State.bitsFrom_of_append (State.bitsFrom_of_carriesBits h)
  obtain ⟨hfront, hmlen⟩ := State.bitsFrom_of_append hfront
  obtain ⟨hplen, hpass⟩ := State.bitsFrom_of_append hfront
  simp only [List.length_append, length_bitsOf, length_encodeText, State.length_text, Nat.zero_add]
    at hplen hpass hmlen hmsg
  exact ⟨hplen, hpass, hmlen, hmsg⟩

theorem fieldValue_plen_of_carries : u.fieldValue 0 16 = s.plen.toNat := by
  obtain ⟨hplen, -, -, -⟩ := bitsFrom_of_carries_container h
  rw [← State.decodeInt_bitsFrom, hplen, decodeInt_bitsOf]

theorem msglenPos_of_carries : msglenPos u = 16 + 8 * s.plen.toNat := by
  rw [msglenPos, fieldValue_plen_of_carries h]

theorem fieldValue_mlen_of_carries : u.fieldValue (msglenPos u) 32 = s.mlen.toNat := by
  obtain ⟨-, -, hmlen, -⟩ := bitsFrom_of_carries_container h
  rw [msglenPos_of_carries h, ← State.decodeInt_bitsFrom, hmlen, decodeInt_bitsOf]

theorem gotMsg_bufByte_pass_of_carries {i : Nat} (hi : i < s.plen.toNat) :
    (gotMsg u).bufByte .pass i = s.bufByte .pass i := by
  obtain ⟨-, hpass, -, -⟩ := bitsFrom_of_carries_container h
  rw [gotMsg_bufByte_pass, gotPass_bufByte_pass, fieldValue_plen_of_carries h, if_pos hi, hpass]
  exact State.getD_chars_encodeText s .pass hi

theorem gotMsg_bufByte_msg_of_carries {i : Nat} (hi : i < s.mlen.toNat) :
    (gotMsg u).bufByte .msg i = s.bufByte .msg i := by
  obtain ⟨-, -, -, hmsg⟩ := bitsFrom_of_carries_container h
  rw [gotMsg_bufByte_msg, fieldValue_mlen_of_carries h, msglenPos_of_carries h, if_pos hi, hmsg]
  exact State.getD_chars_encodeText s .msg hi

end

/-- EXTRACT of a container that fits the grid. -/
theorem execExtract_ok (hgrid : s.numSamples ≤ s.params.gridCap)
    (hfit : msglenPos s + 32 + 8 * s.fieldValue (msglenPos s) 32 ≤ s.numSamples) :
    execExtract s =
      .next (((gotMsg s).setCursor (msglenPos s + 32 + 8 * s.fieldValue (msglenPos s) 32)).finish opExtract .ok) := by
  have hpos : 16 ≤ msglenPos s := Nat.le_add_right ..
  rw [execExtract_eq, if_neg (by omega), if_neg (by omega), if_neg (by omega), if_neg (by omega), if_neg (by omega)]
  rfl

/-- Settles O23: the grid carries the container, and EXTRACT reads nothing else. -/
theorem extractReturnsWhatEmbedWrote : Obligations.ExtractReturnsWhatEmbedWrote := by
  intro s t u hembed hstatus hparams hrows hcols hchans hsamples
  obtain ⟨hgrid, hfit, rfl⟩ := execEmbed_ok_cases hembed hstatus
  have hsize : u.numSamples = s.numSamples := by
    rw [State.numSamples_congr hrows hcols hchans, State.numSamples_finish, embedPayload_numSamples]
  have hcarries : u.carriesBits s.container := by
    intro k hk
    rw [State.lsb, hsamples k, State.sample_finish]
    · exact carriesBits_embedPayload s k hk
    · rw [State.numSamples_finish, embedPayload_numSamples]
      rw [s.length_container] at hk
      omega
  have hcap : u.numSamples ≤ u.params.gridCap := by
    rwa [hsize, hparams, State.finish_params, embedPayload_params]
  have hplen : (gotMsg u).plen = s.plen :=
    BitVec.eq_of_toNat_eq ((gotMsg_plen u).trans (fieldValue_plen_of_carries hcarries))
  have hmlen : (gotMsg u).mlen = s.mlen :=
    BitVec.eq_of_toNat_eq ((gotMsg_mlen u).trans (fieldValue_mlen_of_carries hcarries))
  have hend : msglenPos u + 32 + 8 * u.fieldValue (msglenPos u) 32 ≤ u.numSamples := by
    rwa [hsize, fieldValue_mlen_of_carries hcarries, msglenPos_of_carries hcarries]
  refine ⟨_, execExtract_ok hcap hend, State.finish_status .., ?_, ?_, fun i hi => ?_, fun i hi => ?_⟩
  · rw [State.finish_plen, State.setCursor_plen, hplen]
  · rw [State.finish_mlen, State.setCursor_mlen, hmlen]
  · rw [State.bufByte_finish, State.bufByte_setCursor, gotMsg_bufByte_pass_of_carries hcarries hi]
  · rw [State.bufByte_finish, State.bufByte_setCursor, gotMsg_bufByte_msg_of_carries hcarries hi]

/-! ### EMBED issued again -/

@[simp] theorem State.carriesBits_finish (s : State) (op : BitVec 8) (o : CmdOutcome) (bits : Bits) :
    (s.finish op o).carriesBits bits ↔ s.carriesBits bits := Iff.rfl

theorem State.finish_of_status {op : BitVec 8} {o : CmdOutcome} (h : s.status = statusWord op o) :
    s.finish op o = s := by
  rw [finish, ← h]

/-- On a state that carries its own container, each sample of it written, with both cursors at its end, EMBED's loop
changes nothing. -/
theorem embedPayload_of_carriesBits (hwf : s.grid.wf) (hfit : s.containerLength ≤ s.numSamples)
    (hwritten : ∀ k < s.containerLength, s.grid.get? k = some (s.sample k)) (hcarries : s.carriesBits s.container)
    (hcursor : s.CursorAt s.containerLength) : embedPayload s = s := by
  have hgrid : State.putBits s.container 0 s = s :=
    State.putBits_of_carried s hwf s.container 0 fun k hk =>
      ⟨s.sample k, by rw [Nat.zero_add, hwritten k (by rwa [← s.length_container])], hcarries k hk⟩
  rw [embedPayload, hgrid, State.setCursor_of_cursorAt hcursor hfit]

@[simp] theorem embedPayload_container (s : State) : (embedPayload s).container = s.container :=
  State.container_congr (embedPayload_plen s) (embedPayload_mlen s) (fun i _ => embedPayload_bufByte s .pass i)
    (fun i _ => embedPayload_bufByte s .msg i)

/-- EMBED leaves a state with its container in place, on which its loop changes nothing. -/
theorem embedPayload_finish_embedPayload (hwf : s.grid.wf) (hfit : s.containerLength ≤ s.numSamples) (op : BitVec 8)
    (o : CmdOutcome) : embedPayload ((embedPayload s).finish op o) = (embedPayload s).finish op o := by
  refine embedPayload_of_carriesBits (embedPayload_grid_wf hwf) ?_ (fun k hk => ?_) ?_ ?_
  · simpa using hfit
  · rw [State.finish_grid, State.sample_finish]
    exact embedPayload_get? (by simpa using hk)
  · rw [State.carriesBits_finish, State.container_finish, embedPayload_container]
    exact carriesBits_embedPayload s
  · rw [State.containerLength_finish, embedPayload_containerLength, State.cursorAt_finish]
    exact embedPayload_cursorAt hfit

/-- Settles O24: the outcome is the same, the cursors already stand where it puts them, and the grid already carries
the container. -/
theorem embedIsIdempotent : Obligations.EmbedIsIdempotent := by
  intro s t hwf hembed
  have hkeep := exec_keepsUnlisted hembed
  have hcheck : embedCheck t = embedCheck s := embedCheck_congr hkeep.dims (hkeep.lens (by decide))
  have hstatus : t.status = statusWord opEmbed (embedCheck t) := hcheck ▸ status_execEmbed hembed
  obtain ⟨hrows, hcols, hchans⟩ := hkeep.dims
  obtain ⟨hgrid, hcase⟩ := execEmbed_cases hembed
  have hcap : t.numSamples ≤ t.params.gridCap := by
    rwa [State.numSamples_congr hrows hcols hchans, hkeep.params]
  obtain ⟨hfail, ht⟩ | ⟨hok, ht⟩ := hcase
  · have hcursor : t.setCursor 0 = t := by
      rw [ht]
      exact State.setCursor_of_cursorAt (s.cursorAt_setCursor (Nat.zero_le _)) (Nat.zero_le _)
    rw [exec_embed, execEmbed_fail hcap (hcheck ▸ hfail), hcursor, State.finish_of_status hstatus]
  · obtain ⟨-, -, hfit⟩ := (embedCheck_ok_iff s).1 hok
    have hpayload : embedPayload t = t := by
      rw [ht]
      exact embedPayload_finish_embedPayload hwf hfit opEmbed .ok
    have hokt := hcheck.trans hok
    rw [exec_embed, execEmbed_ok hcap hokt, hpayload, State.finish_of_status (hokt ▸ hstatus)]

/-! ### The sequencer -/

/-- Run from cursors 0 to the container's end, the sequencer has done what the loop does. -/
theorem embedSeqLoop_eq_embedPayload (hfit : s.containerLength ≤ s.numSamples) :
    embedSeqLoop s.containerLength s.zeroCursors = embedPayload s := by
  have hstart : s.zeroCursors.CursorAt 0 := by
    rw [← State.setCursor_zero]
    exact s.cursorAt_setCursor (Nat.zero_le _)
  obtain ⟨hend, hrest⟩ := embedSeqLoop_spec s hfit s.containerLength 0 (Nat.zero_add _) _ hstart rfl
  refine State.eq_setCursor_of_cursorAt hend (by rwa [State.numSamples_putBits]) ?_
  calc (embedSeqLoop s.containerLength s.zeroCursors).withCursorsOf (State.putBits s.container 0 s)
      = (embedSeqLoop s.containerLength s.zeroCursors).withCursorsOf s := by simp [State.withCursorsOf]
    _ = (State.putBits s.container 0 s).withCursorsOf s := hrest
    _ = State.putBits s.container 0 s := by rw [State.putBits_eq]; rfl

/-- Settles O27: the checks are shared, a failed one clears the cursors in both, and the steps do what the loop does. -/
theorem embedSequencerRefinesEmbed : Obligations.EmbedSequencerRefinesEmbed := by
  intro s
  rw [exec_embed, embedBySequencer, execEmbed, State.setCursor_zero]
  cases hcheck : embedCheck s with
  | ok =>
    obtain ⟨-, -, hfit⟩ := (embedCheck_ok_iff s).1 hcheck
    simp only [embedSeqLoop_eq_embedPayload hfit]
  | _ => rfl

/-! ### Bytes beyond the lengths -/

/-- The loop's writes depend on the samples only. -/
theorem State.putBits_grid_congr (hgrid : t.grid = s.grid) (hepoch : t.epoch = s.epoch) (bits : Bits) (k : Nat) :
    (putBits bits k t).grid = (putBits bits k s).grid := by
  induction bits generalizing k s t with
  | nil => exact hgrid
  | cons b bs ih =>
    rw [putBits, putBits, sample_congr hgrid hepoch]
    exact ih (by rw [setSample_grid, setSample_grid, hgrid]) (by rwa [setSample_epoch, setSample_epoch]) (k + 1)

/-- The state with other contents of both buffers. -/
def State.withBuffers (s : State) (p m : Memory) : State := { s with pbuf := p, mbuf := m }

section
variable {p m : Memory} (h : (s.withBuffers p m).container = s.container)
include h

/-- With other buffers that hold the same container, EMBED's loop leaves the same but for the buffers. -/
theorem embedPayload_withBuffers : embedPayload (s.withBuffers p m) = (embedPayload s).withBuffers p m := by
  have hgrid := State.putBits_grid_congr (s := s) (t := s.withBuffers p m) rfl rfl s.container 0
  rw [embedPayload_eq, embedPayload_eq, h, hgrid]
  rfl

theorem execEmbed_withBuffers (hembed : execEmbed s = .next t) :
    execEmbed (s.withBuffers p m) = .next (t.withBuffers p m) := by
  have hcheck : embedCheck (s.withBuffers p m) = embedCheck s := embedCheck_congr ⟨rfl, rfl, rfl⟩ ⟨rfl, rfl⟩
  obtain ⟨hgrid, ⟨hfail, rfl⟩ | ⟨hok, rfl⟩⟩ := execEmbed_cases hembed
  · rw [execEmbed_fail (s := s.withBuffers p m) hgrid (hcheck ▸ hfail), hcheck]
    rfl
  · rw [execEmbed_ok (s := s.withBuffers p m) hgrid (hcheck.trans hok), embedPayload_withBuffers h]
    rfl

end

/-- Settles O28: the container is made of the bytes below the lengths. -/
theorem embedIgnoresBytesBeyondLengths : Obligations.EmbedIgnoresBytesBeyondLengths := fun s _ p m hpass hmsg hembed =>
  execEmbed_withBuffers (s.container_congr (t := s.withBuffers p m) rfl rfl hpass hmsg) hembed

end Sys2Proof.Machine
end

section
/-! PROOFS. The family 43_extract.md: the first field that does not fit the grid, with what EXTRACT delivers before it
and where it ends; EXTRACT issued again; and its sequencer, field by field from the last one back. -/

namespace Sys2Proof.Machine

variable {s t : State}

/-! ### The stages as record updates -/

/-- The text the container in the grid announces, in the samples behind its length field (R171). -/
def State.announcedText (s : State) : BufSel → List Byte
  | .pass => chars (s.announcedLen .pass) (s.bitsFrom 16 (8 * s.announcedLen .pass))
  | .msg => chars (s.announcedLen .msg) (s.bitsFrom (msglenPos s + 32) (8 * s.announcedLen .msg))

theorem gotPasslen_eq (s : State) : gotPasslen s = { s with plen := BitVec.ofNat 16 (s.announcedLen .pass) } := by
  rw [gotPasslen, State.announcedLen]

theorem gotPass_eq (s : State) :
    gotPass s = { gotPasslen s with pbuf := s.pbuf.store 0 (s.announcedText .pass) } := by
  rw [gotPass, State.announcedText, State.announcedLen, State.storeText, State.buf, gotPasslen_pbuf, State.setBuf]

theorem gotMsglen_eq (s : State) : gotMsglen s = { gotPass s with mlen := BitVec.ofNat 32 (s.announcedLen .msg) } := by
  rw [gotMsglen, State.announcedLen]

theorem gotMsg_eq (s : State) :
    gotMsg s = { gotMsglen s with mbuf := s.mbuf.store 0 (s.announcedText .msg) } := by
  rw [gotMsg, State.announcedText, State.announcedLen, State.storeText, State.buf, gotMsglen_mbuf, State.setBuf]

/-! ### The message's bytes -/

theorem gotMsg_bufByte_of_lt {i : Nat} (hi : i < s.fieldValue (msglenPos s) 32) :
    ((gotMsg s).bufByte .msg i).toNat = s.fieldValue (msglenPos s + 32 + 8 * i) 8 := by
  rw [gotMsg_bufByte_msg, if_pos hi, chars_bitsFrom s _ _ i hi]

theorem gotMsg_bufByte_of_le {i : Nat} (hi : s.fieldValue (msglenPos s) 32 ≤ i) :
    (gotMsg s).bufByte .msg i = s.bufByte .msg i := by
  rw [gotMsg_bufByte_msg, if_neg hi.not_gt]

/-! ### The end of EXTRACT -/

/-- The first field that does not fit the grid; none where the container fits (R171, R175). -/
def State.misfit (s : State) : Option Field :=
  if s.numSamples < 16 then some .passlen
  else if s.numSamples < msglenPos s then some .pass
  else if s.numSamples < msglenPos s + 32 then some .msglen
  else if s.numSamples < msglenPos s + 32 + 8 * s.fieldValue (msglenPos s) 32 then some .msg
  else none

/-- The outcome that names the field. -/
def extractOutcome : Option Field → CmdOutcome
  | some f => .truncated f
  | none => .ok

/-- What EXTRACT delivers where it ends at the field: all fields before it. -/
def State.delivered (s : State) : Option Field → State
  | some .passlen => s
  | some .pass => gotPasslen s
  | some .msglen => gotPass s
  | some .msg => gotMsglen s
  | none => gotMsg s

/-- The position at which EXTRACT ends: where the field starts, or where the container ends. -/
def State.extractEnd (s : State) : Option Field → Nat
  | some .passlen => 0
  | some .pass => 16
  | some .msglen => msglenPos s
  | some .msg => msglenPos s + 32
  | none => msglenPos s + 32 + 8 * s.fieldValue (msglenPos s) 32

/-- The state EXTRACT leaves where it ends at the field. -/
def State.extracted (s : State) (f : Option Field) : State :=
  ((s.delivered f).setCursor (s.extractEnd f)).finish opExtract (extractOutcome f)

theorem execExtract_eq_extracted (hgrid : s.numSamples ≤ s.params.gridCap) :
    execExtract s = .next (s.extracted s.misfit) := by
  rw [execExtract_eq, if_neg hgrid.not_gt, State.misfit]
  split_ifs <;> rfl

namespace State

section
variable (s : State)

@[simp] theorem delivered_passlen : s.delivered (some .passlen) = s := (rfl)
@[simp] theorem delivered_pass : s.delivered (some .pass) = gotPasslen s := (rfl)
@[simp] theorem delivered_msglen : s.delivered (some .msglen) = gotPass s := (rfl)
@[simp] theorem delivered_msg : s.delivered (some .msg) = gotMsglen s := (rfl)
@[simp] theorem delivered_none : s.delivered none = gotMsg s := (rfl)

variable (f : Option Field)

@[simp] theorem extracted_plen : (s.extracted f).plen = (s.delivered f).plen := (rfl)
@[simp] theorem extracted_mlen : (s.extracted f).mlen = (s.delivered f).mlen := (rfl)
@[simp] theorem extracted_pbuf : (s.extracted f).pbuf = (s.delivered f).pbuf := (rfl)
@[simp] theorem extracted_mbuf : (s.extracted f).mbuf = (s.delivered f).mbuf := (rfl)
@[simp] theorem extracted_bufByte (sel : BufSel) (i : Nat) :
    (s.extracted f).bufByte sel i = (s.delivered f).bufByte sel i := by
  rw [extracted, bufByte_finish, bufByte_setCursor]

theorem extracted_withCursorsOf (c : State) :
    (s.extracted f).withCursorsOf c = ((s.delivered f).withCursorsOf c).finish opExtract (extractOutcome f) := (rfl)

@[simp] theorem numSamples_delivered : (s.delivered f).numSamples = s.numSamples := by
  unfold delivered
  split <;> simp

/-- EXTRACT ends no further than the samples it has found to exist. -/
theorem extractEnd_misfit_le : s.extractEnd s.misfit ≤ s.numSamples := by
  unfold misfit
  split_ifs <;> simp only [extractEnd] <;> omega

theorem extracted_cursorAt : (s.extracted s.misfit).CursorAt (s.extractEnd s.misfit) := by
  rw [extracted, cursorAt_finish]
  exact cursorAt_setCursor _ (by rw [numSamples_delivered]; exact s.extractEnd_misfit_le)

end

/-! The fields delivered where EXTRACT ends behind them. -/

section
variable {f : Option Field}

theorem delivered_plen (hf : f ∉ [some .passlen]) :
    (s.delivered f).plen = BitVec.ofNat 16 (s.announcedLen .pass) := by
  obtain _ | _ | _ | _ | _ := f <;> simp [gotMsg_eq, gotMsglen_eq, gotPass_eq, gotPasslen_eq] at hf ⊢

theorem delivered_pbuf (hf : f ∉ [some .pass, some .passlen]) :
    (s.delivered f).pbuf = s.pbuf.store 0 (s.announcedText .pass) := by
  obtain _ | _ | _ | _ | _ := f <;> simp [gotMsg_eq, gotMsglen_eq, gotPass_eq] at hf ⊢

theorem delivered_bufByte_pass (hf : f ∉ [some .pass, some .passlen]) (i : Nat) :
    (s.delivered f).bufByte .pass i = (gotPass s).bufByte .pass i := by
  obtain _ | _ | _ | _ | _ := f <;> simp [gotMsg_bufByte_pass, gotMsglen_bufByte_pass] at hf ⊢

theorem delivered_mlen (hf : f ∉ [some .msglen, some .pass, some .passlen]) :
    (s.delivered f).mlen = BitVec.ofNat 32 (s.announcedLen .msg) := by
  obtain _ | _ | _ | _ | _ := f <;> simp [gotMsg_eq, gotMsglen_eq] at hf ⊢

theorem extracted_plen_toNat (hf : f ∉ [some .passlen]) : (s.extracted f).plen.toNat = s.fieldValue 0 16 := by
  rw [extracted_plen, delivered_plen hf, BitVec.toNat_ofNat]
  exact Nat.mod_eq_of_lt (s.fieldValue_lt 0 16)

theorem extracted_mlen_toNat (hf : f ∉ [some .msglen, some .pass, some .passlen]) :
    (s.extracted f).mlen.toNat = s.fieldValue (msglenPos s) 32 := by
  rw [extracted_mlen, delivered_mlen hf, BitVec.toNat_ofNat]
  exact Nat.mod_eq_of_lt (s.fieldValue_lt (msglenPos s) 32)

theorem extracted_bufByte_of_lt (hf : f ∉ [some .pass, some .passlen]) {i : Nat} (hi : i < s.fieldValue 0 16) :
    ((s.extracted f).bufByte .pass i).toNat = s.fieldValue (16 + 8 * i) 8 := by
  rw [extracted_bufByte, delivered_bufByte_pass hf, gotPass_bufByte_pass, if_pos hi, chars_bitsFrom s 16 _ i hi]

theorem extracted_bufByte_of_le (hf : f ∉ [some .pass, some .passlen]) {i : Nat} (hi : s.fieldValue 0 16 ≤ i) :
    (s.extracted f).bufByte .pass i = s.bufByte .pass i := by
  rw [extracted_bufByte, delivered_bufByte_pass hf, gotPass_bufByte_pass, if_neg hi.not_gt]

end

end State

theorem exec_extract_of_misfit {f : Option Field} (hgrid : s.numSamples ≤ s.params.gridCap) (hf : s.misfit = f) :
    exec .extract s = .next (s.extracted f) ∧ (s.extracted f).CursorAt (s.extractEnd f) := by
  subst hf
  exact ⟨execExtract_eq_extracted hgrid, s.extracted_cursorAt⟩

/-- Settles O29: each range of N is one first misfit, and the fields before it are delivered. -/
theorem extractReadsContainer : Obligations.ExtractReadsContainer := by
  refine ⟨decodeOfEncode .extract rfl, fun s pl ml hgrid hpl hml => ?_⟩
  have hpos : msglenPos s = 16 + 8 * pl := by rw [msglenPos, hpl]
  have hpos' : msglenPos s + 32 = 48 + 8 * pl := by omega
  rw [← hpos] at hml
  have hplen {f} (hf : f ∉ [some .passlen]) : (s.extracted f).plen.toNat = pl :=
    (State.extracted_plen_toNat hf).trans hpl.symm
  have hmlen {f} (hf : f ∉ [some .msglen, some .pass, some .passlen]) : (s.extracted f).mlen.toNat = ml :=
    (State.extracted_mlen_toNat hf).trans hml.symm
  have hlt {f} (hf : f ∉ [some .pass, some .passlen]) :
      ∀ i < pl, ((s.extracted f).bufByte .pass i).toNat = s.fieldValue (16 + 8 * i) 8 :=
    fun _ hi => State.extracted_bufByte_of_lt hf (hpl ▸ hi)
  have hle {f} (hf : f ∉ [some .pass, some .passlen]) :
      ∀ i, pl ≤ i → (s.extracted f).bufByte .pass i = s.bufByte .pass i :=
    fun _ hi => State.extracted_bufByte_of_le hf (hpl ▸ hi)
  refine ⟨fun hfit => ?_, fun hshort => ?_, fun hfit hshort => ?_, fun hfit hshort => ?_, fun hfit hshort => ?_⟩
  · have hf : s.misfit = none := by
      rw [State.misfit, if_neg, if_neg, if_neg, if_neg] <;> omega
    obtain ⟨hexec, hcursor⟩ := exec_extract_of_misfit hgrid hf
    refine ⟨_, hexec, hplen (by decide), hmlen (by decide), hlt (by decide), hle (by decide), fun i hi => ?_,
      fun i hi => ?_, ?_, rfl, ?_⟩
    · rw [State.extracted_bufByte, State.delivered_none, gotMsg_bufByte_of_lt (hml ▸ hi), hpos']
    · rw [State.extracted_bufByte, State.delivered_none, gotMsg_bufByte_of_le (hml ▸ hi)]
    · rwa [State.extractEnd, hpos', ← hml] at hcursor
    · rw [State.extracted_withCursorsOf, State.delivered_none, gotMsg_eq, gotMsglen_eq, gotPass_eq, gotPasslen_eq,
        State.withCursorsOf, State.finish]
  · have hf : s.misfit = some .passlen := if_pos hshort
    obtain ⟨hexec, -⟩ := exec_extract_of_misfit hgrid hf
    rw [hexec, ← State.setCursor_zero]
    rfl
  · have hf : s.misfit = some .pass := by
      rw [State.misfit, if_neg, if_pos] <;> omega
    obtain ⟨hexec, hcursor⟩ := exec_extract_of_misfit hgrid hf
    refine ⟨_, hexec, hplen (by decide), hcursor, rfl, ?_⟩
    rw [State.extracted_withCursorsOf, State.delivered_pass, gotPasslen_eq, State.withCursorsOf, State.finish]
  · have hf : s.misfit = some .msglen := by
      rw [State.misfit, if_neg, if_neg, if_pos] <;> omega
    obtain ⟨hexec, hcursor⟩ := exec_extract_of_misfit hgrid hf
    refine ⟨_, hexec, hplen (by decide), hlt (by decide), hle (by decide), hpos ▸ hcursor, rfl, ?_⟩
    rw [State.extracted_withCursorsOf, State.delivered_msglen, gotPass_eq, gotPasslen_eq, State.withCursorsOf,
      State.finish]
  · have hf : s.misfit = some .msg := by
      rw [State.misfit, if_neg, if_neg, if_neg, if_pos] <;> omega
    obtain ⟨hexec, hcursor⟩ := exec_extract_of_misfit hgrid hf
    refine ⟨_, hexec, hplen (by decide), hmlen (by decide), hlt (by decide), hle (by decide), hpos' ▸ hcursor, rfl,
      ?_⟩
    rw [State.extracted_withCursorsOf, State.delivered_msg, gotMsglen_eq, gotPass_eq, gotPasslen_eq,
      State.withCursorsOf, State.finish]

/-! ### EXTRACT issued again -/

theorem State.fieldValue_congr (hlsb : ∀ k, t.lsb k = s.lsb k) (k w : Nat) : t.fieldValue k w = s.fieldValue k w := by
  simp only [fieldValue, hlsb]

theorem msglenPos_congr (hlsb : ∀ k, t.lsb k = s.lsb k) : msglenPos t = msglenPos s := by
  rw [msglenPos, State.fieldValue_congr hlsb, msglenPos]

/-- Which fields fit depends on N and the LSBs only. -/
theorem State.misfit_congr (hN : t.numSamples = s.numSamples) (hlsb : ∀ k, t.lsb k = s.lsb k) :
    t.misfit = s.misfit := by
  simp only [misfit, hN, msglenPos_congr hlsb, fieldValue_congr hlsb]

theorem State.extractEnd_congr (hlsb : ∀ k, t.lsb k = s.lsb k) (f : Option Field) :
    t.extractEnd f = s.extractEnd f := by
  unfold extractEnd
  simp only [msglenPos_congr hlsb, fieldValue_congr hlsb]

theorem State.announcedLen_congr (hlsb : ∀ k, t.lsb k = s.lsb k) (sel : BufSel) :
    t.announcedLen sel = s.announcedLen sel := by
  unfold announcedLen
  simp only [msglenPos_congr hlsb, fieldValue_congr hlsb]

theorem State.announcedText_congr (hlsb : ∀ k, t.lsb k = s.lsb k) (sel : BufSel) :
    t.announcedText sel = s.announcedText sel := by
  unfold announcedText
  simp only [msglenPos_congr hlsb, announcedLen_congr hlsb, bitsFrom_congr fun _ _ => hlsb _]

/-! On the same LSBs, a stage changes nothing where it finds its fields delivered. -/

section
variable (hlsb : ∀ k, t.lsb k = s.lsb k)
include hlsb

theorem gotPasslen_eq_self (hplen : t.plen = BitVec.ofNat 16 (s.announcedLen .pass)) : gotPasslen t = t := by
  rw [gotPasslen_eq, State.announcedLen_congr hlsb, ← hplen]

theorem gotPass_eq_self (hwf : s.pbuf.wf) (hgot : gotPasslen t = t)
    (hpbuf : t.pbuf = s.pbuf.store 0 (s.announcedText .pass)) : gotPass t = t := by
  rw [gotPass_eq, hgot, State.announcedText_congr hlsb, hpbuf, Memory.store_store hwf, ← hpbuf]

theorem gotMsglen_eq_self (hgot : gotPass t = t) (hmlen : t.mlen = BitVec.ofNat 32 (s.announcedLen .msg)) :
    gotMsglen t = t := by
  rw [gotMsglen_eq, hgot, State.announcedLen_congr hlsb, ← hmlen]

theorem gotMsg_eq_self (hwf : s.mbuf.wf) (hgot : gotMsglen t = t)
    (hmbuf : t.mbuf = s.mbuf.store 0 (s.announcedText .msg)) : gotMsg t = t := by
  rw [gotMsg_eq, hgot, State.announcedText_congr hlsb, hmbuf, Memory.store_store hwf, ← hmbuf]

end

/-- On the state EXTRACT has left, the stage it has delivered changes nothing. -/
theorem State.delivered_extracted (hpwf : s.pbuf.wf) (hmwf : s.mbuf.wf) {f : Option Field}
    (hlsb : ∀ k, (s.extracted f).lsb k = s.lsb k) : (s.extracted f).delivered f = s.extracted f := by
  have hpasslen (hf : f ∉ [some .passlen]) : gotPasslen (s.extracted f) = s.extracted f :=
    gotPasslen_eq_self hlsb (State.delivered_plen hf)
  have hpass (hf : f ∉ [some .pass, some .passlen]) : gotPass (s.extracted f) = s.extracted f :=
    gotPass_eq_self hlsb hpwf (hpasslen (List.not_mem_of_not_mem_cons hf)) (State.delivered_pbuf hf)
  have hmsglen (hf : f ∉ [some .msglen, some .pass, some .passlen]) : gotMsglen (s.extracted f) = s.extracted f :=
    gotMsglen_eq_self hlsb (hpass (List.not_mem_of_not_mem_cons hf)) (State.delivered_mlen hf)
  obtain _ | _ | _ | _ | _ := f
  case none =>
    refine gotMsg_eq_self hlsb hmwf (hmsglen (by decide)) ?_
    rw [State.extracted_mbuf, State.delivered_none, gotMsg_eq]
  case some.passlen => rfl
  case some.pass => exact hpasslen (by decide)
  case some.msglen => exact hpass (by decide)
  case some.msg => exact hmsglen (by decide)

/-- Settles O31: the same field misfits, the stage before it changes nothing, and the cursors and STATUS already stand
as they are left. -/
theorem extractIsRepeatable : Obligations.ExtractIsRepeatable := by
  intro s t hpwf hmwf hexec
  have hkeep := exec_keepsUnlisted hexec
  have hlsb : ∀ k, t.lsb k = s.lsb k := fun k => by rw [State.lsb, hkeep.samples k nofun, State.lsb]
  obtain ⟨hrows, hcols, hchans⟩ := hkeep.dims
  have hN : t.numSamples = s.numSamples := State.numSamples_congr hrows hcols hchans
  obtain ⟨hgrid, -⟩ := execExtract_cases hexec
  have hgrid' : t.numSamples ≤ t.params.gridCap := by rwa [hN, hkeep.params]
  have ht : t = s.extracted s.misfit := Host.Outcome.next.inj (hexec.symm.trans (execExtract_eq_extracted hgrid))
  have hdelivered : t.delivered s.misfit = t := by
    rw [ht] at hlsb ⊢
    exact State.delivered_extracted hpwf hmwf hlsb
  calc exec .extract t
      = .next (t.extracted t.misfit) := execExtract_eq_extracted hgrid'
    _ = .next ((t.setCursor (s.extractEnd s.misfit)).finish opExtract (extractOutcome s.misfit)) := by
        rw [State.misfit_congr hN hlsb, State.extracted, hdelivered, State.extractEnd_congr hlsb]
    _ = .next t := by
        rw [ht]
        rfl

/-! ### The sequencer, field by field -/

@[simp] theorem State.storeText_nil (s : State) (sel : BufSel) : s.storeText sel [] = s := s.setBuf_buf sel

theorem extractPasslen_withCursorsOf (s c : State) (pos : Nat) :
    extractPasslen pos (s.withCursorsOf c) = extractPasslen pos s := by
  have hplen : ∀ v, { s.withCursorsOf c with plen := v } = State.withCursorsOf { s with plen := v } c := fun _ => rfl
  rw [extractPasslen, extractPasslen, truncateAt, truncateAt, State.numSamples_withCursorsOf,
    State.setCursor_withCursorsOf, State.bitsFrom_withCursorsOf, hplen, extractPass_withCursorsOf]

/-- What the sequencer gives from `q` on, in at most `fuel` steps. -/
def seqResult (fuel : Nat) (q : ExtractSeq) : Result := .next (extractSeqLoop fuel q).st

/-- The cursors stand at p, and there is a step left for every sample from there on. -/
structure SeqReady (fuel p : Nat) (s : State) : Prop where
  cursor : s.CursorAt p
  le_numSamples : p ≤ s.numSamples
  enough : s.numSamples ≤ p + fuel

section
variable {fuel p n : Nat} {f : Field} (h : SeqReady fuel p s)
include h

theorem SeqReady.bcur_eq : s.bcur.toNat = p := h.cursor.1

theorem SeqReady.withPlen (x : BitVec 16) : SeqReady fuel p { s with plen := x } := { h with }

theorem SeqReady.withMlen (x : BitVec 32) : SeqReady fuel p { s with mlen := x } := { h with }

/-- A length field, entered and run to its end. -/
theorem SeqReady.lengthField (hf : fieldBuf f = none) (hn : n ≠ 0) (hfit : p + n ≤ s.numSamples) :
    ∃ t : State, SeqReady (fuel - n) (p + n) t ∧ t = s.withCursorsOf t ∧
      seqResult fuel (seqField s f n) = seqResult (fuel - n) (seqFinish f (decodeInt (s.bitsFrom p n)) t) := by
  have henough := h.enough
  obtain ⟨t, hcursor, hst, hloop⟩ := extractSeqLoop_lengthField s hf hfit n 0 (seqField s f n)
    (by omega) (by omega) rfl rfl rfl rfl h.cursor rfl fuel (by omega)
  have ht := State.eq_withCursorsOf hst
  have hN : t.numSamples = s.numSamples := by rw [ht, State.numSamples_withCursorsOf]
  exact ⟨t, ⟨hcursor, by omega, by omega⟩, ht, by rw [seqResult, hloop, seqResult]⟩

/-- A text field, entered and run to its end. -/
theorem SeqReady.textField {sel : BufSel} (hf : fieldBuf f = some sel) (hn : n ≠ 0)
    (hfit : p + 8 * n ≤ s.numSamples) :
    ∃ (t : State) (acc : Nat), SeqReady (fuel - 8 * n) (p + 8 * n) t ∧
      t = (s.storeText sel (chars n (s.bitsFrom p (8 * n)))).withCursorsOf t ∧
      seqResult fuel (seqField s f (8 * n)) = seqResult (fuel - 8 * n) (seqFinish f acc t) := by
  have henough := h.enough
  obtain ⟨t, acc, hcursor, hst, hloop⟩ := extractSeqLoop_textField s hf hfit (8 * n) 0 (seqField s f (8 * n))
    (by omega) (by omega) rfl rfl rfl rfl rfl rfl h.cursor (s.storeText_nil sel).symm fuel (by omega)
  have ht := State.eq_withCursorsOf hst
  have hN : t.numSamples = s.numSamples := by rw [ht, State.numSamples_withCursorsOf, State.numSamples_storeText]
  exact ⟨t, acc, ⟨hcursor, by omega, by omega⟩, ht, by rw [seqResult, hloop, seqResult]⟩

/-! What each `enter` of R177 leads to is what the big-step command does from that field on. -/

theorem SeqReady.seqResult_seqEnd (o : CmdOutcome) :
    seqResult fuel (seqEnd s f o) = endWith (s.setCursor p) opExtract o :=
  extractSeqLoop_seqEnd h.cursor h.le_numSamples fuel f o

theorem SeqReady.seqResult_enterMsg : seqResult fuel (enterMsg (8 * n) s) = extractMsg p n s := by
  rw [enterMsg, extractMsg, h.bcur_eq]
  by_cases hshort : s.numSamples < p + 8 * n
  · rw [if_pos hshort, if_pos hshort]
    exact h.seqResult_seqEnd _
  rw [if_neg hshort, if_neg hshort]
  by_cases hn : n = 0
  · subst hn
    rw [if_pos (Nat.mul_zero 8)]
    exact h.seqResult_seqEnd _
  · obtain ⟨t, acc, ht, hst, hresult⟩ := h.textField (f := .msg) rfl hn (Nat.not_lt.1 hshort)
    rw [if_neg (by omega), hresult, ← State.setCursor_withCursorsOf _ t, ← hst]
    exact ht.seqResult_seqEnd _

theorem SeqReady.seqResult_enterMsglen : seqResult fuel (enterMsglen s) = extractMsglen p s := by
  rw [enterMsglen, extractMsglen, h.bcur_eq]
  by_cases hshort : s.numSamples < p + 32
  · rw [if_pos hshort, if_pos hshort]
    exact h.seqResult_seqEnd _
  · obtain ⟨t, ht, hst, hresult⟩ := h.lengthField (f := .msglen) rfl (by decide) (Nat.not_lt.1 hshort)
    rw [if_neg hshort, if_neg hshort, hresult]
    generalize decodeInt (s.bitsFrom p 32) = v
    have hmlen : { t with mlen := BitVec.ofNat 32 v } = State.withCursorsOf { s with mlen := BitVec.ofNat 32 v } t := by
      rw [hst]
      rfl
    rw [← extractMsg_withCursorsOf _ t, ← hmlen]
    exact (ht.withMlen _).seqResult_enterMsg

theorem SeqReady.seqResult_enterPass : seqResult fuel (enterPass (8 * n) s) = extractPass p n s := by
  rw [enterPass, extractPass, h.bcur_eq]
  by_cases hshort : s.numSamples < p + 8 * n
  · rw [if_pos hshort, if_pos hshort]
    exact h.seqResult_seqEnd _
  rw [if_neg hshort, if_neg hshort]
  by_cases hn : n = 0
  · subst hn
    rw [if_pos (Nat.mul_zero 8), chars, State.storeText_nil]
    exact h.seqResult_enterMsglen
  · obtain ⟨t, acc, ht, hst, hresult⟩ := h.textField (f := .pass) rfl hn (Nat.not_lt.1 hshort)
    rw [if_neg (by omega), hresult, ← extractMsglen_withCursorsOf _ t, ← hst]
    exact ht.seqResult_enterMsglen

theorem SeqReady.seqResult_enterPasslen : seqResult fuel (enterPasslen s) = extractPasslen p s := by
  rw [enterPasslen, extractPasslen, h.bcur_eq]
  by_cases hshort : s.numSamples < p + 16
  · rw [if_pos hshort, if_pos hshort]
    exact h.seqResult_seqEnd _
  · obtain ⟨t, ht, hst, hresult⟩ := h.lengthField (f := .passlen) rfl (by decide) (Nat.not_lt.1 hshort)
    rw [if_neg hshort, if_neg hshort, hresult]
    generalize decodeInt (s.bitsFrom p 16) = v
    have hplen : { t with plen := BitVec.ofNat 16 v } = State.withCursorsOf { s with plen := BitVec.ofNat 16 v } t := by
      rw [hst]
      rfl
    rw [← extractPass_withCursorsOf _ t, ← hplen]
    exact (ht.withPlen _).seqResult_enterPass

end

/-- Settles O30: the sequencer starts at position 0, with a step for every sample, and goes from field to field as the
command does. -/
theorem extractSequencerRefinesExtract : Obligations.ExtractSequencerRefinesExtract := by
  intro s
  have hstart : SeqReady s.numSamples 0 s.zeroCursors := by
    refine ⟨?_, Nat.zero_le _, (Nat.zero_add _).ge⟩
    rw [← State.setCursor_zero]
    exact s.cursorAt_setCursor (Nat.zero_le _)
  have hrun : seqResult s.numSamples (enterPasslen s.zeroCursors) = extractPasslen 0 s :=
    hstart.seqResult_enterPasslen.trans (extractPasslen_withCursorsOf s s.zeroCursors 0)
  rw [exec_extract, execExtract, ← hrun]
  rfl

end Sys2Proof.Machine
end

section
/-! PROOFS. The family 44_control_and_host.md: one equation per transaction where it is answered and one where it is
refused, the status a command leaves, and from these the registers, the buffers, the grid store and command issue. -/

namespace Sys2Proof.Machine

variable {s t : State} {i : Instr} {x : BitVec 32} {n : BitVec 4} {r : Reg} {v : Nat}

/-! ### Register numbers -/

theorem Reg.ofNumber_eq_none_iff : Reg.ofNumber n = none ↔ 13 ≤ n.toNat := by
  revert n
  decide

theorem perform_regRead (hr : Reg.ofNumber n = some r) (s : State) :
    perform (.regRead n) s = .next (s.record (r.read s)) := by
  change regRead n s = _
  rw [regRead, hr]

theorem perform_regRead_reserved (hn : Reg.ofNumber n = none) (s : State) :
    perform (.regRead n) s = .refused (.reservedRegister n) := by
  change regRead n s = _
  rw [regRead, hn]

theorem perform_regWrite_reserved (hn : Reg.ofNumber n = none) (v : Nat) (s : State) :
    perform (.regWrite n v) s = .refused (.reservedRegister n) := by
  change regWrite n v s = _
  rw [regWrite, hn]

theorem perform_regWrite_tooWide (hr : Reg.ofNumber n = some r) (hv : r.carries v = false) (s : State) :
    perform (.regWrite n v) s = .refused (.valueTooWide r v) := by
  change regWrite n v s = _
  rw [regWrite, hr]
  exact if_neg (by simp [hv])

/-- An answered register write names a register that can hold the value. -/
theorem regWrite_inv (h : perform (.regWrite n v) s = .next t) :
    ∃ r, Reg.ofNumber n = some r ∧ r.carries v = true ∧ r.write v s = .next t := by
  cases hr : Reg.ofNumber n with
  | none => cases (perform_regWrite_reserved hr v s).symm.trans h
  | some r =>
    cases hv : r.carries v with
    | false => cases (perform_regWrite_tooWide hr hv s).symm.trans h
    | true => exact ⟨r, rfl, hv, (perform_regWrite hr hv s).symm.trans h⟩

/-- Settles O42: the numbers from 13 on name no register. -/
theorem reservedRegisterNumbersRefused : Obligations.ReservedRegisterNumbersRefused := by
  intro s n v hn
  have hnone : Reg.ofNumber n = none := Reg.ofNumber_eq_none_iff.2 hn
  exact ⟨perform_regRead_reserved hnone s, perform_regWrite_reserved hnone v s⟩

/-! ### Register values -/

theorem perform_regRead_number (r : Reg) (s : State) :
    perform (.regRead r.number) s = .next (s.record (r.read s)) :=
  perform_regRead (Reg.ofNumber_number r) s

/-- Settles O38, register by register. -/
theorem registerReadsReturnValues : Obligations.RegisterReadsReturnValues := fun s =>
  ⟨perform_regRead_number .cmd s, perform_regRead_number .status s, perform_regRead_number .rows s,
    perform_regRead_number .cols s, perform_regRead_number .chans s, perform_regRead_number .plen s,
    perform_regRead_number .mlen s, perform_regRead_number .ival s, perform_regRead_number .bqlen s,
    perform_regRead_number .bcur s, perform_regRead_number .scurR s, perform_regRead_number .scurC s,
    perform_regRead_number .scurCh s⟩

/-- A write of a value of the register's width, where `f` is what the register makes of the value. -/
theorem perform_regWrite_toNat (r : Reg) {w : Nat} {f : BitVec w → Result} (hw : r.width? = some w)
    (hwrite : ∀ v, r.write v s = f (BitVec.ofNat w v)) (v : BitVec w) :
    perform (.regWrite r.number v.toNat) s = f v := by
  have hv : r.carries v.toNat = true := by simp [Reg.carries, hw, v.isLt]
  rw [perform_regWrite (Reg.ofNumber_number r) hv, hwrite, BitVec.ofNat_toNat, BitVec.setWidth_eq]

/-- Settles O39, register by register. -/
theorem registerWritesTakeEffect : Obligations.RegisterWritesTakeEffect := fun s =>
  ⟨perform_regWrite_toNat .rows rfl fun _ => rfl, perform_regWrite_toNat .cols rfl fun _ => rfl,
    perform_regWrite_toNat .chans rfl fun _ => rfl, perform_regWrite_toNat .plen rfl fun _ => rfl,
    perform_regWrite_toNat .mlen rfl fun _ => rfl, perform_regWrite_toNat .ival rfl fun _ => rfl,
    fun x => perform_cmd x s, perform_regWrite_toNat .status rfl fun _ => rfl,
    fun _ => perform_regWrite (r := .bqlen) rfl rfl s, perform_regWrite_toNat .bcur rfl fun _ => rfl,
    perform_regWrite_toNat .scurR rfl fun _ => rfl, perform_regWrite_toNat .scurC rfl fun _ => rfl,
    perform_regWrite_toNat .scurCh rfl fun _ => rfl⟩

/-! ### Buffers and the grid store -/

section
variable {sel : BufSel} {k : Nat}

theorem perform_bufRead (hk : k < bufSize sel) (s : State) :
    perform (.bufRead sel k) s = .next (s.record (s.bufByte sel k).toNat) :=
  if_pos hk

theorem perform_bufRead_outside (hk : bufSize sel ≤ k) (s : State) :
    perform (.bufRead sel k) s = .refused (.bufferIndex sel k) :=
  if_neg hk.not_gt

theorem perform_bufWrite (hk : k < bufSize sel) (b : Byte) (s : State) :
    perform (.bufWrite sel k b) s = .next (s.setBuf sel ((s.buf sel).set k b)) :=
  if_pos hk

theorem perform_bufWrite_outside (hk : bufSize sel ≤ k) (b : Byte) (s : State) :
    perform (.bufWrite sel k b) s = .refused (.bufferIndex sel k) :=
  if_neg hk.not_gt

theorem perform_gridRead (hk : k < s.params.gridCap) :
    perform (.gridRead k) s = .next (s.record (s.sample k).toNat) :=
  if_pos hk

theorem perform_gridRead_outside (hk : s.params.gridCap ≤ k) : perform (.gridRead k) s = .refused (.gridIndex k) :=
  if_neg hk.not_gt

theorem perform_gridWrite (hk : k < s.params.gridCap) (b : Byte) :
    perform (.gridWrite k b) s = .next (s.setSample k b) :=
  if_pos hk

theorem perform_gridWrite_outside (hk : s.params.gridCap ≤ k) (b : Byte) :
    perform (.gridWrite k b) s = .refused (.gridIndex k) :=
  if_neg hk.not_gt

/-- The index ranges of R192. -/
theorem lt_bufSize (hpass : sel = .pass → k ≤ 65534) (hmsg : sel = .msg → k ≤ 4294967294) : k < bufSize sel := by
  cases sel with
  | pass => exact Nat.lt_succ_of_le (hpass rfl)
  | msg => exact Nat.lt_succ_of_le (hmsg rfl)

theorem bufSize_le (hpass : sel = .pass → 65534 < k) (hmsg : sel = .msg → 4294967294 < k) : bufSize sel ≤ k := by
  cases sel with
  | pass => exact hpass rfl
  | msg => exact hmsg rfl

end

theorem State.bufByte_of_unwritten {sel : BufSel} {k : Nat} (h : (s.buf sel).get? k = none) :
    s.bufByte sel k = Config.unwritten s.epoch (bufSpace sel) k := by
  rw [bufByte, h]
  rfl

/-- Settles O40: a write puts one byte into the buffer's memory, and with the old memory back the state is the old
one. -/
theorem bufferAccessMovesOneByte : Obligations.BufferAccessMovesOneByte := by
  refine ⟨fun s k hk => perform_bufRead (sel := .pass) (Nat.lt_succ_of_le hk) s,
    fun s k hk => perform_bufRead (sel := .msg) (Nat.lt_succ_of_le hk) s, ?_,
    fun _ _ _ => State.bufByte_of_unwritten, ?_⟩
  · intro s sel k b hpass hmsg
    refine ⟨_, perform_bufWrite (lt_bufSize hpass hmsg) b s, ?_, fun j hj => ?_, ?_⟩
    · rw [State.bufByte_setBuf_set, if_pos rfl]
    · rw [State.bufByte_setBuf_set, if_neg hj]
    · rw [State.setBuf_setBuf, State.setBuf_buf]
  · intro s sel k b hpass hmsg
    have hk := bufSize_le hpass hmsg
    exact ⟨perform_bufRead_outside hk s, perform_bufWrite_outside hk b s⟩

/-- Settles O41: a write puts one sample into the grid store. -/
theorem gridAccessMovesOneSample : Obligations.GridAccessMovesOneSample := by
  intro s k
  refine ⟨fun hk => ⟨perform_gridRead hk, fun b => ⟨_, perform_gridWrite hk b, ?_, fun j hj => ?_, rfl⟩⟩,
    fun hk => ⟨perform_gridRead_outside hk, perform_gridWrite_outside hk⟩⟩
  · rw [State.sample_setSample, if_pos rfl]
  · rw [State.sample_setSample, if_neg hj]

/-! ### Command issue -/

theorem issue_of_cmd (h : decode x = .cmd i) (s : State) : issue x s = exec i s := by
  rw [issue, h]

theorem issue_of_illegal {c : IllegalCause} (h : decode x = .illegal c) (s : State) :
    issue x s = .next (s.finish (opOf x) (.illegal c)) := by
  rw [issue, h]
  rfl

/-- The word at the head of the script is issued. -/
theorem step_of_pending_cmd {rest : List HostOp} (h : s.pending = .regWrite 0#4 x.toNat :: rest) :
    step s = issue x { s with pending := rest } :=
  (step_of_pending h).trans (perform_cmd x _)

theorem step_withFetchWord (x : BitVec 32) (s : State) : step (s.withFetchWord 32 x.toNat) = issue x s := by
  rw [State.withFetchWord, Nat.mod_eq_of_lt x.isLt]
  exact step_of_pending_cmd rfl

/-- A word of 32 bits is its own table word (R100). -/
theorem decodeTableWord_of_cmd (h : decode x = .cmd i) : decodeTableWord 32 x.toNat = some i := by
  have hlt : x.toNat < 2 ^ Config.cmdW := x.isLt
  rw [decodeTableWord, Nat.mod_eq_of_lt x.isLt, if_pos hlt, BitVec.ofNat_toNat, BitVec.setWidth_eq, h]

theorem step_idle (h : s.pending = []) : step s = .next s := by
  rw [step, performNext, h]

/-- Settles O44: a step performs the head of the script, which here is the issue of a word. -/
theorem stepRunsDecodedCommand : Obligations.StepRunsDecodedCommand := by
  refine ⟨?_, ?_, ?_, fun _ => step_idle⟩
  · exact fun s x rest i hs hx => (step_of_pending_cmd hs).trans (issue_of_cmd hx _)
  · exact fun s x rest c hs hx => (step_of_pending_cmd hs).trans (issue_of_illegal hx _)
  · exact fun s x i hx => ⟨decodeTableWord_of_cmd hx, (step_withFetchWord x s).trans (issue_of_cmd hx s)⟩

/-! ### The status a command leaves -/

/-- A command leaves the status word of its own opcode, and a well-formed one an outcome of its own list (R214). -/
theorem exec_status (h : exec i s = .next t) :
    ∃ o, (i.wf = true → o ∈ outcomesOf i) ∧ t.status = statusWord i.op o := by
  cases i with
  | nop =>
    obtain rfl := Host.Outcome.next.inj h
    exact ⟨_, by simp [outcomesOf], State.finish_status ..⟩
  | encint w =>
    obtain ⟨hw, rfl⟩ | ⟨-, -, rfl⟩ | ⟨-, -, -, rfl⟩ | ⟨-, -, -, rfl⟩ := execEncint_cases h
    · exact ⟨_, by simp [Instr.wf, hw], State.finish_status ..⟩
    all_goals exact ⟨_, by simp [outcomesOf], State.finish_status ..⟩
  | decint w =>
    obtain ⟨hw, rfl⟩ | ⟨-, -, rfl⟩ | ⟨-, -, rfl⟩ := execDecint_cases h
    · exact ⟨_, by simp [Instr.wf, hw], State.finish_status ..⟩
    all_goals exact ⟨_, by simp [outcomesOf], State.finish_status ..⟩
  | enctxt sel =>
    obtain ⟨-, rfl⟩ | ⟨-, rfl⟩ := execEnctxt_cases h
    all_goals exact ⟨_, by simp [outcomesOf], State.finish_status ..⟩
  | dectxt sel =>
    obtain ⟨-, rfl⟩ | ⟨-, rfl⟩ := execDectxt_cases h
    all_goals exact ⟨_, by simp [outcomesOf], State.finish_status ..⟩
  | bqclr =>
    obtain rfl := Host.Outcome.next.inj h
    exact ⟨_, by simp [outcomesOf], State.finish_status ..⟩
  | embed => exact ⟨_, fun _ => embedCheck_mem s, status_execEmbed h⟩
  | extract =>
    obtain ⟨-, ⟨-, rfl⟩ | ⟨-, -, rfl⟩ | ⟨-, -, rfl⟩ | ⟨-, -, rfl⟩ | ⟨-, rfl⟩⟩ := execExtract_cases h
    all_goals exact ⟨_, by simp [outcomesOf], State.finish_status ..⟩

/-- The left operand of an append stands above the right one. -/
theorem toNat_append_eq_add {w w' : Nat} (hi : BitVec w) (lo : BitVec w') :
    (hi ++ lo).toNat = hi.toNat * 2 ^ w' + lo.toNat := by
  rw [BitVec.toNat_append, ← Nat.shiftLeft_add_eq_or_of_lt lo.isLt, Nat.shiftLeft_eq]

/-- The three fields of a status word, by their weights (R211). -/
theorem toNat_statusWord (low : BitVec 8) (o : CmdOutcome) :
    (statusWord low o).toNat = low.toNat * 2 ^ 8 + o.sub.toNat * 2 ^ 4 + o.code.toNat := by
  have happend : (statusWord low o).toNat = _ := toNat_append_eq_add 0#16 (low ++ (o.sub ++ o.code))
  rw [happend, toNat_append_eq_add, toNat_append_eq_add, BitVec.toNat_ofNat]
  omega

theorem CmdOutcome.code_eq_zero_iff {o : CmdOutcome} : o.code = 0#4 ↔ o = .ok := by
  cases o <;> simp [CmdOutcome.code]

theorem eq_nop_of_op_eq_zero (h : i.op = 0#8) : i = .nop := by
  cases i with
  | nop => rfl
  | _ => cases h

/-- A status word that is 0 names NOP's opcode and OK. -/
theorem statusWord_eq_zero {low : BitVec 8} {o : CmdOutcome} (h : statusWord low o = 0#32) : low = 0#8 ∧ o = .ok := by
  have hsum : low.toNat * 2 ^ 8 + o.sub.toNat * 2 ^ 4 + o.code.toNat = 0 := by rw [← toNat_statusWord, h]; rfl
  have hlow : low.toNat = 0 := by omega
  have hcode : o.code.toNat = 0 := by omega
  exact ⟨BitVec.eq_of_toNat_eq hlow, CmdOutcome.code_eq_zero_iff.1 (BitVec.eq_of_toNat_eq hcode)⟩

/-- Of the words, only 0 can leave a STATUS of 0. -/
theorem eq_zero_of_issue_status (h : issue x s = .next t) (hzero : t.status = 0#32) : x = 0#32 := by
  cases hx : decode x with
  | cmd i =>
    obtain ⟨o, -, ho⟩ := exec_status ((issue_of_cmd hx s).symm.trans h)
    obtain ⟨hop, -⟩ := statusWord_eq_zero (ho.symm.trans hzero)
    obtain rfl := eq_nop_of_op_eq_zero hop
    exact (decode_eq_cmd_iff.1 hx).2.symm
  | illegal c =>
    obtain rfl := Host.Outcome.next.inj ((issue_of_illegal hx s).symm.trans h)
    cases (statusWord_eq_zero hzero).2

/-- A register write other than of CMD leaves STATUS alone (R191). -/
theorem Reg.write_next (hr : r ≠ .cmd) (v : Nat) (s : State) : ∃ t, r.write v s = .next t ∧ t.status = s.status := by
  cases r with
  | cmd => exact absurd rfl hr
  | _ => exact ⟨_, rfl, rfl⟩

/-- A register write that takes STATUS to 0 is NOP's word written to CMD. -/
theorem regWrite_nop_of_status_zero (h : perform (.regWrite n v) s = .next t) (hs : s.status ≠ 0#32)
    (ht : t.status = 0#32) : n = 0#4 ∧ v = 0 := by
  obtain ⟨r, hr, hv, hwrite⟩ := regWrite_inv h
  by_cases hcmd : r = .cmd
  · subst hcmd
    have hword : BitVec.ofNat 32 v = 0#32 := eq_zero_of_issue_status hwrite ht
    have hlt : v < 2 ^ 32 := of_decide_eq_true hv
    have hv0 : v % 2 ^ 32 = 0 := congrArg BitVec.toNat hword
    exact ⟨(Reg.number_of_ofNumber hr).symm, by omega⟩
  · obtain ⟨u, hu, hstatus⟩ := Reg.write_next hcmd v s
    obtain rfl := Host.Outcome.next.inj (hu.symm.trans hwrite)
    exact absurd (hstatus.symm.trans ht) hs

/-- Settles O12: of the other transactions only the reset event writes STATUS. -/
theorem nopChangesOnlyStatus : Obligations.NopChangesOnlyStatus := by
  refine ⟨decode_of_toNat rfl rfl, fun _ => rfl, fun op s t h hs ht => ?_⟩
  obtain ⟨n, v, rfl⟩ | ⟨v, rfl⟩ | ⟨sel, k, b, -, -, rfl⟩ | ⟨k, b, -, -, rfl⟩ | ⟨rfl, -⟩ := perform_cases h
  · obtain ⟨rfl, rfl⟩ := regWrite_nop_of_status_zero h hs ht
    exact .inr rfl
  · exact absurd ((s.record_status v).symm.trans ht) hs
  · exact absurd ((s.setBuf_status sel _).symm.trans ht) hs
  · exact absurd ((s.setSample_status k b).symm.trans ht) hs
  · exact .inl rfl

/-! ### Where a transaction is answered -/

/-- The result is a next state where the condition holds and a refusal where it does not. -/
def AnsweredExactly (c : Bool) (res : Result) : Prop :=
  (c = true → ∃ t, res = .next t) ∧ (c = false → ∃ q, res = .refused q)

namespace AnsweredExactly

theorem next (t : State) : AnsweredExactly true (.next t) := ⟨fun _ => ⟨t, rfl⟩, nofun⟩

theorem refused (q : Refusal) : AnsweredExactly false (.refused q) := ⟨nofun, fun _ => ⟨q, rfl⟩⟩

/-- A transaction with one range test. -/
theorem ite {p : Prop} [Decidable p] (t : State) (q : Refusal) :
    AnsweredExactly (decide p) (if p then .next t else .refused q) := by
  by_cases hp : p
  · rw [if_pos hp, decide_eq_true hp]
    exact next t
  · rw [if_neg hp, decide_eq_false hp]
    exact refused q

/-- Commands: only EMBED and EXTRACT need the grid their dimensions describe (R60). -/
theorem exec (i : Instr) (s : State) : AnsweredExactly (!usesGrid i || s.gridFits) (exec i s) := by
  constructor
  · intro hc
    refine exec_next i s fun hi => ?_
    simpa [hi, State.gridFits] using hc
  · intro hc
    obtain ⟨hi, hbeyond⟩ : usesGrid i = true ∧ s.params.gridCap < s.numSamples := by
      simpa [State.gridFits] using hc
    obtain ⟨hembed, hextract⟩ := gridBeyondStoreRefused s hbeyond
    obtain rfl | rfl := (usesGrid_iff i).1 hi
    · exact ⟨_, hembed⟩
    · exact ⟨_, hextract⟩

theorem issue (x : BitVec 32) (s : State) : AnsweredExactly (wordAllowed x s) (issue x s) := by
  cases hx : decode x with
  | cmd i =>
    rw [wordAllowed, issue_of_cmd hx, hx]
    exact exec i s
  | illegal c =>
    rw [wordAllowed, issue_of_illegal hx, hx]
    exact next _

/-- Register writes: a number that names a register, a value it can hold, and for CMD a word that is allowed. -/
theorem regWrite (n : BitVec 4) (v : Nat) (s : State) :
    AnsweredExactly ((HostOp.regWrite n v).allowed s) (perform (.regWrite n v) s) := by
  cases hr : Reg.ofNumber n with
  | none =>
    rw [perform_regWrite_reserved hr, HostOp.allowed, hr]
    exact refused _
  | some r =>
    have hallowed : (HostOp.regWrite n v).allowed s =
        (r.carries v && if r = .cmd then wordAllowed (BitVec.ofNat 32 v) s else true) := by
      rw [HostOp.allowed, hr]
      cases r <;> simp [Reg.carries, Reg.width?]
    cases hv : r.carries v with
    | false =>
      rw [perform_regWrite_tooWide hr hv, hallowed, hv]
      exact refused _
    | true =>
      rw [perform_regWrite hr hv, hallowed, hv, Bool.true_and]
      by_cases hcmd : r = .cmd
      · subst hcmd
        exact issue _ s
      · obtain ⟨t, ht, -⟩ := Reg.write_next hcmd v s
        rw [if_neg hcmd, ht]
        exact next t

theorem regRead (n : BitVec 4) (s : State) :
    AnsweredExactly ((HostOp.regRead n).allowed s) (perform (.regRead n) s) := by
  rw [HostOp.allowed]
  cases hr : Reg.ofNumber n with
  | none =>
    have hn := Reg.ofNumber_eq_none_iff.1 hr
    rw [perform_regRead_reserved hr, decide_eq_false (by omega)]
    exact refused _
  | some r =>
    have hn : ¬ 13 ≤ n.toNat := fun hn => by simp [Reg.ofNumber_eq_none_iff.2 hn] at hr
    rw [perform_regRead hr, decide_eq_true (by omega)]
    exact next _

end AnsweredExactly

/-- Settles O43, by the kind of the transaction. -/
theorem transactionsAnsweredExactlyWhereAllowed : Obligations.TransactionsAnsweredExactlyWhereAllowed := by
  intro op s
  change AnsweredExactly (op.allowed s) (perform op s)
  cases op with
  | regRead n => exact .regRead n s
  | regWrite n v => exact .regWrite n v s
  | bufRead sel k => exact .ite _ _
  | bufWrite sel k b => exact .ite _ _
  | gridRead k => exact .ite _ _
  | gridWrite k b => exact .ite _ _
  | reset => exact .next _

end Sys2Proof.Machine
end

section
/-! PROOFS. The family 60_exceptions.md: the values of STATUS field by field, the illegal words, and the state each
outcome leaves before STATUS is written, as one relation between two states with one lemma per command. -/

namespace Sys2Proof.Machine

variable {s t : State} {i : Instr} {x : BitVec 32} {c : IllegalCause}

/-! ### The values of STATUS -/

theorem statusCode_statusWord (low : BitVec 8) (o : CmdOutcome) : statusCode (statusWord low o) = o.code := by
  have hcode : o.code.toNat < 2 ^ 4 := o.code.isLt
  apply BitVec.eq_of_toNat_eq
  rw [statusCode, BitVec.extractLsb'_toNat, toNat_statusWord, Nat.shiftRight_zero]
  omega

theorem statusSub_statusWord (low : BitVec 8) (o : CmdOutcome) : statusSub (statusWord low o) = o.sub := by
  have hcode : o.code.toNat < 2 ^ 4 := o.code.isLt
  have hsub : o.sub.toNat < 2 ^ 4 := o.sub.isLt
  apply BitVec.eq_of_toNat_eq
  rw [statusSub, BitVec.extractLsb'_toNat, toNat_statusWord, Nat.shiftRight_eq_div_pow]
  omega

/-- Settles O34: the status a well-formed command leaves. -/
theorem commandsEndOnlyWithTheirOutcomes : Obligations.CommandsEndOnlyWithTheirOutcomes := by
  intro i s t hwf h
  obtain ⟨o, ho, hstatus⟩ := exec_status h
  exact ⟨o, ho hwf, hstatus⟩

/-- A well-formed command leaves one of finitely many values in STATUS (R214). -/
theorem exec_status_mem (hwf : i.wf = true) (h : exec i s = .next t) :
    t.status ∈ (outcomesOf i).map (statusWord i.op) := by
  obtain ⟨o, ho, hstatus⟩ := commandsEndOnlyWithTheirOutcomes i s t hwf h
  exact List.mem_map.2 ⟨o, ho, hstatus.symm⟩

/-! ### Illegal words -/

theorem toNat_statusWord_illegal (x : BitVec 32) (c : IllegalCause) :
    (statusWord (opOf x) (.illegal c)).toNat = x.toNat % 256 * 256 + ((CmdOutcome.illegal c).sub.toNat * 16 + 6) := by
  have hcode : (CmdOutcome.illegal c).code.toNat = 6 := rfl
  rw [toNat_statusWord, toNat_opOf, hcode]
  omega

/-- An illegal word changes only STATUS, to the word's low byte above the sub-cause above the code 6 (R221). -/
theorem issue_illegal_eq (h : decode x = .illegal c) (s : State) :
    issue x s = .next { s with
      status := BitVec.ofNat 32 (x.toNat % 256 * 256 + ((CmdOutcome.illegal c).sub.toNat * 16 + 6)) } := by
  rw [issue_of_illegal h, ← toNat_statusWord_illegal, BitVec.ofNat_toNat, BitVec.setWidth_eq]
  rfl

/-- Settles O5: the first five clauses of the decoder's tests, each with its sub-cause. -/
theorem illegalWordChangesOnlyStatus : Obligations.IllegalWordChangesOnlyStatus := by
  intro x s op arg rsv hop harg hrsv
  obtain ⟨hopcode, hbits, hwidth, hsel, hnone, -⟩ := decoderTestsInOrder.1 x op arg rsv hop harg hrsv
  subst hop
  exact ⟨fun h => issue_illegal_eq (hopcode h) s,
    fun h h0 => issue_illegal_eq (hbits h h0) s,
    fun h h0 hout => issue_illegal_eq (hwidth h h0 hout) s,
    fun h h0 hout => issue_illegal_eq (hsel h h0 hout) s,
    fun h h0 hout => issue_illegal_eq (hnone h h0 hout) s⟩

/-- Settles O35: the listed values are the status words of the outcomes listed for the command. -/
theorem statusValuesAreListed : Obligations.StatusValuesAreListed := by
  refine ⟨fun low o => ⟨toNat_statusWord low o, statusCode_statusWord low o, statusSub_statusWord low o⟩, rfl, ?_, ?_⟩
  · intro i s t hwf h
    have hmem := exec_status_mem hwf h
    cases i
    case nop => exact List.mem_singleton.1 hmem
    case bqclr => exact List.mem_singleton.1 hmem
    all_goals
      rw [outcomesOf, Instr.op] at hmem
      exact hmem
  · intro x s t c hx h
    obtain rfl := Host.Outcome.next.inj ((issue_of_illegal hx s).symm.trans h)
    rw [State.finish_status, toNat_statusWord_illegal]
    cases c with
    | reservedOpcode => rfl
    | reservedBits => rfl
    | badOperand => rfl

/-! ### The state an outcome leaves -/

/-- `u` is a state the outcome may leave before STATUS is written (R220). Of OK it says nothing. -/
def LeftBefore (s : State) : CmdOutcome → State → Prop
  | .ok, _ => True
  | .emptyPasscode, u => u = s.zeroCursors
  | .emptyMessage, u => u = s.zeroCursors
  | .capacityError, u => u = s.zeroCursors
  | .truncated _, u => { u.withCursorsOf s with plen := s.plen, mlen := s.mlen, pbuf := s.pbuf } = s
  | .rangeError, u => u = s
  | .overflow, u => u = s
  | .underflow, u => u = s
  | .illegal _, u => u = s

/-- The command or word ended with an outcome, from a state that outcome may leave. -/
def EndsDefined (s t : State) : Prop :=
  ∃ (u : State) (op : BitVec 8) (o : CmdOutcome), t = u.finish op o ∧ LeftBefore s o u

theorem endsDefined_ok (s u : State) (op : BitVec 8) : EndsDefined s (u.finish op .ok) := ⟨u, op, .ok, rfl, trivial⟩

theorem execEncint_endsDefined {w : BitVec 8} (h : execEncint w s = .next t) : EndsDefined s t := by
  obtain ⟨-, rfl⟩ | ⟨-, -, rfl⟩ | ⟨-, -, -, rfl⟩ | ⟨-, -, -, rfl⟩ := execEncint_cases h
  · exact ⟨s, _, .illegal .badOperand, rfl, rfl⟩
  · exact ⟨s, _, .rangeError, rfl, rfl⟩
  · exact ⟨s, _, .overflow, rfl, rfl⟩
  · exact endsDefined_ok ..

theorem execDecint_endsDefined {w : BitVec 8} (h : execDecint w s = .next t) : EndsDefined s t := by
  obtain ⟨-, rfl⟩ | ⟨-, -, rfl⟩ | ⟨-, -, rfl⟩ := execDecint_cases h
  · exact ⟨s, _, .illegal .badOperand, rfl, rfl⟩
  · exact ⟨s, _, .underflow, rfl, rfl⟩
  · exact endsDefined_ok ..

theorem execEnctxt_endsDefined {sel : BufSel} (h : execEnctxt sel s = .next t) : EndsDefined s t := by
  obtain ⟨-, rfl⟩ | ⟨-, rfl⟩ := execEnctxt_cases h
  · exact ⟨s, _, .overflow, rfl, rfl⟩
  · exact endsDefined_ok ..

theorem execDectxt_endsDefined {sel : BufSel} (h : execDectxt sel s = .next t) : EndsDefined s t := by
  obtain ⟨-, rfl⟩ | ⟨-, rfl⟩ := execDectxt_cases h
  · exact ⟨s, _, .underflow, rfl, rfl⟩
  · exact endsDefined_ok ..

/-- EMBED's checks leave the cursors at 0 (R151). -/
theorem leftBefore_zeroCursors {o : CmdOutcome} (ho : o ∈ outcomesOf .embed) : LeftBefore s o s.zeroCursors := by
  simp only [outcomesOf, List.mem_cons, List.not_mem_nil, or_false] at ho
  obtain rfl | rfl | rfl | rfl := ho
  · trivial
  all_goals rfl

theorem execEmbed_endsDefined (h : execEmbed s = .next t) : EndsDefined s t := by
  obtain ⟨-, ⟨-, rfl⟩ | ⟨-, rfl⟩⟩ := execEmbed_cases h
  · rw [State.setCursor_zero]
    exact ⟨_, _, _, rfl, leftBefore_zeroCursors (embedCheck_mem s)⟩
  · exact endsDefined_ok ..

theorem State.withCursorsOf_setCursor (u s : State) (k : Nat) :
    (u.setCursor k).withCursorsOf s = u.withCursorsOf s := (rfl)

/-- Before the field that does not fit, EXTRACT has delivered PLEN, PBUF and MLEN at most (R173). -/
theorem leftBefore_truncated (s : State) (f : Field) (k : Nat) :
    LeftBefore s (.truncated f) ((s.delivered (some f)).setCursor k) := by
  rw [LeftBefore, State.withCursorsOf_setCursor, State.withCursorsOf]
  cases f with
  | passlen => rfl
  | pass => rw [State.delivered_pass, gotPasslen_eq]
  | msglen => rw [State.delivered_msglen, gotPass_eq, gotPasslen_eq]
  | msg => rw [State.delivered_msg, gotMsglen_eq, gotPass_eq, gotPasslen_eq]

theorem execExtract_endsDefined (h : execExtract s = .next t) : EndsDefined s t := by
  obtain rfl := Host.Outcome.next.inj ((execExtract_eq_extracted (execExtract_cases h).1).symm.trans h)
  cases s.misfit with
  | none => exact endsDefined_ok ..
  | some f => exact ⟨_, _, .truncated f, rfl, leftBefore_truncated ..⟩

theorem exec_endsDefined (h : exec i s = .next t) : EndsDefined s t := by
  cases i with
  | nop =>
    obtain rfl := Host.Outcome.next.inj h
    exact endsDefined_ok ..
  | encint w => exact execEncint_endsDefined h
  | decint w => exact execDecint_endsDefined h
  | enctxt sel => exact execEnctxt_endsDefined h
  | dectxt sel => exact execDectxt_endsDefined h
  | bqclr =>
    obtain rfl := Host.Outcome.next.inj h
    exact endsDefined_ok ..
  | embed => exact execEmbed_endsDefined h
  | extract => exact execExtract_endsDefined h

theorem issue_endsDefined (h : issue x s = .next t) : EndsDefined s t := by
  cases hx : decode x with
  | cmd i => exact exec_endsDefined ((issue_of_cmd hx s).symm.trans h)
  | illegal c =>
    obtain rfl := Host.Outcome.next.inj ((issue_of_illegal hx s).symm.trans h)
    exact ⟨s, _, .illegal c, rfl, rfl⟩

section
variable {u : State} {o : CmdOutcome} (h : LeftBefore s o u)
include h

/-- RangeError, QueueError and IllegalCommand leave the state as it was. -/
theorem LeftBefore.eq_self (hcode : o.code ∈ [4#4, 5#4, 6#4]) : u = s := by
  cases o with
  | rangeError => exact h
  | overflow => exact h
  | underflow => exact h
  | illegal c => exact h
  | _ => exact absurd hcode (by simp [CmdOutcome.code])

/-- InputError and CapacityError leave the cursors at 0. -/
theorem LeftBefore.eq_zeroCursors (hcode : o.code ∈ [1#4, 2#4]) : u = s.zeroCursors := by
  cases o with
  | emptyPasscode => exact h
  | emptyMessage => exact h
  | capacityError => exact h
  | _ => exact absurd hcode (by simp [CmdOutcome.code])

/-- TruncatedDataError leaves all but what EXTRACT delivers before its last field. -/
theorem LeftBefore.eq_of_truncated (hcode : o.code = 3#4) :
    { u.withCursorsOf s with plen := s.plen, mlen := s.mlen, pbuf := s.pbuf } = s := by
  cases o with
  | truncated f => exact h
  | _ => exact absurd hcode (by simp [CmdOutcome.code])

end

/-- Settles O36: the code in STATUS names the outcome's kind, and the kind the state it leaves. -/
theorem errorOutcomesLeaveDefinedState : Obligations.ErrorOutcomesLeaveDefinedState := by
  intro x s t h
  obtain ⟨u, op, o, rfl, hleft⟩ := issue_endsDefined h
  rw [State.finish_status, statusCode_statusWord]
  refine ⟨fun hcode => ?_, fun hcode => ?_, fun hcode => ?_⟩
  · rw [hleft.eq_self hcode]; rfl
  · rw [hleft.eq_zeroCursors hcode]; rfl
  · exact congrArg (fun v : State => { v with status := s.status }) (hleft.eq_of_truncated hcode)

end Sys2Proof.Machine
end

section
/-! PROOFS. The family 70_reset_and_hazards.md: the state the reset event leaves; and what EXTRACT reads of the grid,
field by field: no sample's LSB behind the end of a field that fits. -/

namespace Sys2Proof.Machine

variable {s t : State}

/-! ### The reset event -/

theorem perform_reset (s : State) : perform .reset s = .next s.applyReset := (rfl)

/-- The reset event puts every register and BQ at its value of R40 (R240). -/
theorem State.applyReset_launch (s : State) : s.applyReset.Launch where
  status_zero := s.applyReset_status
  dims_zero := ⟨s.applyReset_rows, s.applyReset_cols, s.applyReset_chans⟩
  lens_zero := ⟨s.applyReset_plen, s.applyReset_mlen⟩
  ival_zero := s.applyReset_ival
  cursors_zero := ⟨s.applyReset_bcur, s.applyReset_scurR, s.applyReset_scurC, s.applyReset_scurCh⟩
  bq_empty := s.applyReset_bq

theorem State.applyReset_buf (s : State) (sel : BufSel) : s.applyReset.buf sel = [] := by
  cases sel with
  | pass => exact s.applyReset_pbuf
  | msg => exact s.applyReset_mbuf

theorem State.sample_of_unwritten {k : Nat} (h : s.grid.get? k = none) :
    s.sample k = Config.unwritten s.epoch .grid k := by
  rw [sample, h]
  rfl

/-- Settles O47: no byte is listed after the reset event, so every read falls back to the new epoch's free value. -/
theorem resetEventResetsRegisters : Obligations.ResetEventResetsRegisters := by
  intro s
  refine ⟨_, perform_reset s, s.applyReset_launch, s.applyReset_params, s.applyReset_pending, s.applyReset_reads,
    fun sel i => ?_, fun k => ?_⟩
  · exact State.bufByte_of_unwritten (by rw [s.applyReset_buf, Memory.get?_nil])
  · exact State.sample_of_unwritten (by rw [s.applyReset_grid, Memory.get?_nil])

/-! ### What EXTRACT reads of the grid

Two states agree in the LSBs of their first `n` samples. A field that ends there holds the same in both. -/

section
variable {n : Nat} (hlsb : ∀ k < n, t.lsb k = s.lsb k)
include hlsb

theorem State.bitsFrom_congr_of_le {k w : Nat} (hfit : k + w ≤ n) : t.bitsFrom k w = s.bitsFrom k w :=
  bitsFrom_congr fun i hi => hlsb (k + i) (by omega)

theorem State.fieldValue_congr_of_le {k w : Nat} (hfit : k + w ≤ n) : t.fieldValue k w = s.fieldValue k w := by
  rw [← decodeInt_bitsFrom, bitsFrom_congr_of_le hlsb hfit, decodeInt_bitsFrom]

theorem msglenPos_congr_of_le (hfit : msglenPos s ≤ n) : msglenPos t = msglenPos s := by
  have hpasslen : 0 + 16 ≤ n := le_trans (Nat.le_add_right 16 _) hfit
  rw [msglenPos, State.fieldValue_congr_of_le hlsb hpasslen, msglenPos]

/-- MSGLEN holds the same in both where it ends there, with the field PASSLEN that says where it starts. -/
theorem msglen_congr_of_le (hfit : msglenPos s + 32 ≤ n) :
    t.fieldValue (msglenPos t) 32 = s.fieldValue (msglenPos s) 32 := by
  rw [msglenPos_congr_of_le hlsb (by omega), State.fieldValue_congr_of_le hlsb hfit]

/-- Where EXTRACT ends is read from the samples before it. -/
theorem State.extractEnd_congr_of_le {f : Option Field} (hend : s.extractEnd f ≤ n) :
    t.extractEnd f = s.extractEnd f := by
  obtain _ | _ | _ | _ | _ := f <;> rw [extractEnd] at hend
  case some.passlen | some.pass => rfl
  case some.msglen => exact msglenPos_congr_of_le hlsb hend
  case some.msg => rw [extractEnd, msglenPos_congr_of_le hlsb (by omega), extractEnd]
  case none =>
    rw [extractEnd, msglen_congr_of_le hlsb (by omega), msglenPos_congr_of_le hlsb (by omega), extractEnd]

theorem State.announcedText_congr_of_le (hend : s.extractEnd none ≤ n) (sel : BufSel) :
    t.announcedText sel = s.announcedText sel := by
  rw [extractEnd] at hend
  have hpos : msglenPos s = 16 + 8 * s.fieldValue 0 16 := rfl
  cases sel with
  | pass =>
    rw [announcedText, announcedLen, fieldValue_congr_of_le hlsb (by omega), bitsFrom_congr_of_le hlsb (by omega),
      announcedText, announcedLen]
  | msg =>
    rw [announcedText, announcedLen, msglen_congr_of_le hlsb (by omega), msglenPos_congr_of_le hlsb (by omega),
      bitsFrom_congr_of_le hlsb hend, announcedText, announcedLen]

end

/-- Each comparison with N reads only fields that have been found to fit. -/
theorem State.misfit_congr_of_le (hN : t.numSamples = s.numSamples) (hlsb : ∀ k < s.numSamples, t.lsb k = s.lsb k) :
    t.misfit = s.misfit := by
  rw [misfit, misfit, hN]
  refine ite_congr rfl (fun _ => rfl) fun hpasslen => ?_
  have hpl : t.fieldValue 0 16 = s.fieldValue 0 16 := fieldValue_congr_of_le hlsb (by omega)
  have hpos : msglenPos t = msglenPos s := by rw [msglenPos, hpl, msglenPos]
  rw [hpos]
  refine ite_congr rfl (fun _ => rfl) fun _ => ite_congr rfl (fun _ => rfl) fun hmsglen => ?_
  rw [fieldValue_congr_of_le hlsb (not_lt.1 hmsglen)]

/-! ### The texts EXTRACT delivers -/

theorem State.length_announcedText (s : State) (sel : BufSel) :
    (s.announcedText sel).length = s.announcedLen sel := by
  cases sel <;> rw [announcedText, length_chars]

theorem gotMsg_len (s : State) (sel : BufSel) : (gotMsg s).len sel = s.announcedLen sel := by
  cases sel with
  | pass => exact gotMsg_plen s
  | msg => exact gotMsg_mlen s

theorem gotMsg_bufByte_of_lt_announcedLen {sel : BufSel} {i : Nat} (hi : i < s.announcedLen sel) :
    (gotMsg s).bufByte sel i = (s.announcedText sel).getD i 0 := by
  cases sel with
  | pass =>
    rw [State.announcedLen] at hi
    rw [gotMsg_bufByte_pass, gotPass_bufByte_pass, if_pos hi, State.announcedText, State.announcedLen]
  | msg =>
    rw [State.announcedLen] at hi
    rw [gotMsg_bufByte_msg, if_pos hi, State.announcedText, State.announcedLen]

theorem gotMsg_text (s : State) (sel : BufSel) : (gotMsg s).text sel = s.announcedText sel := by
  have hlen : (gotMsg s).len sel = (s.announcedText sel).length := by
    rw [gotMsg_len, State.length_announcedText]
  refine State.text_eq_of_bytes hlen fun i hi => ?_
  have hi' : i < s.announcedLen sel := by rwa [← State.length_announcedText]
  rw [gotMsg_bufByte_of_lt_announcedLen hi', List.getD_eq_getElem _ _ hi]

theorem State.extracted_text_none (s : State) (sel : BufSel) : (s.extracted none).text sel = s.announcedText sel := by
  rw [extracted, text_finish, text_setCursor, delivered_none, gotMsg_text]

@[simp] theorem State.extracted_status (s : State) (f : Option Field) :
    (s.extracted f).status = statusWord opExtract (extractOutcome f) := (rfl)

@[simp] theorem State.extracted_bcur (s : State) (f : Option Field) :
    (s.extracted f).bcur = BitVec.ofNat 40 (s.extractEnd f) := (rfl)

/-- Of all ends of EXTRACT, only the one behind the whole container leaves OK in STATUS. -/
theorem State.eq_none_of_extracted_status {f : Option Field} (h : (s.extracted f).status = 0x00001100#32) :
    f = none := by
  obtain _ | f := f
  · rfl
  · have hcode : (CmdOutcome.truncated f).code = statusCode 0x00001100#32 := by
      rw [← h]
      exact (statusCode_statusWord opExtract _).symm
    exact nomatch hcode

/-- Settles O32: N and the LSBs below it fix the first field that does not fit and where EXTRACT ends, and where all
fit, the lengths and the texts. -/
theorem extractDependsOnlyOnLsbsAndCount : Obligations.ExtractDependsOnlyOnLsbsAndCount := by
  intro s s' t t' hN hlsb hexec hexec'
  obtain rfl := Host.Outcome.next.inj ((execExtract_eq_extracted (execExtract_cases hexec).1).symm.trans hexec)
  obtain rfl := Host.Outcome.next.inj ((execExtract_eq_extracted (execExtract_cases hexec').1).symm.trans hexec')
  have hlsb' : ∀ k < s'.numSamples, s.lsb k = s'.lsb k := hN ▸ hlsb
  have hend := s'.extractEnd_misfit_le
  rw [State.misfit_congr_of_le hN hlsb']
  refine ⟨?_, ?_, fun hok => ?_⟩
  · rw [State.extracted_status, State.extracted_status]
  · rw [State.extracted_bcur, State.extractEnd_congr_of_le hlsb' hend, State.extracted_bcur]
  rw [State.eq_none_of_extracted_status hok] at hend ⊢
  have htext (sel : BufSel) : (s.extracted none).text sel = (s'.extracted none).text sel := by
    rw [State.extracted_text_none, State.announcedText_congr_of_le hlsb' hend, State.extracted_text_none]
  have hlen (sel : BufSel) : (s.extracted none).len sel = (s'.extracted none).len sel := by
    rw [← State.length_text, htext, State.length_text]
  exact ⟨BitVec.eq_of_toNat_eq (hlen .pass), BitVec.eq_of_toNat_eq (hlen .msg), htext .pass, htext .msg⟩

end Sys2Proof.Machine
end
